-- ==== Sys2Proof/Word.lean ====
section
/-! DEFINITION. The words OWM moves: an 8-bit byte and a 64-bit Device Address (R8, R9: all values unsigned,
bit 0 the least significant). -/

namespace Sys2Proof

/-- The data unit of OWM (R8). -/
abbrev Byte := BitVec 8

/-- A Device Address: byte `k` stands at bits `[8k+7:8k]` (R9, R13, R56). -/
abbrev Address := BitVec 64

end Sys2Proof
end

