-- ==== Sys2Proof/Config.lean ====
section
/-! DEFINITION. What an implementation fixes (the Timing Profile, `N_WH`, the ROM command codes) and the free values:
constants with no body, so that nothing can be proved of a value the spec leaves open. -/

namespace Sys2Proof

/-- The named delays of the Timing Profile (R7) and the spacing of the stuck-low check (R8): the argument of a
`Delay` action is one of these. -/
inductive Duration where
  /-- `T_RSTL`, reset-low duration. -/
  | rstl
  /-- `T_PDS`, presence-sample delay. -/
  | pds
  /-- `T_RSTR`, remainder of the reset window. -/
  | rstr
  /-- `T_W1L`, write-slot low duration for bit 1. -/
  | w1l
  /-- `T_W1R`, remainder of the write-1 slot. -/
  | w1r
  /-- `T_W0L`, write-slot low duration for bit 0. -/
  | w0l
  /-- `T_W0R`, remainder of the write-0 slot. -/
  | w0r
  /-- `T_RDL`, read-slot initiating low pulse. -/
  | rdl
  /-- `T_RDS`, read-slot sample delay. -/
  | rds
  /-- `T_RDR`, remainder of the read slot. -/
  | rdr
  /-- `T_WHP`, spacing of the samples of the stuck-low check. -/
  | whp
  deriving DecidableEq, Repr

/-- Values of the named delays, in microseconds (R7, R8): "constants, not runtime-mutable". -/
structure TimingProfile where
  rstl : Nat
  pds : Nat
  rstr : Nat
  w1l : Nat
  w1r : Nat
  w0l : Nat
  w0r : Nat
  rdl : Nat
  rds : Nat
  rdr : Nat
  whp : Nat
  deriving DecidableEq, Repr, Inhabited

namespace TimingProfile

/-- The default column of R7 and R8. PRESUMED (general knowledge G2, G3 of the spec, log 8): used by examples only. -/
def standard : TimingProfile :=
  { rstl := 480, pds := 70, rstr := 410, w1l := 6, w1r := 64, w0l := 60, w0r := 10,
    rdl := 6, rds := 9, rdr := 55, whp := 2 }

/-- The value a profile gives to a named delay. -/
def micros (p : TimingProfile) : Duration → Nat
  | .rstl => p.rstl
  | .pds => p.pds
  | .rstr => p.rstr
  | .w1l => p.w1l
  | .w1r => p.w1r
  | .w0l => p.w0l
  | .w0r => p.w0r
  | .rdl => p.rdl
  | .rds => p.rds
  | .rdr => p.rdr
  | .whp => p.whp

/-- The only relation the source states between the delays: `T_W1L < T_W0L` (R7). -/
abbrev Legal (p : TimingProfile) : Prop := p.w1l < p.w0l

end TimingProfile

/-- The five ROM command codes as a record (R77, G1). -/
structure RomCodes where
  readRom : Byte
  matchRom : Byte
  skipRom : Byte
  searchRom : Byte
  alarmSearch : Byte
  deriving DecidableEq, Repr, Inhabited

/-- What a failed `DriveLow` or `Release` leaves: `OE` at either value, and the real output at either value, each apart
from the other (R221, U2, log 3). -/
structure FaultedOutput where
  /-- The value `OE` is left at. -/
  oe : Bool
  /-- Whether the real output is left driving the line low. -/
  low : Bool
  deriving DecidableEq, Repr, Inhabited

/-- `OE = 0`, the line not driven: what a failing `Sample` leaves where the line was released. -/
def FaultedOutput.released : FaultedOutput := { oe := false, low := false }

/-- What the platform answers to one `DriveLow`, `Release` or `Sample` (R11): the action works, with the level the
rest of the line shows (used by `Sample` only: 1 high, 0 low), or it fails; `left` is what a failing `DriveLow` or
`Release` leaves (R221). -/
inductive LineAnswer where
  | works (level : Bool)
  | fails (left : FaultedOutput)
  deriving DecidableEq, Repr, Inhabited

namespace Config

/-- `N_WH - 1`; the spec gives `N_WH` as a positive integer and leaves its value open (R8, D6, log 7). -/
opaque extraSamples : Nat

/-- `N_WH`, how many times `WaitHigh` samples the line (R8): positive, its value open. -/
def nWh : Nat := extraSamples + 1

/-- The ROM command codes of R77 and of spec/opcode_table.json. PRESUMED (general knowledge G1 of the spec, log 9). -/
def romCodes : RomCodes :=
  { readRom := 0x33, matchRom := 0x55, skipRom := 0xCC, searchRom := 0xF0, alarmSearch := 0xEC }

/-- The answer to a line action for which State lists none: the `k`-th such answer is free (R11, U4, log 2). -/
opaque lineAnswer : Nat → LineAnswer

/-- `ADDR` after the `n`-th hardware reset: any value (R37, U7, log 4). -/
opaque resetAddr : Nat → Address

/-- `DATA` after the `n`-th hardware reset: any value (R37, U7, log 4). -/
opaque resetData : Nat → Byte

/-- `BUF[i]` after the `n`-th hardware reset: any value (R37, U7, log 5). -/
opaque resetBufByte : Nat → Nat → Byte

/-- `S_ADDR` after the `n`-th hardware reset: any value (R37, U7, log 4). -/
opaque resetSAddr : Nat → Address

/-- `S_LD` after the `n`-th hardware reset: any value in 0..64 (R37, U7, log 4). -/
opaque resetSLd : Nat → Fin 65

/-- `S_FIRST` after the `n`-th hardware reset: either value (R37, U7, log 4). -/
opaque resetSFirst : Nat → Bool

/-- `S_ALARM` after the `n`-th hardware reset: either value (R37, U7, log 4). -/
opaque resetSAlarm : Nat → Bool

end Config

end Sys2Proof
end

