-- ==== Sys2Proof/Syntax.lean ====
section
/-! DEFINITION. The instructions of OWM, one constructor per row of spec/opcode_table.json, and the words that name
them (R70 to R74, R77). -/

namespace Sys2Proof

/-- One row of the opcode table, operands pulled out of `ARG` (R71, R72). The first sixteen are host operations
(format HOST12), the last five the ROM command frames (format ROM8). -/
inductive Instr where
  /-- `RESET` (R191). -/
  | reset
  /-- `WRITE_BIT`, the bit being `ARG[0]` (R192). -/
  | writeBit (b : Bool)
  /-- `READ_BIT` (R193). -/
  | readBit
  /-- `WRITE_BYTE`, the byte being `ARG` (R194). -/
  | writeByte (v : Byte)
  /-- `READ_BYTE` (R195). -/
  | readByte
  /-- `WRITE_BYTES`, the count being `ARG` (R196). -/
  | writeBytes (n : Nat)
  /-- `READ_BYTES`, the count being `ARG` (R197). -/
  | readBytes (n : Nat)
  /-- `SELECT` (R198). -/
  | select
  /-- `SKIP_SELECT` (R199). -/
  | skipSelect
  /-- `READ_ROM` (R200). -/
  | readRom
  /-- `SEARCH_INIT`, `alarm_only` being `ARG[0]` (R201). -/
  | searchInit (alarm : Bool)
  /-- `SEARCH_NEXT` (R202). -/
  | searchNext
  /-- `CRC8`, the count being `ARG` (R203). -/
  | crc8 (n : Nat)
  /-- The reserved code 0x0 (R204). -/
  | reserved0
  /-- The reserved code 0xE (R204). -/
  | reservedE
  /-- The reserved code 0xF (R204). -/
  | reservedF
  /-- Read ROM frame (R142). -/
  | romRead
  /-- Match ROM frame (R143). -/
  | romMatch
  /-- Skip ROM frame (R144). -/
  | romSkip
  /-- Search ROM frame (R145). -/
  | romSearch
  /-- Alarm Search frame (R146). -/
  | romAlarmSearch
  deriving DecidableEq, Repr

/-- A word that names an instruction: the 12-bit command word of the host (R70), or the command byte of the ROM
command sequencer (R77). -/
inductive CommandWord where
  | host (w : BitVec 12)
  | rom (code : Byte)
  deriving DecidableEq, Repr

end Sys2Proof
end

