-- ==== Sys2Proof/WellFormed.lean ====
section
/-! DEFINITION. Which instructions have an encoding: a byte count is an 8-bit `ARG`, so 0..255 (R72). Every other
operand is legal at every value of its type. -/

namespace Sys2Proof

/-- The operands of `i` fit the fields that encode them (R72). -/
def Instr.WellFormed : Instr → Bool
  | .writeBytes n => decide (n ≤ 255)
  | .readBytes n => decide (n ≤ 255)
  | .crc8 n => decide (n ≤ 255)
  | .reset | .writeBit _ | .readBit | .writeByte _ | .readByte => true
  | .select | .skipSelect | .readRom | .searchInit _ | .searchNext => true
  | .reserved0 | .reservedE | .reservedF => true
  | .romRead | .romMatch | .romSkip | .romSearch | .romAlarmSearch => true

end Sys2Proof
end

