-- ==== Sys2Proof/Decode.lean ====
section
/-! DEFINITION. Decoding of command words, total and rejecting by name, and the encoder (R70 to R74, R77, R81, R84). -/

namespace Sys2Proof

/-- Why a word names no instruction. -/
inductive DecodeError where
  /-- A byte at the ROM command sequencer that is none of the five codes of R77 (R81). -/
  | notARomCommand (code : Byte)
  deriving DecidableEq, Repr

/-- `OP = CMD[11:8]` (R70). -/
def opField (w : BitVec 12) : BitVec 4 := w.extractLsb' 8 4

/-- `ARG = CMD[7:0]` (R70). -/
def argField (w : BitVec 12) : Byte := w.extractLsb' 0 8

/-- `CMD = {OP, ARG}` (R70, R82). -/
def commandOf (op : BitVec 4) (arg : Byte) : BitVec 12 := op ++ arg

/-- `zext_8` of one bit, the form of an operand that is `ARG[0]` (R72). -/
def bitArg (b : Bool) : Byte := if b then 1 else 0

/-- The operation an operation code selects, given its argument (R71, R72, R73): total on all 16 codes. -/
def decodeOp (op : BitVec 4) (arg : Byte) : Instr :=
  match op.toNat with
  | 0x0 => .reserved0
  | 0x1 => .reset
  | 0x2 => .writeBit (arg.getLsbD 0)
  | 0x3 => .readBit
  | 0x4 => .writeByte arg
  | 0x5 => .readByte
  | 0x6 => .writeBytes arg.toNat
  | 0x7 => .readBytes arg.toNat
  | 0x8 => .select
  | 0x9 => .skipSelect
  | 0xA => .readRom
  | 0xB => .searchInit (arg.getLsbD 0)
  | 0xC => .searchNext
  | 0xD => .crc8 arg.toNat
  | 0xE => .reservedE
  | _ => .reservedF

/-- Decoding of a host command word: total on all 4096 words (R74). -/
def decodeHost (w : BitVec 12) : Instr := decodeOp (opField w) (argField w)

/-- Decoding of a ROM command byte: the five codes of R77, every other byte rejected (R81). -/
def decodeRom (code : Byte) : Except DecodeError Instr :=
  if code = Config.romCodes.readRom then .ok .romRead
  else if code = Config.romCodes.matchRom then .ok .romMatch
  else if code = Config.romCodes.skipRom then .ok .romSkip
  else if code = Config.romCodes.searchRom then .ok .romSearch
  else if code = Config.romCodes.alarmSearch then .ok .romAlarmSearch
  else .error (.notARomCommand code)

/-- The instruction a command word names. -/
def decode : CommandWord → Except DecodeError Instr
  | .host w => .ok (decodeHost w)
  | .rom code => decodeRom code

/-- The command word of the opcode table's row whose bits are `w`, bit 0 the least significant: rows of 8 bits are
ROM command bytes, rows of 12 bits (16 in whole bytes) host words (R84); none when `w` has a bit the row has not. -/
def tableWord (nbits w : Nat) : Option CommandWord :=
  if nbits ≤ 8 then
    if w < 256 then some (.rom (BitVec.ofNat 8 w)) else none
  else if w < 4096 then some (.host (BitVec.ofNat 12 w)) else none

/-- What the decoder reads from the opcode table's row whose bits are `w`. -/
def decodeTableWord (nbits w : Nat) : Option Instr :=
  match tableWord nbits w with
  | some c =>
    match decode c with
    | .ok i => some i
    | .error _ => none
  | none => none

/-- The word of an instruction, from the tables of R71 and R77; an ignored `ARG` bit is sent as 0. -/
def encode : Instr → CommandWord
  | .reserved0 => .host (commandOf 0x0 0)
  | .reset => .host (commandOf 0x1 0)
  | .writeBit b => .host (commandOf 0x2 (bitArg b))
  | .readBit => .host (commandOf 0x3 0)
  | .writeByte v => .host (commandOf 0x4 v)
  | .readByte => .host (commandOf 0x5 0)
  | .writeBytes n => .host (commandOf 0x6 (BitVec.ofNat 8 n))
  | .readBytes n => .host (commandOf 0x7 (BitVec.ofNat 8 n))
  | .select => .host (commandOf 0x8 0)
  | .skipSelect => .host (commandOf 0x9 0)
  | .readRom => .host (commandOf 0xA 0)
  | .searchInit alarm => .host (commandOf 0xB (bitArg alarm))
  | .searchNext => .host (commandOf 0xC 0)
  | .crc8 n => .host (commandOf 0xD (BitVec.ofNat 8 n))
  | .reservedE => .host (commandOf 0xE 0)
  | .reservedF => .host (commandOf 0xF 0)
  | .romRead => .rom Config.romCodes.readRom
  | .romMatch => .rom Config.romCodes.matchRom
  | .romSkip => .rom Config.romCodes.skipRom
  | .romSearch => .rom Config.romCodes.searchRom
  | .romAlarmSearch => .rom Config.romCodes.alarmSearch

end Sys2Proof
end

