-- ==== Sys2Proof/Machine/State.lean ====
section
/-! DEFINITION. The state of OWM as plain data (R20 to R38), the inputs and outputs the model carries beside it, the
reasons a step can stop, and the state after hardware reset (R37, R250). -/

namespace Sys2Proof.Machine

/-- The error kinds (R220). Not reasons to stop: each is reported in `STATUS.CODE` and OWM takes the next command. -/
inductive ErrorKind where
  | lineFault
  | busNotHigh
  | noPresence
  | unexpectedAbsence
  | crcMismatch
  | illegalOp
  deriving DecidableEq, Repr

/-- The three actions of the line device that can fail (R11, R234). -/
inductive LineAction where
  | driveLow
  | release
  | sample
  deriving DecidableEq, Repr

/-- One entry of the action trace (R12): an action that was performed, with the argument of a `Delay` or the answer
of a `Sample` (true for high), or the action that failed. -/
inductive LineEvent where
  | driveLow
  | release
  | sample (level : Bool)
  | delay (d : Duration)
  | failed (a : LineAction)
  deriving DecidableEq, Repr

/-- What the world outside can do to OWM between operations: the host (R20, R25, R250), a request at the ROM command
sequencer's own port, the platform (R221); see log 1, 3, 10, 14. -/
inductive HostInput where
  /-- A command word on `CMD`, or a command byte at the ROM command sequencer. -/
  | command (w : CommandWord)
  /-- The host writes `ADDR` (R22, R82). -/
  | writeAddr (v : Address)
  /-- The host writes `BUF[i]` (R26, R82). -/
  | writeBuf (i : Byte) (v : Byte)
  /-- Hardware reset while OWM is idle (R250). -/
  | hardReset
  /-- A command whose operation is abandoned by a hardware reset after `actions` line actions (R250). -/
  | commandCut (w : CommandWord) (actions : Nat)
  /-- The platform recovers from a fault: the line output is really released (R221, log 3). -/
  | platformRecovers
  deriving DecidableEq, Repr

/-- Bytes by index, indices strictly rising: the bytes of `BUF` written since the last hardware reset (R26, R50). -/
abbrev Memory := List Host.Cell

/-- The canonical form: indices strictly rising and inside `BUF` (R50). No entry is ever removed, since the free
value an unlisted byte reads as equals no named byte (log 5). -/
abbrev Memory.wf (m : Memory) : Prop :=
  m.Pairwise (fun a b => a.1 < b.1) ∧ ∀ c ∈ m, c.1 < 256

/-- Why OWM's model can stop with a fault. -/
inductive Fault where
  /-- A byte count above 255. Raised by the meanings of `WRITE_BYTES`, `READ_BYTES` and `CRC8` for a term that no
  command word encodes (R72). Safe: such a term is never decoded. -/
  | countOutOfRange (n : Nat)
  deriving DecidableEq, Repr

/-- Why a step can be refused. -/
inductive Refusal where
  /-- No meaning yet for the instruction of that mnemonic; raised by arms of `exec` only. Safe. -/
  | notModelled (mnemonic : String)
  /-- A byte requested of the ROM command sequencer that is none of its five codes; raised by the step. Safe: the
  ROM Command Layer never writes another first byte (R81). -/
  | notARomCommand (code : Byte)
  deriving DecidableEq, Repr

/-- The state of OWM: the ten rows of R20, then the model's own fields (inputs still to come, free-value counters,
and the line trace so far). -/
structure State where
  /-- `OE`: true while OWM drives the line low (R21). -/
  oe : Bool
  /-- `ADDR` (R22). -/
  addr : Address
  /-- `DATA` (R23). -/
  data : Byte
  /-- `STATUS` (R24). -/
  status : Byte
  /-- `BUF`, the bytes written since the last hardware reset (R26). -/
  buf : Memory
  /-- `S_ADDR`, the last discovered address (R27). -/
  sAddr : Address
  /-- `S_LD`, the last discrepancy position, 0 for none (R27). -/
  sLd : BitVec 7
  /-- `S_FIRST` (R27). -/
  sFirst : Bool
  /-- `S_ALARM` (R28). -/
  sAlarm : Bool
  /-- `S_HALT` (R28). -/
  sHalt : Bool
  /-- Model's own: what the host does next, in order. -/
  inputs : List HostInput
  /-- Model's own: what the platform answers to the coming line actions, in order. -/
  answers : List LineAnswer
  /-- Model's own, the platform's: whether the line output really drives the line low. It goes with `OE` while the
  line actions work; a failed `DriveLow` or `Release` can leave it low with `OE` cleared later (R221, U2, log 3). -/
  outputLow : Bool
  /-- Model's own: how many free answers were drawn after `answers` ran out. -/
  draws : Nat
  /-- Model's own: how many hardware resets happened since the first. -/
  resets : Nat
  /-- Model's own: the line actions performed so far, oldest first (R12, R59). -/
  trace : List LineEvent
  deriving DecidableEq, Repr

/-- The state right after the `n`-th hardware reset, with no input waiting and an empty record (R37): `OE = 0`,
`STATUS = 0x00`, `S_HALT = 1`, `BUF` unwritten, every other register the free value of Config. -/
def State.resetAt (n : Nat) : State :=
  { oe := false
    addr := Config.resetAddr n
    data := Config.resetData n
    status := 0x00
    buf := []
    sAddr := Config.resetSAddr n
    sLd := BitVec.ofNat 7 (Config.resetSLd n).val
    sFirst := Config.resetSFirst n
    sAlarm := Config.resetSAlarm n
    sHalt := true
    inputs := []
    answers := []
    outputLow := false
    draws := 0
    resets := n
    trace := [] }

/-- The machine right after its first hardware reset (R37, R250). -/
def State.reset : State := State.resetAt 0

end Sys2Proof.Machine
end

