-- ==== Sys2Proof/Machine/Operands.lean ====
section
/-! DEFINITION. Bits and bytes of registers and operands: bit select and insert, the byte view of an address, the
byte of `BUF` an index names (R9, R50, R56, R80, R107). -/

namespace Sys2Proof.Machine

/-- `v[i] <- b` (R9, R107): the other bits stay. -/
def setBit {w : Nat} (v : BitVec w) (i : Nat) (b : Bool) : BitVec w :=
  if b then v ||| BitVec.twoPow w i else v &&& ~~~ BitVec.twoPow w i

/-- `zext_8` of one bit (R10, R193). -/
def zextBit (b : Bool) : Byte := if b then 1 else 0

/-- The bits of a byte as they cross the line, bit 0 first (R54). -/
def byteBits (v : Byte) : List Bool := (List.range 8).map v.getLsbD

/-- Byte `k` of an address: `a[8k+7:8k]` (R9, R56). -/
def addrByte (a : Address) (k : Nat) : Byte := a.extractLsb' (8 * k) 8

/-- `a[8k+7:8k] <- v`, bit by bit (R80). -/
def setAddrByte (a : Address) (k : Nat) (v : Byte) : Address :=
  (List.range 8).foldl (fun a i => setBit a (8 * k + i) (v.getLsbD i)) a

/-- The byte listed for an index, if one is. -/
def Memory.read? : Memory → Nat → Option Byte
  | [], _ => none
  | (k, v) :: m, i => if i = k then some v else Memory.read? m i

/-- Lists byte `v` for index `i`, in the canonical form. -/
def Memory.write : Memory → Nat → Byte → Memory
  | [], i, v => [(i, v)]
  | (k, w) :: m, i, v =>
    if i < k then (i, v) :: (k, w) :: m
    else if i = k then (i, v) :: m
    else (k, w) :: Memory.write m i v

/-- What `BUF[i]` holds: the byte listed for `i`, or else its free value since the last hardware reset (R37, R50). -/
def State.bufByte (s : State) (i : Nat) : Byte :=
  match Memory.read? s.buf i with
  | some v => v
  | none => Config.resetBufByte s.resets i

/-- `BUF[0..n-1]` as a sequence (R203). -/
def State.bufBytes (s : State) (n : Nat) : List Byte := (List.range n).map s.bufByte

end Sys2Proof.Machine
end

