-- ==== Sys2Proof/Machine/Flags.lean ====
section
/-! DEFINITION. The fields of `STATUS` and the status flags (R24, R32, R205, R220). -/

namespace Sys2Proof.Machine

/-- `STATUS.CODE`, bits 2..0 (R24). -/
def statusCode (st : Byte) : BitVec 3 := st.extractLsb' 0 3

/-- `STATUS.PRESENCE`, bit 3 (R24). -/
def statusPresence (st : Byte) : Bool := st.getLsbD 3

/-- `STATUS.FOUND`, bit 4 (R24). -/
def statusFound (st : Byte) : Bool := st.getLsbD 4

/-- `STATUS[7:5]`, read as 0 (R24). -/
def statusReserved (st : Byte) : BitVec 3 := st.extractLsb' 5 3

/-- `STATUS.CODE <- c`, the other fields staying. -/
def withCode (st : Byte) (c : BitVec 3) : Byte :=
  setBit (setBit (setBit st 0 (c.getLsbD 0)) 1 (c.getLsbD 1)) 2 (c.getLsbD 2)

/-- `STATUS.PRESENCE <- b`, the other fields staying. -/
def withPresence (st : Byte) (b : Bool) : Byte := setBit st 3 b

/-- `STATUS.FOUND <- b`, the other fields staying. -/
def withFound (st : Byte) (b : Bool) : Byte := setBit st 4 b

/-- The code `OK` (R220). -/
def okCode : BitVec 3 := 0

/-- The number of an error kind in `STATUS.CODE` (R220). -/
def ErrorKind.code : ErrorKind → BitVec 3
  | .lineFault => 1
  | .busNotHigh => 2
  | .noPresence => 3
  | .unexpectedAbsence => 4
  | .crcMismatch => 5
  | .illegalOp => 6

/-- The predicate "search complete": `S_FIRST = 0 and S_LD = 0` (R28). -/
def State.searchComplete (s : State) : Bool := !s.sFirst && s.sLd == 0

end Sys2Proof.Machine
end

