-- ==== Sys2Proof/Machine/Ops.lean ====
section
/-! DEFINITION. The named operations over State: register writes, the four line actions, procedures that can raise,
ending an operation and taking an error (R10, R11, R190, R205, R227), hardware reset (R250). -/

namespace Sys2Proof.Machine

/-! ## Register writes -/

/-- `OE <- b` (R21). -/
def State.setOe (s : State) (b : Bool) : State := { s with oe := b }

/-- The line output taken to a value of `OE` and of the real output (R21, R221). -/
def State.setOutput (s : State) (oe low : Bool) : State := { s with oe := oe, outputLow := low }

/-- `ADDR <- a` (R22). -/
def State.setAddr (s : State) (a : Address) : State := { s with addr := a }

/-- `DATA <- v` (R23). -/
def State.setData (s : State) (v : Byte) : State := { s with data := v }

/-- Writes all of `STATUS` (R24). -/
def State.setStatus (s : State) (st : Byte) : State := { s with status := st }

/-- `MemWrite(i, 1, v)`: `BUF[i] <- v` (R10, R50). -/
def State.bufWrite (s : State) (i : Nat) (v : Byte) : State := { s with buf := Memory.write s.buf i v }

/-- Writes the Search State (R27). -/
def State.setSearch (s : State) (a : Address) (ld : BitVec 7) (first : Bool) : State :=
  { s with sAddr := a, sLd := ld, sFirst := first }

/-- `S_ALARM <- b` (R28). -/
def State.setAlarm (s : State) (b : Bool) : State := { s with sAlarm := b }

/-- `S_HALT <- b` (R28). -/
def State.setHalt (s : State) (b : Bool) : State := { s with sHalt := b }

/-- The host inputs still to come. -/
def State.setInputs (s : State) (is : List HostInput) : State := { s with inputs := is }

/-- One more line action in the record (R12). -/
def State.log (s : State) (e : LineEvent) : State := { s with trace := s.trace ++ [e] }

/-! ## Answers of the platform -/

/-- The answer to the `k`-th coming line action that can fail, `k` from 0: listed in State, else free (R11, U4). -/
def State.answer (s : State) (k : Nat) : LineAnswer :=
  match s.answers[k]? with
  | some a => a
  | none => Config.lineAnswer (s.draws + (k - s.answers.length))

/-- The state in which the next `n` answers have been given. -/
def State.consume (s : State) (n : Nat) : State :=
  { s with answers := s.answers.drop n, draws := s.draws + (n - s.answers.length) }

/-! ## Procedures (R10): they end with a result, or raise an error kind -/

/-- How a procedure ends, and the state it leaves. -/
inductive Res (α : Type) where
  | done (a : α) (s : State)
  | raised (e : ErrorKind) (s : State)
  deriving DecidableEq, Repr

/-- The state a procedure leaves, however it ends. -/
def Res.state {α : Type} : Res α → State
  | .done _ s => s
  | .raised _ s => s

/-- A procedure of the spec's pseudocode. -/
abbrev Proc (α : Type) := State → Res α

namespace Proc

variable {α β ι : Type}

/-- Ends with a result. -/
def pure (a : α) : Proc α := fun s => .done a s

/-- `raise E` (R10): ends here with that error kind. -/
def raise (e : ErrorKind) : Proc α := fun s => .raised e s

/-- Runs `p`, then `f` on its result; a raise inside `p` ends both (R10). -/
def andThen (p : Proc α) (f : α → Proc β) : Proc β := fun s =>
  match p s with
  | .done a t => f a t
  | .raised e t => .raised e t

/-- A register update as a step of a procedure. -/
def update (g : State → State) : Proc Unit := fun s => .done () (g s)

/-- `for x in xs: b <- f b x` (R10). -/
def fold (f : β → ι → Proc β) : β → List ι → Proc β
  | b, [] => pure b
  | b, x :: xs => (f b x).andThen fun b' => fold f b' xs

/-- `for x in xs: f x` (R10). -/
def forEach (f : ι → Proc Unit) : List ι → Proc Unit
  | [] => pure ()
  | x :: xs => (f x).andThen fun _ => forEach f xs

/-- On any raise inside `p`, does `g`, and the raise goes on (R172). -/
def onRaise (p : Proc α) (g : State → State) : Proc α := fun s =>
  match p s with
  | .done a t => .done a t
  | .raised e t => .raised e (g t)

end Proc

/-! ## The four line actions (R11) -/

/-- The level `Sample` reads when the rest of the line shows `level`: low when `OE = 1` (R21), and when a failed action
has left the real output driving the line (R221). -/
def State.lineLevel (s : State) (level : Bool) : Bool := level && !s.oe && !s.outputLow

/-- `DriveLow()`: `OE <- 1`; when it fails, `OE` and the real output are left at either value (R21, R221). -/
def driveLow : Proc Unit := fun s =>
  match s.answer 0 with
  | .works _ => .done () (((s.consume 1).setOutput true true).log .driveLow)
  | .fails o => .raised .lineFault (((s.consume 1).setOutput o.oe o.low).log (.failed .driveLow))

/-- `Release()`: `OE <- 0`; when it fails, `OE` and the real output are left at either value (R21, R221). -/
def release : Proc Unit := fun s =>
  match s.answer 0 with
  | .works _ => .done () (((s.consume 1).setOutput false false).log .release)
  | .fails o => .raised .lineFault (((s.consume 1).setOutput o.oe o.low).log (.failed .release))

/-- `Sample()`: the line is low when OWM's output drives it, and otherwise at the level the rest of the line shows (R21);
a failing `Sample` leaves `OE` and the output as they were (R221). -/
def sample : Proc Bool := fun s =>
  match s.answer 0 with
  | .works l => .done (s.lineLevel l) ((s.consume 1).log (.sample (s.lineLevel l)))
  | .fails _ => .raised .lineFault ((s.consume 1).log (.failed .sample))

/-- `Delay(d)`: cannot fail (R11). -/
def delay (d : Duration) : Proc Unit := fun s => .done () (s.log (.delay d))

/-! ## Ending an operation -/

/-- `STATUS.CODE <- c` (R205). -/
def State.setCode (s : State) (c : BitVec 3) : State := s.setStatus (withCode s.status c)

/-- `STATUS.PRESENCE <- b` (R112). -/
def State.setPresence (s : State) (b : Bool) : State := s.setStatus (withPresence s.status b)

/-- `STATUS.FOUND <- b` (R201, R202). -/
def State.setFound (s : State) (b : Bool) : State := s.setStatus (withFound s.status b)

/-- A recovery of the platform (R221): the line output is released, and with it `OE`; no line action of OWM. -/
def State.platformRecovers (s : State) : State := s.setOutput false false

/-- `OE` before the next operation is taken: 0, as R221 says of every `Sample` of every procedure, R227 of the end of
every error but `LINE_FAULT`, and R21, R38 of every end with `OK`. What a failed action left it at (R221) lasts until
then. It is no line action and no attempt to release the line: the real output stays as it was (R221, log 3). -/
def State.settleOutput (s : State) : State := s.setOe false

/-- Taking an error (R227): `STATUS.CODE <- E`, and `OE` is 0 after every kind but `LINE_FAULT`, which leaves it as R221
says; nothing is saved, no mode changes, control goes nowhere. `ILLEGAL_OP` changes no register but `STATUS.CODE` (R73,
R204): `OE` is 0 after it because every operation starts with `OE = 0` (`settleOutput`, log 3). An output that an earlier
fault left driving the line goes on driving it (R221). The one further effect R227 lists, `S_HALT <- 1` in a
`SEARCH_NEXT`, stands where its pass is run (`haltOnRaise`). -/
def takeError (e : ErrorKind) (s : State) : State :=
  match e with
  | .lineFault | .illegalOp => s.setCode e.code
  | .busNotHigh | .noPresence | .unexpectedAbsence | .crcMismatch => (s.setOe false).setCode e.code

/-- A search pass of `SEARCH_NEXT` that raises halts the iterator, and the raise goes on (R172, R175, R227). -/
def haltOnRaise {α : Type} (p : Proc α) : Proc α := p.onRaise fun t => t.setHalt true

/-- What the host finds after an operation (R190, R205): after one that raised nothing, `CODE = OK` and `OE = 0` (R21,
R38); there is no return from an error (R230). From `OE = 0`, with which every operation is taken, it is 0
already (log 3). -/
def endOperation : Res Unit → State
  | .done _ s => (s.setOe false).setCode okCode
  | .raised e s => takeError e s

/-- Runs the body of an operation to its end or its first error (R190). -/
def runOperation (body : Proc Unit) (s : State) : Host.Outcome State Fault Refusal :=
  .next (endOperation (body s))

/-- Runs the body of an operation that concerns `n` bytes of `BUF`; no command word encodes an `n` above 255
(R72). -/
def runCounted (n : Nat) (body : Proc Unit) (s : State) : Host.Outcome State Fault Refusal :=
  if n ≤ 255 then runOperation body s else .fault (.countOutOfRange n)

/-! ## Hardware reset (R250) -/

/-- Hardware reset: the registers of R37; no line action. What the host and the platform do later, the counters of
free values and the record of the line go on (log 14). -/
def State.hardReset (s : State) : State :=
  { State.resetAt (s.resets + 1) with
    inputs := s.inputs, answers := s.answers, draws := s.draws, trace := s.trace }

/-- Whether an entry of the trace took an answer of the platform: every action but `Delay` (R11). -/
def LineEvent.takesAnswer : LineEvent → Bool
  | .delay _ => false
  | _ => true

/-- Hardware reset after `k` line actions of an operation that would have led from `s` to `t`: the operation is
abandoned there (R250), so the line saw only those actions and the platform gave only their answers. -/
def State.cutAfter (s t : State) (k : Nat) : State :=
  let done := (t.trace.drop s.trace.length).take k
  let s' := s.consume (done.countP LineEvent.takesAnswer)
  { s' with trace := s.trace ++ done }.hardReset

end Sys2Proof.Machine
end

