-- ==== Sys2Proof/Machine/LinePrimitives.lean ====
section
/-! DEFINITION. The Line Timing Primitives (R110 to R115) and the operations `RESET`, `WRITE_BIT`, `READ_BIT`
(R191 to R193). -/

namespace Sys2Proof.Machine

/-- `WaitHigh` with at most `k` samples (R111): the first high sample goes on, `k` low ones are `BUS_NOT_HIGH`. -/
def waitHighUpTo : Nat → Proc Unit
  | 0 => Proc.raise .busNotHigh
  | k + 1 =>
    sample.andThen fun level =>
    if level then Proc.pure ()
    else (delay .whp).andThen fun _ => waitHighUpTo k

/-- `WaitHigh` (R111). -/
def waitHigh : Proc Unit := waitHighUpTo Config.nWh

/-- The drive and presence steps of the reset frame, after `WaitHigh` (R112). -/
def resetPulse : Proc Bool :=
  driveLow.andThen fun _ =>
  (delay .rstl).andThen fun _ =>
  release.andThen fun _ =>
  (delay .pds).andThen fun _ =>
  sample.andThen fun level =>
  (delay .rstr).andThen fun _ =>
  (Proc.update fun s => s.setPresence (!level)).andThen fun _ =>
  Proc.pure (!level)

/-- `Reset`, the reset/presence detector (R112); the result is `presence`. -/
def resetSequence : Proc Bool := waitHigh.andThen fun _ => resetPulse

/-- `WriteBit`, the bit-write sequencer (R113). -/
def writeBit (b : Bool) : Proc Unit :=
  driveLow.andThen fun _ =>
  (delay (if b then .w1l else .w0l)).andThen fun _ =>
  release.andThen fun _ =>
  delay (if b then .w1r else .w0r)

/-- `ReadBit`, the bit-read sequencer (R114): the bit is the level. -/
def readBit : Proc Bool :=
  driveLow.andThen fun _ =>
  (delay .rdl).andThen fun _ =>
  release.andThen fun _ =>
  (delay .rds).andThen fun _ =>
  sample.andThen fun level =>
  (delay .rdr).andThen fun _ =>
  Proc.pure level

/-- `RESET` (R191): absence of a device is no error here. -/
def execReset (s : State) : Host.Outcome State Fault Refusal :=
  runOperation (resetSequence.andThen fun _ => Proc.pure ()) s

/-- `WRITE_BIT b` (R192). -/
def execWriteBit (b : Bool) (s : State) : Host.Outcome State Fault Refusal := runOperation (writeBit b) s

/-- `READ_BIT` (R193): `DATA <- zext_8(b)`, only on success. -/
def execReadBit (s : State) : Host.Outcome State Fault Refusal :=
  runOperation (readBit.andThen fun b => Proc.update fun t => t.setData (zextBit b)) s

end Sys2Proof.Machine
end

