-- ==== Sys2Proof/Machine/ByteTransfer.lean ====
section
/-! DEFINITION. The Byte Transfer Layer (R130 to R135) and the operations `WRITE_BYTE`, `READ_BYTE`, `WRITE_BYTES`,
`READ_BYTES` (R194 to R197, R207). -/

namespace Sys2Proof.Machine

/-- `WriteByte(v)` (R131): bit 0 first. -/
def writeByte (v : Byte) : Proc Unit := Proc.forEach (fun i => writeBit (v.getLsbD i)) (List.range 8)

/-- `ReadByte()` (R132): bit `i` of the result is the `i`-th sampled bit. -/
def readByte : Proc Byte :=
  Proc.fold (fun v i => readBit.andThen fun b => Proc.pure (setBit v i b)) (0x00 : Byte) (List.range 8)

/-- `MemRead(k, 1)` just before the byte is sent (R133, R207). -/
def writeBufByte (k : Nat) : Proc Unit := fun s => writeByte (s.bufByte k) s

/-- `WriteBlock(n)` (R133). -/
def writeBlock (n : Nat) : Proc Unit := Proc.forEach writeBufByte (List.range n)

/-- One byte of a block read, stored as soon as it is complete (R134, R207). -/
def readBufByte (k : Nat) : Proc Unit := readByte.andThen fun v => Proc.update fun t => t.bufWrite k v

/-- `ReadBlock(n)` (R134). -/
def readBlock (n : Nat) : Proc Unit := Proc.forEach readBufByte (List.range n)

/-- `WRITE_BYTE v` (R194). -/
def execWriteByte (v : Byte) (s : State) : Host.Outcome State Fault Refusal := runOperation (writeByte v) s

/-- `READ_BYTE` (R195): `DATA` only on success. -/
def execReadByte (s : State) : Host.Outcome State Fault Refusal :=
  runOperation (readByte.andThen fun v => Proc.update fun t => t.setData v) s

/-- `WRITE_BYTES n` (R196). -/
def execWriteBytes (n : Nat) (s : State) : Host.Outcome State Fault Refusal := runCounted n (writeBlock n) s

/-- `READ_BYTES n` (R197). -/
def execReadBytes (n : Nat) (s : State) : Host.Outcome State Fault Refusal := runCounted n (readBlock n) s

end Sys2Proof.Machine
end

