-- ==== Sys2Proof/Machine/Checksum.lean ====
section
/-! DEFINITION. The Checksum Engine (R100 to R107) and the operation `CRC8` (R203). -/

namespace Sys2Proof.Machine

/-- One-bit update of the accumulator (R101). -/
def crc8Bit (c : Byte) (b : Bool) : Byte :=
  let shifted := c >>> 1
  if c.getLsbD 0 ^^ b then shifted ^^^ 0x8C else shifted

/-- The update over the eight bits of a byte, bit 0 first (R102). -/
def crc8Byte (c : Byte) (v : Byte) : Byte :=
  (List.range 8).foldl (fun c i => crc8Bit c (v.getLsbD i)) c

/-- The checksum of a sequence of bytes (R102). -/
def crc8 (s : List Byte) : Byte := s.foldl crc8Byte 0x00

/-- Bytes `0..m-1` of an address, in order. -/
def addrBytes (a : Address) (m : Nat) : List Byte := (List.range m).map (addrByte a)

/-- Address validity: byte 7 is the checksum of bytes 0 to 6 (R36, R103). -/
def addressValid (a : Address) : Bool := addrByte a 7 == crc8 (addrBytes a 7)

/-- Body of `CRC8 n` (R203): no line action, `BUF` unchanged. -/
def crc8Body (n : Nat) : Proc Unit := Proc.update fun s => s.setData (crc8 (s.bufBytes n))

/-- `CRC8 n` (R203). -/
def execCrc8 (n : Nat) (s : State) : Host.Outcome State Fault Refusal := runCounted n (crc8Body n) s

end Sys2Proof.Machine
end

