-- ==== Sys2Proof/Machine/RomCommands.lean ====
section
/-! DEFINITION. The ROM command sequencer (R140 to R147), the host operations `SELECT`, `SKIP_SELECT`, `READ_ROM`
(R198 to R200), and the frames of Read ROM, Match ROM and Skip ROM at the sequencer's own port (log 10). -/

namespace Sys2Proof.Machine

/-- `RomStart(code)` (R141): reset frame, presence, command byte. -/
def romStart (code : Byte) : Proc Unit :=
  resetSequence.andThen fun p =>
  if p then writeByte code else Proc.raise .noPresence

/-- The 64 read slots of Read ROM, byte 0 first (R80, R142). Every bit of the start value is overwritten (log 13). -/
def readAddress : Proc Address :=
  Proc.fold (fun a k => readByte.andThen fun v => Proc.pure (setAddrByte a k v)) (0 : Address) (List.range 8)

/-- The checksum test on an assembled address (R103, R142, R169). -/
def checkAddress (a : Address) : Proc Unit :=
  if addressValid a then Proc.pure () else Proc.raise .crcMismatch

/-- `ReadRom()` (R142). -/
def readRomFrame : Proc Address :=
  (romStart Config.romCodes.readRom).andThen fun _ =>
  readAddress.andThen fun a =>
  (checkAddress a).andThen fun _ => Proc.pure a

/-- The 64 write slots of Match ROM, byte 0 first (R143). -/
def writeAddress (a : Address) : Proc Unit :=
  Proc.forEach (fun k => writeByte (addrByte a k)) (List.range 8)

/-- `MatchRom(a)` (R143): the checksum of `a` is not tested. -/
def matchRomFrame (a : Address) : Proc Unit :=
  (romStart Config.romCodes.matchRom).andThen fun _ => writeAddress a

/-- `SkipRom()` (R144). -/
def skipRomFrame : Proc Unit := romStart Config.romCodes.skipRom

/-- `SearchCmd(alarm)` (R145, R146). -/
def searchCmd (alarm : Bool) : Proc Unit :=
  romStart (if alarm then Config.romCodes.alarmSearch else Config.romCodes.searchRom)

/-- Match ROM with the address in `ADDR`, read once at the start (R198). -/
def selectBody : Proc Unit := fun s => matchRomFrame s.addr s

/-- Read ROM, its result stored in `ADDR` (R200). -/
def readRomBody : Proc Unit := readRomFrame.andThen fun a => Proc.update fun t => t.setAddr a

/-- `SELECT` (R198). -/
def execSelect (s : State) : Host.Outcome State Fault Refusal := runOperation selectBody s

/-- `SKIP_SELECT` (R199). -/
def execSkipSelect (s : State) : Host.Outcome State Fault Refusal := runOperation skipRomFrame s

/-- `READ_ROM` (R200). -/
def execReadRom (s : State) : Host.Outcome State Fault Refusal := runOperation readRomBody s

/-- Read ROM at the sequencer's own port (R142): the address goes where its one caller stores it (log 10). -/
def execRomRead (s : State) : Host.Outcome State Fault Refusal := runOperation readRomBody s

/-- Match ROM at the sequencer's own port, with the address in `ADDR` (R143, log 10). -/
def execRomMatch (s : State) : Host.Outcome State Fault Refusal := runOperation selectBody s

/-- Skip ROM at the sequencer's own port (R144, log 10). -/
def execRomSkip (s : State) : Host.Outcome State Fault Refusal := runOperation skipRomFrame s

end Sys2Proof.Machine
end

