-- ==== Sys2Proof/Machine/DeviceSearch.lean ====
section
/-! DEFINITION. The Device Search Algorithm and its iterator (R160 to R178), the host operations `SEARCH_INIT` and
`SEARCH_NEXT` (R201, R202), and the frames of Search ROM and Alarm Search at the sequencer's own port (log 11). -/

namespace Sys2Proof.Machine

/-- The transient variables of a pass: the candidate address and `last_zero` (R31, R171). -/
structure Candidate where
  a : Address
  lastZero : Nat
  deriving DecidableEq, Repr

/-- Direction at a discrepancy in round `n` (R165). -/
def discrepancyDir (ld : Nat) (prev : Address) (n : Nat) : Bool :=
  if n < ld then prev.getLsbD (n - 1) else n == ld

/-- Direction of round `n` from its two sampled bits (R164, R165), `(1,1)` apart. -/
def roundDir (ld : Nat) (prev : Address) (n : Nat) (idBit cmpBit : Bool) : Bool :=
  if idBit != cmpBit then idBit else discrepancyDir ld prev n

/-- `last_zero` after round `n`: a discrepancy resolved to 0 is remembered (R166). -/
def roundLastZero (lastZero n : Nat) (idBit cmpBit dir : Bool) : Nat :=
  if !idBit && !cmpBit && !dir then n else lastZero

/-- One round: two reads, the choice, one write (R163 to R167). -/
def searchRound (ld : Nat) (prev : Address) (c : Candidate) (n : Nat) : Proc Candidate :=
  readBit.andThen fun idBit =>
  readBit.andThen fun cmpBit =>
  if idBit && cmpBit then Proc.raise .unexpectedAbsence
  else
    let dir := roundDir ld prev n idBit cmpBit
    (writeBit dir).andThen fun _ =>
    Proc.pure { a := setBit c.a (n - 1) dir, lastZero := roundLastZero c.lastZero n idBit cmpBit dir }

/-- The 64 rounds, round 1 first (R161, R168). Every bit of the start value is overwritten (R171, log 13). -/
def searchRounds (ld : Nat) (prev : Address) : Proc Candidate :=
  Proc.fold (searchRound ld prev) { a := 0, lastZero := 0 } (List.range' 1 64)

/-- `SearchPass(ld, prev, alarm)` (R171). -/
def searchPass (ld : Nat) (prev : Address) (alarm : Bool) : Proc Candidate :=
  (searchCmd alarm).andThen fun _ =>
  (searchRounds ld prev).andThen fun c =>
  (checkAddress c.a).andThen fun _ => Proc.pure c

/-- The position a pass steers by: 0 while `S_FIRST = 1`, else `S_LD` (R162). -/
def State.steerPosition (s : State) : Nat := if s.sFirst then 0 else s.sLd.toNat

/-- Commit of a successful pass (R170). -/
def State.commitPass (s : State) (c : Candidate) : State :=
  s.setSearch c.a (BitVec.ofNat 7 c.lastZero) false

/-- One pass of the enumeration (`SEARCH_NEXT`), steered by the Search State, committed on success, halting it on any error
(R162, R170, R172, R175). -/
def runPass (alarm : Bool) : Proc Address := fun s =>
  ((haltOnRaise (searchPass s.steerPosition s.sAddr alarm)).andThen fun c =>
    (Proc.update fun t => t.commitPass c).andThen fun _ => Proc.pure c.a) s

/-- `SearchNext()` (R172): no line action when halted or complete. -/
def searchNext : Proc (Option Address) := fun s =>
  if s.sHalt || s.searchComplete then .done none s
  else ((runPass s.sAlarm).andThen fun a => Proc.pure (some a)) s

/-- A yielded address goes to `ADDR`, with `FOUND <- 1` (R202). -/
def yieldAddress (a : Address) : Proc Unit := Proc.update fun t => (t.setAddr a).setFound true

/-- Body of `SEARCH_NEXT` (R202). -/
def searchNextBody : Proc Unit :=
  (Proc.update fun s => s.setFound false).andThen fun _ =>
  searchNext.andThen fun found =>
  match found with
  | some a => yieldAddress a
  | none => Proc.pure ()

/-- `SearchInit(alarm)` (R173). -/
def State.searchInit (s : State) (alarm : Bool) : State :=
  ((s.setSearch 0 0 true).setAlarm alarm).setHalt false

/-- Body of `SEARCH_INIT` (R201). -/
def searchInitBody (alarm : Bool) : Proc Unit := Proc.update fun s => (s.searchInit alarm).setFound false

/-- A search frame requested at the sequencer's own port: one `SearchPass` with that command, steered by the Search State
(R162) and writing nothing of it: "that is rule R172's job" (R171); no result (R145, log 11). -/
def searchFrameBody (alarm : Bool) : Proc Unit := fun s =>
  ((searchPass s.steerPosition s.sAddr alarm).andThen fun _ => Proc.pure ()) s

/-- `SEARCH_INIT alarm` (R201). -/
def execSearchInit (alarm : Bool) (s : State) : Host.Outcome State Fault Refusal :=
  runOperation (searchInitBody alarm) s

/-- `SEARCH_NEXT` (R202). -/
def execSearchNext (s : State) : Host.Outcome State Fault Refusal := runOperation searchNextBody s

/-- Search ROM at the sequencer's own port (R145, log 11). -/
def execRomSearch (s : State) : Host.Outcome State Fault Refusal := runOperation (searchFrameBody false) s

/-- Alarm Search at the sequencer's own port (R146, log 11). -/
def execRomAlarmSearch (s : State) : Host.Outcome State Fault Refusal := runOperation (searchFrameBody true) s

end Sys2Proof.Machine
end

