-- ==== Sys2Proof/Machine/Reserved.lean ====
section
/-! DEFINITION. The reserved operation codes (R73, R204, R226). -/

namespace Sys2Proof.Machine

/-- Operation code 0x0 (R204): `ILLEGAL_OP`, no line action. -/
def execReserved0 (s : State) : Host.Outcome State Fault Refusal := runOperation (Proc.raise .illegalOp) s

/-- Operation code 0xE (R204): `ILLEGAL_OP`, no line action. -/
def execReservedE (s : State) : Host.Outcome State Fault Refusal := runOperation (Proc.raise .illegalOp) s

/-- Operation code 0xF (R204): `ILLEGAL_OP`, no line action. -/
def execReservedF (s : State) : Host.Outcome State Fault Refusal := runOperation (Proc.raise .illegalOp) s

end Sys2Proof.Machine
end

