-- ==== Sys2Proof/Machine/Dispatch.lean ====
section
/-! DEFINITION. The bus controller's decoder of operations: one arm per row of spec/opcode_table.json (R190). -/

namespace Sys2Proof.Machine

def exec (i : Instr) (s : State) : Host.Outcome State Fault Refusal :=
  match i with
  | .reset => Sys2Proof.Machine.execReset s
  | .writeBit b => Sys2Proof.Machine.execWriteBit b s
  | .readBit => Sys2Proof.Machine.execReadBit s
  | .writeByte v => Sys2Proof.Machine.execWriteByte v s
  | .readByte => Sys2Proof.Machine.execReadByte s
  | .writeBytes n => Sys2Proof.Machine.execWriteBytes n s
  | .readBytes n => Sys2Proof.Machine.execReadBytes n s
  | .select => Sys2Proof.Machine.execSelect s
  | .skipSelect => Sys2Proof.Machine.execSkipSelect s
  | .readRom => Sys2Proof.Machine.execReadRom s
  | .searchInit alarm => Sys2Proof.Machine.execSearchInit alarm s
  | .searchNext => Sys2Proof.Machine.execSearchNext s
  | .crc8 n => Sys2Proof.Machine.execCrc8 n s
  | .reserved0 => Sys2Proof.Machine.execReserved0 s
  | .reservedE => Sys2Proof.Machine.execReservedE s
  | .reservedF => Sys2Proof.Machine.execReservedF s
  | .romRead => Sys2Proof.Machine.execRomRead s
  | .romMatch => Sys2Proof.Machine.execRomMatch s
  | .romSkip => Sys2Proof.Machine.execRomSkip s
  | .romSearch => Sys2Proof.Machine.execRomSearch s
  | .romAlarmSearch => Sys2Proof.Machine.execRomAlarmSearch s

end Sys2Proof.Machine
end

