-- ==== Sys2Proof/Machine/HostPort.lean ====
section
/-! DEFINITION. What OWM does with one input of the host: taking a command word, a register write, a hardware reset
(R20, R22, R25, R26, R190, R250). -/

namespace Sys2Proof.Machine

/-- A command word is decoded and its operation run to the end (R190). -/
def acceptCommand (w : CommandWord) (s : State) : Host.Outcome State Fault Refusal :=
  match decode w with
  | .ok i => exec i s
  | .error (.notARomCommand code) => .refused (.notARomCommand code)

/-- A command whose operation a hardware reset abandons after `k` line actions (R250). -/
def acceptCut (w : CommandWord) (k : Nat) (s : State) : Host.Outcome State Fault Refusal :=
  match acceptCommand w s with
  | .next t => .next (s.cutAfter t k)
  | .fault r => .fault r
  | .refused r => .refused r

/-- One input, `s` having it taken off already. -/
def acceptInput (x : HostInput) (s : State) : Host.Outcome State Fault Refusal :=
  match x with
  | .command w => acceptCommand w s
  | .writeAddr v => .next (s.setAddr v)
  | .writeBuf i v => .next (s.bufWrite i.toNat v)
  | .hardReset => .next s.hardReset
  | .commandCut w k => acceptCut w k s
  | .platformRecovers => .next s.platformRecovers

/-- Whether an input starts an operation. -/
def HostInput.startsOperation : HostInput → Bool
  | .command _ => true
  | .commandCut _ _ => true
  | .writeAddr _ => false
  | .writeBuf _ _ => false
  | .hardReset => false
  | .platformRecovers => false

/-- The next input; with none waiting OWM is idle and nothing changes (R231, R236, R250). An operation is taken with
`OE = 0` only: where a fault left it at 1, the step before settles it, the command still waiting (R221, R227, log 3). -/
def takeInput (s : State) : Host.Outcome State Fault Refusal :=
  match s.inputs with
  | [] => .next s
  | x :: rest => if x.startsOperation && s.oe then .next s.settleOutput else acceptInput x (s.setInputs rest)

/-- `s` with the opcode-table word `w` of `nbits` bits presented as the next input, `OE` settled so that it is taken at
once (log 12). -/
def presentWord (s : State) (nbits w : Nat) : State :=
  match tableWord nbits w with
  | some c => s.settleOutput.setInputs (.command c :: s.inputs)
  | none => s

end Sys2Proof.Machine
end

