-- ==== Sys2Proof/Machine/Step.lean ====
section
/-! DEFINITION. One step: OWM takes the host's next input and completes it (R58, R59, R190). OWM has no program
counter and no stored program (R30, R61), so what is fetched is the next command on `CMD`. -/

namespace Sys2Proof.Machine

/-- One step of OWM: the next input, or `OE` settled before the next operation (`takeInput`). -/
def step (s : State) : Host.Outcome State Fault Refusal := takeInput s

/-- `s` with the word `w` of an opcode-table row of `nbits` bits as the next command. -/
def State.withFetchWord (s : State) (nbits w : Nat) : State := presentWord s nbits w

end Sys2Proof.Machine
end

