-- ==== Sys2Proof/Machine/SimulatedLine.lean ====
section
/-! DEFINITION. The simulated line of spec/95 section 0: a population of ideal slaves, as a checker of line traces.
Not part of OWM and not read by its step (R4(e), R35): statements use it to say that the answers a run received are
those of that population. PRESUMED (general knowledge G5 of the spec, log 17). -/

namespace Sys2Proof.Machine

/-- A slave: its address, and whether it is in an alarmed state. -/
structure Device where
  addr : Address
  alarmed : Bool
  deriving DecidableEq, Repr

/-- What the slaves expect in the next slot. Rounds are numbered 1..64, address bits 0..63. -/
inductive LinePhase where
  /-- After a reset: the command bits received so far, bit 0 first. -/
  | command (bits : List Bool)
  /-- Round `n` of a search: the slaves answer their bit. -/
  | searchId (n : Nat)
  /-- Round `n` of a search: the slaves answer the complement. -/
  | searchCmp (n : Nat)
  /-- Round `n` of a search: the slaves read the direction. -/
  | searchDir (n : Nat)
  /-- Read ROM: the slaves answer address bit `k`. -/
  | sendAddress (k : Nat)
  /-- Match ROM: the slaves compare address bit `k`. -/
  | compareAddress (k : Nat)
  /-- Any other slot: device-specific traffic. -/
  | traffic
  deriving DecidableEq, Repr

/-- The sample a slot in progress is waiting for. -/
inductive PendingSample where
  | none
  | presence
  | readBit
  deriving DecidableEq, Repr

/-- The simulated line between two actions. -/
structure SimLine where
  /-- All devices attached. -/
  population : List Device
  /-- The devices still participating. -/
  active : List Device
  phase : LinePhase
  pending : PendingSample
  deriving DecidableEq, Repr

namespace SimLine

/-- The line of a population, before any reset. -/
def start (population : List Device) : SimLine :=
  { population := population, active := [], phase := .traffic, pending := .none }

/-- The wired-AND of what the active devices answer, 1 if none is active. -/
def wiredAnd (l : SimLine) (bit : Device → Bool) : Bool := l.active.all bit

/-- The slaves act on a complete command byte. -/
def runCommand (l : SimLine) (bits : List Bool) : SimLine :=
  if bits = byteBits Config.romCodes.searchRom then { l with phase := .searchId 1 }
  else if bits = byteBits Config.romCodes.alarmSearch then
    { l with phase := .searchId 1, active := l.active.filter Device.alarmed }
  else if bits = byteBits Config.romCodes.readRom then { l with phase := .sendAddress 0 }
  else if bits = byteBits Config.romCodes.matchRom then { l with phase := .compareAddress 0 }
  else { l with phase := .traffic }

/-- The devices whose address bit `k` is `b` stay; the others drop out until the next reset. -/
def keepBit (l : SimLine) (k : Nat) (b : Bool) : SimLine :=
  { l with active := l.active.filter fun d => d.addr.getLsbD k == b }

/-- The slaves receive a written bit. -/
def receiveBit (l : SimLine) (b : Bool) : SimLine :=
  match l.phase with
  | .command bits =>
    if bits.length < 7 then { l with phase := .command (bits ++ [b]) } else l.runCommand (bits ++ [b])
  | .searchDir n =>
    { l.keepBit (n - 1) b with phase := if n < 64 then .searchId (n + 1) else .traffic }
  | .compareAddress k =>
    { l.keepBit k b with phase := if k < 63 then .compareAddress (k + 1) else .traffic }
  | _ => l

/-- The slaves answer a read slot: none when `level` is not what they answer. -/
def answerBit (l : SimLine) (level : Bool) : Option SimLine :=
  match l.phase with
  | .searchId n =>
    if level = l.wiredAnd (fun d => d.addr.getLsbD (n - 1)) then some { l with phase := .searchCmp n } else none
  | .searchCmp n =>
    if level = l.wiredAnd (fun d => !d.addr.getLsbD (n - 1)) then some { l with phase := .searchDir n } else none
  | .sendAddress k =>
    if level = l.wiredAnd (fun d => d.addr.getLsbD k) then
      some { l with phase := if k < 63 then .sendAddress (k + 1) else .traffic }
    else none
  | _ => if l.active.isEmpty && !level then none else some l

/-- One action of OWM on the simulated line: none when its answer is not the simulated line's. A slot is told by the
low time that opens it; the line idles high, so a sample outside a slot is high; no action fails. -/
def act (l : SimLine) : LineEvent → Option SimLine
  | .driveLow => some l
  | .release => some l
  | .delay .rstl =>
    some { l with active := l.population, phase := .command [], pending := .presence }
  | .delay .w1l => some (l.receiveBit true)
  | .delay .w0l => some (l.receiveBit false)
  | .delay .rdl => some { l with pending := .readBit }
  | .delay .pds | .delay .rstr | .delay .w1r | .delay .w0r | .delay .rds | .delay .rdr | .delay .whp => some l
  | .sample level =>
    match l.pending with
    | .none => if level then some l else none
    | .presence => if level = l.population.isEmpty then some { l with pending := .none } else none
    | .readBit => ({ l with pending := .none }).answerBit level
  | .failed _ => none

/-- A list of actions on the simulated line. -/
def run : SimLine → List LineEvent → Option SimLine
  | l, [] => some l
  | l, e :: es =>
    match l.act e with
    | some l' => run l' es
    | none => none

end SimLine

/-- The order in which a search meets addresses: by the bit string `a[0] a[1] ... a[63]` (R176). -/
def lineBefore (a b : Address) : Prop :=
  ∃ k < 64, (∀ j < k, a.getLsbD j = b.getLsbD j) ∧ a.getLsbD k = false ∧ b.getLsbD k = true

end Sys2Proof.Machine
end

