-- ==== Sys2Proof/Machine/Timing.lean ====
section
/-! DEFINITION. Durations of line activity for a given Timing Profile (R115, R262): the actions other than `Delay`
cost no time. No step of the machine reads this. -/

namespace Sys2Proof.Machine

/-- Microseconds of one action under a profile: the argument of a `Delay`, and 0 for the others (R115). -/
def eventMicros (p : TimingProfile) : LineEvent → Nat
  | .delay d => p.micros d
  | _ => 0

/-- Microseconds of a list of actions under a profile (R115, R262). -/
def traceMicros (p : TimingProfile) (es : List LineEvent) : Nat := (es.map (eventMicros p)).sum

end Sys2Proof.Machine
end

