-- ==== Sys2Proof/Safety.lean ====
section
/-! DEFINITION. The vocabulary of claims: the invariant of OWM, what the platform answers next, the line shapes of
R75 as lists of actions, the state after an error-free stretch of line activity, and enumerations. -/

namespace Sys2Proof

/-- The action works. -/
def LineAnswer.ok : LineAnswer → Bool
  | .works _ => true
  | .fails _ => false

/-- The level an answer gives to a `Sample` on a released line. -/
def LineAnswer.level : LineAnswer → Bool
  | .works l => l
  | .fails _ => false

end Sys2Proof

namespace Sys2Proof.Machine

/-! ## Invariant -/

/-- A `DriveLow` or `Release` that failed: the only actions after which the line may stay driven (R221). -/
def LineEvent.isOutputFault : LineEvent → Bool
  | .failed .driveLow => true
  | .failed .release => true
  | _ => false

/-- What holds in every state between operations (R24, R27, R36, R38, R50). -/
structure State.Inv (s : State) : Prop where
  /-- `0 <= S_LD <= 64` (R38). -/
  ld_le : s.sLd.toNat ≤ 64
  /-- `STATUS[7:5] = 0` (R38). -/
  status_reserved : statusReserved s.status = 0
  /-- `STATUS.CODE != 7` (R38). -/
  status_code : statusCode s.status ≠ 7
  /-- `BUF` is in canonical form. -/
  buf_wf : s.buf.wf
  /-- `FOUND = 1` only when the last discovered address is valid and no longer the first is awaited (R38). -/
  found_valid : statusFound s.status = true → addressValid s.sAddr = true ∧ s.sFirst = false
  /-- An enumeration in progress holds a valid last address (R36, R169, R170). -/
  enum_valid : s.sHalt = false → s.sFirst = false → addressValid s.sAddr = true
  /-- The 0-branch was taken where the enumeration steers next (R166). -/
  steer_zero : s.sHalt = false → s.sFirst = false → 0 < s.sLd.toNat →
    s.sAddr.getLsbD (s.sLd.toNat - 1) = false
  /-- The line is left driven only after a `DriveLow` or a `Release` failed (R21, R221). -/
  driven_after_fault : s.outputLow = true → ∃ e ∈ s.trace, e.isOutputFault = true
  /-- `OE` is left at 1 only after a `DriveLow` or a `Release` failed (R21, R221). -/
  oe_set_after_fault : s.oe = true → ∃ e ∈ s.trace, e.isOutputFault = true
  /-- `OE = 0` unless `STATUS.CODE` is `LINE_FAULT` (R38 for `OK`, R227 for the other kinds). -/
  oe_after_fault : statusCode s.status ≠ ErrorKind.lineFault.code → s.oe = false

/-! ## What the platform answers next -/

/-- The next `n` line actions that can fail all work. -/
abbrev State.Works (s : State) (n : Nat) : Prop := ∀ k < n, (s.answer k).ok = true

/-- The line output released: `OE = 0`, and the line not really driven (R21, R221). -/
abbrev State.Released (s : State) : Prop := s.oe = false ∧ s.outputLow = false

/-- The level of the `k`-th coming answer. -/
def State.level (s : State) (k : Nat) : Bool := (s.answer k).level

/-! ## Line shapes (R75) -/

/-- `k` low samples of `WaitHigh`, with their delays (R111). -/
def lowSamples : Nat → List LineEvent
  | 0 => []
  | k + 1 => .sample false :: .delay .whp :: lowSamples k

/-- The drive and presence steps of the reset frame, the presence sample being `level` (R112). -/
def resetPulseEvents (level : Bool) : List LineEvent :=
  [.driveLow, .delay .rstl, .release, .delay .pds, .sample level, .delay .rstr]

/-- The reset frame, with `lows` low samples before the line is seen high (R75, R112). -/
def resetFrame (lows : Nat) (level : Bool) : List LineEvent :=
  lowSamples lows ++ .sample true :: resetPulseEvents level

/-- A write slot for bit `b` (R75, R113). -/
def writeSlot (b : Bool) : List LineEvent :=
  if b then [.driveLow, .delay .w1l, .release, .delay .w1r]
  else [.driveLow, .delay .w0l, .release, .delay .w0r]

/-- A read slot in which `level` was sampled (R75, R114). -/
def readSlot (level : Bool) : List LineEvent :=
  [.driveLow, .delay .rdl, .release, .delay .rds, .sample level, .delay .rdr]

/-- The write slots of a byte frame, bit 0 first (R76). -/
def writeByteEvents (v : Byte) : List LineEvent := (List.range 8).flatMap fun i => writeSlot (v.getLsbD i)

/-- The read slots of a byte frame, `bit i` being sampled `i`-th (R76). -/
def readByteEvents (bit : Nat → Bool) : List LineEvent := (List.range 8).flatMap fun i => readSlot (bit i)

/-- A block of written byte frames, lowest index first (R76). -/
def writeBytesEvents (vs : List Byte) : List LineEvent := vs.flatMap writeByteEvents

/-- The three slots of a search round (R79). -/
def roundEvents (idBit cmpBit dir : Bool) : List LineEvent := readSlot idBit ++ readSlot cmpBit ++ writeSlot dir

/-- The shapes the line carries (R75), and the stuck-low check that ends in `BUS_NOT_HIGH` (R111). -/
inductive LineShape where
  | resetFrame (lows : Nat) (level : Bool)
  | stuckLow
  | writeSlot (b : Bool)
  | readSlot (level : Bool)
  deriving DecidableEq, Repr

/-- A reset frame samples the line 1 to `N_WH` times before it drives it (R75, R111): low at most `N_WH - 1` times. -/
abbrev LineShape.Legal : LineShape → Prop
  | .resetFrame lows _ => lows < Config.nWh
  | .stuckLow => True
  | .writeSlot _ => True
  | .readSlot _ => True

/-- The actions of a shape. -/
def LineShape.events : LineShape → List LineEvent
  | .resetFrame lows level => Machine.resetFrame lows level
  | .stuckLow => lowSamples Config.nWh
  | .writeSlot b => Machine.writeSlot b
  | .readSlot level => Machine.readSlot level

/-- The entry an action would have made in the trace had it worked. -/
def LineAction.worked (level : Bool) : LineAction → LineEvent
  | .driveLow => .driveLow
  | .release => .release
  | .sample => .sample level

/-- Whether an entry is a failed action. -/
def LineEvent.isFailed : LineEvent → Bool
  | .failed _ => true
  | _ => false

/-! ## After an error-free stretch of line activity -/

/-- `s` after `n` answers were taken and `es` recorded, the line released. -/
def State.after (s : State) (n : Nat) (es : List LineEvent) : State :=
  { s.consume n with oe := false, outputLow := false, trace := s.trace ++ es }

/-- `PRESENCE` as the presence sample `level` sets it (R112). -/
def State.sawPresence (s : State) (level : Bool) : State := s.setPresence (!level)

/-- The line reads low at the first `j` samples of `WaitHigh` and high at the next, presence is sampled, and all of
that, the 16 actions of a command byte and `n` more work (R78, R111, R141). -/
abbrev State.RomReady (s : State) (j n : Nat) : Prop :=
  s.Released ∧ j < Config.nWh ∧ s.Works (j + 20 + n) ∧ (∀ k < j, s.level k = false) ∧
    s.level j = true ∧ s.level (j + 3) = false

/-- The events of `RomStart(code)` with `j` low samples first, and presence (R141). -/
def romStartEvents (j : Nat) (code : Byte) : List LineEvent := resetFrame j false ++ writeByteEvents code

/-- The byte whose bit `i` is `bit i` (R132). -/
def byteOfBits (bit : Nat → Bool) : Byte := (List.range 8).foldl (fun v i => setBit v i (bit i)) 0

/-- The address whose bit `8k+i` is `bit (8k+i)` (R80). -/
def addressOfBits (bit : Nat → Bool) : Address :=
  (List.range 8).foldl (fun a k => setAddrByte a k (byteOfBits fun i => bit (8 * k + i))) 0

/-- The bit sampled in the `i`-th read slot from here, when every action works: a read slot takes three answers. -/
def State.readBitAt (s : State) (i : Nat) : Bool := s.level (3 * i + 2)

/-- Byte `k` of a block read from here: read slots `8k..8k+7` (R134). -/
def State.blockByte (s : State) (k : Nat) : Byte := byteOfBits fun i => s.readBitAt (8 * k + i)

/-- `BUF[0..n-1] <- vs 0 .. vs (n-1)`, in order (R134). -/
def State.fillBuf (s : State) (vs : Nat → Byte) : Nat → State
  | 0 => s
  | n + 1 => (s.fillBuf vs n).bufWrite n (vs n)

/-- The first bit sampled in round `n` of a search pass with `j` low samples first: each round takes eight answers,
after the `j + 4` of the reset frame and the 16 of the command byte (R79, R163). -/
def State.idBit (s : State) (j n : Nat) : Bool := s.level (j + 20 + 8 * (n - 1) + 2)

/-- The second bit sampled in round `n` (R163). -/
def State.cmpBit (s : State) (j n : Nat) : Bool := s.level (j + 20 + 8 * (n - 1) + 5)

/-- The branch round `n` takes, `(1,1)` apart (R164, R165), steered by the Search State of `s` (R162). -/
def State.branch (s : State) (j n : Nat) : Bool :=
  let ld := if s.sFirst then 0 else s.sLd.toNat
  if s.idBit j n ≠ s.cmpBit j n then s.idBit j n
  else if n < ld then s.sAddr.getLsbD (n - 1)
  else decide (n = ld)

/-- Round `n` meets a discrepancy and resolves it to 0 (R166). -/
abbrev State.zeroBranchAt (s : State) (j n : Nat) : Prop :=
  s.idBit j n = false ∧ s.cmpBit j n = false ∧ s.branch j n = false

/-- The slots of rounds `1..k` of a pass (R79). -/
def State.roundsEvents (s : State) (j k : Nat) : List LineEvent :=
  (List.range k).flatMap fun i => roundEvents (s.idBit j (i + 1)) (s.cmpBit j (i + 1)) (s.branch j (i + 1))

/-- The command byte of a search (R145, R146). -/
def searchCode (alarm : Bool) : Byte := if alarm then 0xEC else 0xF0

/-- `SEARCH_NEXT` runs one search pass from `s`, with Alarm Search when `alarm`: neither halted nor complete (R172). -/
structure RunsPass (s : State) (alarm : Bool) : Prop where
  not_halted : s.sHalt = false
  not_complete : s.searchComplete = false
  alarm_eq : s.sAlarm = alarm

/-- The search frame at the ROM command sequencer's own port (R145, R146, log 11). -/
def searchFrame (alarm : Bool) : Instr := if alarm then .romAlarmSearch else .romSearch

/-! ## Where a failing action ends a run of slots (R110, R227) -/

/-- Write slots of `bits` of which the action with answer `k` fails: a write slot takes two answers. -/
def cutWriteSlots (bits : List Bool) (k : Nat) : List LineEvent :=
  (bits.take (k / 2)).flatMap writeSlot ++
    if k % 2 = 0 then [.failed .driveLow] else (writeSlot (bits.getD (k / 2) false)).take 2 ++ [.failed .release]

/-- Read slots, slot `i` sampling `bit i`, of which the action with answer `k` fails: a read slot takes three. -/
def cutReadSlots (bit : Nat → Bool) (k : Nat) : List LineEvent :=
  (List.range (k / 3)).flatMap (fun i => readSlot (bit i)) ++
    if k % 3 = 0 then [.failed .driveLow]
    else if k % 3 = 1 then [.driveLow, .delay .rdl, .failed .release]
    else [.driveLow, .delay .rdl, .release, .delay .rds, .failed .sample]

/-- `s` after `k` answers that worked, one that failed leaving the line output at `o`, and the actions `es`. -/
def State.faulted (s : State) (k : Nat) (o : FaultedOutput) (es : List LineEvent) : State :=
  { s.consume (k + 1) with oe := o.oe, outputLow := o.low, trace := s.trace ++ es }

/-- The bits of `BUF[0..n-1]` as they cross the line (R54, R55). -/
def State.blockBits (s : State) (n : Nat) : List Bool := (s.bufBytes n).flatMap byteBits

/-- The `ARG` bits an operation uses, with the operation code (R72): the mask of a word's significant bits. -/
def usedBits (w : BitVec 12) : BitVec 12 :=
  let op := w &&& 0xF00
  if op = 0x200 ∨ op = 0xB00 then 0xF01
  else if op = 0x400 ∨ op = 0x600 ∨ op = 0x700 ∨ op = 0xD00 then 0xFFF
  else 0xF00

/-- The most line actions an operation performs (R260): a reset frame takes at most `2·N_WH + 5`. -/
def actionBound : Instr → Nat
  | .reset => 2 * Config.nWh + 5
  | .writeBit _ => 4
  | .readBit => 6
  | .writeByte _ => 32
  | .readByte => 48
  | .writeBytes n => 32 * n
  | .readBytes n => 48 * n
  | .select | .romMatch => 2 * Config.nWh + 5 + 32 + 256
  | .skipSelect | .romSkip => 2 * Config.nWh + 5 + 32
  | .readRom | .romRead => 2 * Config.nWh + 5 + 32 + 384
  | .searchNext | .romSearch | .romAlarmSearch => 2 * Config.nWh + 5 + 32 + 64 * 16
  | .searchInit _ | .crc8 _ | .reserved0 | .reservedE | .reservedF => 0

/-! ## Enumerations (R177) -/

/-- The state after one `SEARCH_NEXT`. -/
def State.nextSearch (s : State) : State :=
  match exec .searchNext s with
  | .next t => t
  | .fault _ => s
  | .refused _ => s

/-- The element a `SEARCH_NEXT` that ended in `t` yields: `CODE = OK, FOUND = 1` is an address, in `ADDR` (R202). -/
def State.yielded (t : State) : Option Address :=
  if statusCode t.status = okCode ∧ statusFound t.status = true then some t.addr else none

/-- The elements `n` calls of `SEARCH_NEXT` yield, in order. -/
def enumeration : Nat → State → List Address
  | 0, _ => []
  | n + 1, s => s.nextSearch.yielded.toList ++ enumeration n s.nextSearch

/-- The state after `n` calls of `SEARCH_NEXT`. -/
def afterEnumeration : Nat → State → State
  | 0, s => s
  | n + 1, s => afterEnumeration n s.nextSearch

/-- The actions recorded between `s` and `t`. -/
def State.newEvents (s t : State) : List LineEvent := t.trace.drop s.trace.length

/-- The line activity from `s` to `t` is what OWM sees on the simulated line of that population. -/
abbrev AgreesWith (population : List Device) (s t : State) : Prop :=
  ((SimLine.start population).run (s.newEvents t)).isSome = true

end Sys2Proof.Machine
end

