-- ==== Sys2Proof/Certificates/Slice0/Obligations.lean ====
section
/-! DEFINITION. The statements about OWM, each said of the machine over all its states. `OBLIGATIONS.json` gives the
rules of spec/ behind each. -/

open Sys2Proof Sys2Proof.Machine

/-! ## Encoding (spec/30) -/

/-- Decoding the word of a well-formed instruction gives it back, for every row of the opcode table (R70 to R73, R77).
The numeric codes are decisions of the spec (D2, G1; log 9, 16). -/
def Obligations.DecodeAfterEncode : Prop :=
  ∀ i : Instr, i.WellFormed = true → decode (encode i) = .ok i

/-- The sixteen host rows of the opcode table, by match and mask, cover and decode all 4096 command words, `ARG` taken
as R72 says and its unused bits ignored (R71 to R74; decisions D2, D18, D19). -/
def Obligations.HostWordsDecodeByTableRow : Prop :=
  ∀ w : BitVec 12,
    (w &&& 0xF00 = 0x000 → decode (.host w) = .ok .reserved0) ∧
    (w &&& 0xF00 = 0x100 → decode (.host w) = .ok .reset) ∧
    (w &&& 0xF00 = 0x200 → decode (.host w) = .ok (.writeBit (w.getLsbD 0))) ∧
    (w &&& 0xF00 = 0x300 → decode (.host w) = .ok .readBit) ∧
    (w &&& 0xF00 = 0x400 → decode (.host w) = .ok (.writeByte (w.truncate 8))) ∧
    (w &&& 0xF00 = 0x500 → decode (.host w) = .ok .readByte) ∧
    (w &&& 0xF00 = 0x600 → decode (.host w) = .ok (.writeBytes (w.toNat % 256))) ∧
    (w &&& 0xF00 = 0x700 → decode (.host w) = .ok (.readBytes (w.toNat % 256))) ∧
    (w &&& 0xF00 = 0x800 → decode (.host w) = .ok .select) ∧
    (w &&& 0xF00 = 0x900 → decode (.host w) = .ok .skipSelect) ∧
    (w &&& 0xF00 = 0xA00 → decode (.host w) = .ok .readRom) ∧
    (w &&& 0xF00 = 0xB00 → decode (.host w) = .ok (.searchInit (w.getLsbD 0))) ∧
    (w &&& 0xF00 = 0xC00 → decode (.host w) = .ok .searchNext) ∧
    (w &&& 0xF00 = 0xD00 → decode (.host w) = .ok (.crc8 (w.toNat % 256))) ∧
    (w &&& 0xF00 = 0xE00 → decode (.host w) = .ok .reservedE) ∧
    (w &&& 0xF00 = 0xF00 → decode (.host w) = .ok .reservedF)

/-- Two command words name the same operation exactly when they agree on the operation code and on the `ARG` bits that
operation uses: no used bit is dropped, no ignored bit matters (R72; decisions D2, D19). -/
def Obligations.WordsDifferOnlyInIgnoredBits : Prop :=
  ∀ w w' : BitVec 12, decode (.host w) = decode (.host w') ↔ w &&& usedBits w = w' &&& usedBits w'

/-- Words written out in the spec's text, and the five ROM command bytes; every other byte is rejected at the ROM
command sequencer (R77, R81, R82; log 9). -/
def Obligations.SpecWordsDecode : Prop :=
  decode (.host 0x4CC) = .ok (.writeByte 0xCC) ∧ decode (.host 0x100) = .ok .reset ∧
  decode (.host 0x709) = .ok (.readBytes 9) ∧ decode (.host 0xB01) = .ok (.searchInit true) ∧
  decode (.host 0x2FE) = .ok (.writeBit false) ∧ decode (.host 0xFFF) = .ok .reservedF ∧
  decode (.rom 0x33) = .ok .romRead ∧ decode (.rom 0x55) = .ok .romMatch ∧ decode (.rom 0xCC) = .ok .romSkip ∧
  decode (.rom 0xF0) = .ok .romSearch ∧ decode (.rom 0xEC) = .ok .romAlarmSearch ∧
  ∀ c : Byte, c ∉ [0x33, 0x55, 0xCC, 0xF0, 0xEC] → decode (.rom c) = .error (.notARomCommand c)

/-! ## The step and the host's inputs (spec/45 R190, spec/70) -/

/-- A step takes the next command word, decodes it and runs the operation to its end; a byte the ROM command sequencer
does not know is refused; with no input waiting nothing changes (R190, R231; the queue of inputs is the model's,
log 1, 10). A command is taken with `OE = 0`: where a fault left `OE` at 1, the step before sets it to 0 and does nothing
else, the command still waiting (R221, R227; that it happens then is the model's, log 3). -/
def Obligations.StepRunsDecodedCommand : Prop :=
  (∀ (s : State) (w : CommandWord) (rest : List HostInput) (i : Instr),
    s.inputs = .command w :: rest → s.oe = false → decode w = .ok i → step s = exec i { s with inputs := rest }) ∧
  (∀ (s : State) (c : Byte) (rest : List HostInput),
    s.inputs = .command (.rom c) :: rest → s.oe = false → decode (.rom c) = .error (.notARomCommand c) →
      step s = .refused (.notARomCommand c)) ∧
  (∀ (s : State) (w : CommandWord) (rest : List HostInput), s.inputs = .command w :: rest → s.oe = true →
    step s = .next { s with oe := false }) ∧
  (∀ s : State, s.inputs = [] → step s = .next s)

/-- The host's writes between operations: `ADDR` takes the value; `BUF[i]` takes the byte, every other byte of `BUF`
and everything else stays (R22, R26, R50, R82; log 1). -/
def Obligations.HostWritesAddrAndBuf : Prop :=
  (∀ (s : State) (a : Address) (rest : List HostInput), s.inputs = .writeAddr a :: rest →
    step s = .next { s with inputs := rest, addr := a }) ∧
  (∀ (s : State) (i v : Byte) (rest : List HostInput), s.inputs = .writeBuf i v :: rest →
    ∃ t, step s = .next t ∧ t.bufByte i.toNat = v ∧ (∀ k, k ≠ i.toNat → t.bufByte k = s.bufByte k) ∧
      t = { s with inputs := rest, buf := t.buf })

/-- Hardware reset releases the line, clears `STATUS`, halts the iterator, and performs no line action (R37, R250;
decision D17). What it leaves in the other registers is free (log 4, 5). -/
def Obligations.HardwareResetValues : Prop :=
  ∀ (s : State) (rest : List HostInput), s.inputs = .hardReset :: rest →
    ∃ t, step s = .next t ∧ t.Released ∧ t.status = 0x00 ∧ t.sHalt = true ∧ t.sLd.toNat ≤ 64 ∧
      t.trace = s.trace ∧ t.inputs = rest ∧ t.answers = s.answers ∧ t.draws = s.draws

/-- A hardware reset during an operation abandons it: the line saw a beginning of the operation's actions, and the
registers have their reset values (R250; how the reset is timed is the model's, log 14). The operation is taken with
`OE = 0`, as every operation is (log 3). -/
def Obligations.ResetAbandonsOperation : Prop :=
  ∀ (s : State) (w : CommandWord) (k : Nat) (rest : List HostInput) (i : Instr) (u : State),
    s.inputs = .commandCut w k :: rest →
    (s.oe = false → decode w = .ok i → exec i { s with inputs := rest } = .next u →
      ∃ t, step s = .next t ∧ t.Released ∧ t.status = 0x00 ∧ t.sHalt = true ∧ t.inputs = rest ∧
        (∃ es, u.trace = s.trace ++ es ∧ t.trace = s.trace ++ es.take k)) ∧
    (s.oe = true → step s = .next { s with oe := false })

/-- `SEARCH_NEXT` before any `SEARCH_INIT` yields nothing, from every state a hardware reset leaves (R28, R37, R172;
decision D12). -/
def Obligations.SearchBeforeInitYieldsNothing : Prop :=
  ∀ s : State, ∃ t, exec .searchNext s.hardReset = .next t ∧ t.status = 0x00 ∧ t.trace = s.trace ∧
    t.addr = s.hardReset.addr ∧ t.sHalt = true

/-! ## Invariants (spec/10 R38) -/

/-- Every step keeps the invariant: `S_LD` in 0..64, `STATUS[7:5] = 0`, `STATUS.CODE` not 7, `BUF` in canonical form,
the last discovered address valid, the branch steered at taken as 0, the line really driven between operations only
after a failed `DriveLow` or `Release`, and `OE = 1` only after one and only when `STATUS.CODE` is `LINE_FAULT` (R21,
R38, R227, R221; that every operation is taken with `OE = 0` is the model's, log 3). -/
def Obligations.StepKeepsInvariant : Prop :=
  ∀ s t : State, s.Inv → step s = .next t → t.Inv

/-- The state after hardware reset meets the invariant, whatever the free reset values are (log 4, 5). -/
def Obligations.ResetMeetsInvariant : Prop := State.reset.Inv ∧ ∀ s : State, s.hardReset.Inv

/-! ## Checksum Engine (spec/40) -/

/-- The self-verifying property of the checksum, and the round trip of a valid address (R104). -/
def Obligations.ChecksumOfSelfCheckedSequenceIsZero : Prop :=
  (∀ s : List Byte, crc8 (s ++ [crc8 s]) = 0x00) ∧
  (∀ a : Address, addressValid a = true → crc8 (addrBytes a 7) = a.extractLsb' 56 8)

/-- An address is valid exactly when the checksum over all eight bytes is 0, and the all-zero address is valid (R103;
the equivalence is the spec's inference from R104). -/
def Obligations.AddressValidIffChecksumZero : Prop :=
  (∀ a : Address, addressValid a = true ↔ crc8 (addrBytes a 8) = 0x00) ∧ addressValid 0 = true

/-- `CRC8 n` writes the checksum of `BUF[0..n-1]` to `DATA`, ends with `OK`, performs no line action and changes
nothing else; `n = 0` gives 0 (R203; decision D30). After `OK` `OE` is 0 (R21, R38), also when an earlier fault had left
it at 1; the real output stays as it was (R221, log 3). -/
def Obligations.ChecksumOperation : Prop :=
  (∀ (s : State) (n : Nat), n ≤ 255 →
    exec (.crc8 n) s = .next ({ s with oe := false, data := crc8 ((List.range n).map s.bufByte) }.setCode okCode)) ∧
  (∀ s : State, exec (.crc8 0) s = .next ({ s with oe := false, data := 0x00 }.setCode okCode))

/-! ## Line primitives (spec/41) -/

/-- `RESET` on a line that reads low at the first `j` samples and high at the next, every action working: the reset
frame, `PRESENCE` from the presence sample, `CODE = OK` whether or not a device is there; nothing else changes
(R111, R112, R191; decisions D6, D7, D26). -/
def Obligations.ResetCompletes : Prop :=
  ∀ (s : State) (j : Nat), s.Released → j < Config.nWh → s.Works (j + 4) → (∀ k < j, s.level k = false) →
    s.level j = true →
    exec .reset s = .next { s.after (j + 4) (resetFrame j (s.level (j + 3))) with
      status := withCode (withPresence s.status (!s.level (j + 3))) okCode }

/-- A line that reads low at all `N_WH` samples, held low by others or by OWM's own output: every operation with a
Reset ends in `BUS_NOT_HIGH`, the line never driven, `PRESENCE` and the registers as they were (R111, R222; decision
D6, the code D25), `OE` 0 (R227); a `SEARCH_NEXT` also halts the iterator (R175, R227), and clears `FOUND` first (R202).
An output that an earlier fault left driving the line still drives it afterwards (R221, decision D16, in the model's
form: log 3). The frames at the ROM command sequencer's own port are the model's (log 10, 11). -/
def Obligations.StuckLowLineEndsInBusNotHigh : Prop :=
  ∀ s : State, s.Works Config.nWh → (∀ k < Config.nWh, s.lineLevel (s.level k) = false) →
    (∀ i ∈ [Instr.reset, .select, .skipSelect, .readRom, .romRead, .romMatch, .romSkip, .romSearch, .romAlarmSearch],
      exec i s = .next { s.consume Config.nWh with
        oe := false, trace := s.trace ++ lowSamples Config.nWh, status := withCode s.status 2 }) ∧
    (∀ alarm, RunsPass s alarm →
      exec .searchNext s = .next { s.consume Config.nWh with
        oe := false, trace := s.trace ++ lowSamples Config.nWh
        status := withCode (withFound s.status false) 2, sHalt := true })

/-- `RESET` reports absence as `PRESENCE = 0`, never as an error: its only outcomes are `OK`, `LINE_FAULT` and
`BUS_NOT_HIGH`, and after an error `PRESENCE` is the old one (R112, R191). Of every operation: when its actions begin
with a whole reset frame, so that the presence sample completed, `PRESENCE` is what that sample says, and otherwise
`PRESENCE` is the old one, whatever ended the operation (R112, R205; decision D7; the frames at the sequencer's own
port are the model's, log 10, 11). -/
def Obligations.ResetNeverReportsNoPresence : Prop :=
  (∀ s t : State, exec .reset s = .next t →
    (statusCode t.status = 0 ∨ statusCode t.status = 1 ∨ statusCode t.status = 2) ∧
    (statusCode t.status ≠ 0 → statusPresence t.status = statusPresence s.status)) ∧
  (∀ (i : Instr) (s t : State), exec i s = .next t →
    (∀ lows level, resetFrame lows level <+: s.newEvents t → statusPresence t.status = !level) ∧
    ((∀ lows level, lows < Config.nWh → ¬resetFrame lows level <+: s.newEvents t) →
      statusPresence t.status = statusPresence s.status))

/-- `WRITE_BIT b` is the write slot for `b`: a short low time for 1, a long one for 0; a failing `DriveLow` or
`Release` ends it there with `LINE_FAULT` (R113, R192; decision D23). That `OE` and the real output are then what the
failing answer says is decision D16 in the model's form (R221, log 3), and so is that a `Release` that works releases an
output an earlier fault left driving. -/
def Obligations.WriteBitSendsOneSlot : Prop :=
  ∀ (s : State) (b : Bool),
    (s.Works 2 →
      exec (.writeBit b) s = .next ((s.after 2
        (if b then [.driveLow, .delay .w1l, .release, .delay .w1r]
         else [.driveLow, .delay .w0l, .release, .delay .w0r])).setCode okCode)) ∧
    (∀ o, s.answer 0 = .fails o →
      exec (.writeBit b) s = .next ((s.faulted 0 o [.failed .driveLow]).setCode 1)) ∧
    (∀ o, s.Works 1 → s.answer 1 = .fails o →
      exec (.writeBit b) s = .next ((s.faulted 1 o
        [.driveLow, .delay (if b then .w1l else .w0l), .failed .release]).setCode 1))

/-- `READ_BIT` is the read slot, the bit being the sampled level, zero-extended in `DATA`; a failing action ends it
there with `LINE_FAULT`, `DATA` unchanged (decision D15; R23, log 16), and after a failing `Sample` no final delay and
the line released (R114, R193; decision D23). That `OE` and the real output are what the answer says after a failing
`DriveLow` or `Release` is decision D16 in the model's form (R221, log 3), and so is that a `Release` that works releases
an output an earlier fault left driving. -/
def Obligations.ReadBitSamplesOneSlot : Prop :=
  ∀ s : State,
    (s.Works 3 →
      exec .readBit s = .next ({ s.after 3
        [.driveLow, .delay .rdl, .release, .delay .rds, .sample (s.level 2), .delay .rdr] with
        data := if s.level 2 then 0x01 else 0x00 }.setCode okCode)) ∧
    (∀ o, s.answer 0 = .fails o →
      exec .readBit s = .next ((s.faulted 0 o [.failed .driveLow]).setCode 1)) ∧
    (∀ o, s.Works 1 → s.answer 1 = .fails o →
      exec .readBit s = .next ((s.faulted 1 o [.driveLow, .delay .rdl, .failed .release]).setCode 1)) ∧
    (∀ o, s.Works 2 → s.answer 2 = .fails o →
      exec .readBit s = .next ((s.faulted 2 .released
        [.driveLow, .delay .rdl, .release, .delay .rds, .failed .sample]).setCode 1))

/-! ## Byte transfer (spec/42) -/

/-- `WRITE_BYTE v` sends the eight bits of `v`, bit 0 first, as eight write slots and nothing else; a failing action
ends the byte at that slot with `LINE_FAULT`, the remaining bits not sent (R131, R194). That `OE` is then what the
failing answer says is decision D16 in the model's form (R221, log 3). -/
def Obligations.WriteByteSendsBitsInOrder : Prop :=
  ∀ (s : State) (v : Byte),
    (s.Works 16 →
      exec (.writeByte v) s = .next ((s.after 16 ((List.range 8).flatMap fun i => writeSlot (v.getLsbD i))).setCode
        okCode)) ∧
    (∀ k o, k < 16 → s.Works k → s.answer k = .fails o →
      exec (.writeByte v) s = .next ((s.faulted k o (cutWriteSlots (byteBits v) k)).setCode
        ErrorKind.lineFault.code))

/-- `READ_BYTE` puts the `i`-th sampled bit at bit `i` of `DATA`; a failing action ends the byte at that slot with
`LINE_FAULT` and the partial byte is discarded (R132, R195): `DATA` unchanged is decision D15 (R23, log 16), `OE` what
the failing answer says, or 0 after a failing `Sample`, is decision D16 (R221, log 3). -/
def Obligations.ReadByteAssemblesBitsInOrder : Prop :=
  ∀ s : State,
    (∀ v : Byte, s.Works 24 → (∀ i < 8, v.getLsbD i = s.level (3 * i + 2)) →
      exec .readByte s = .next ({ s.after 24 ((List.range 8).flatMap fun i => readSlot (s.level (3 * i + 2))) with
        data := v }.setCode okCode)) ∧
    (∀ k o, k < 24 → s.Works k → s.answer k = .fails o →
      exec .readByte s = .next ((s.faulted k (if k % 3 = 2 then .released else o)
        (cutReadSlots s.readBitAt k)).setCode ErrorKind.lineFault.code))

/-- `WRITE_BYTES n` sends `BUF[0..n-1]` as byte frames, lowest index first, and changes `BUF` not at all; `n = 0`
performs no action; a failing action ends the block there with `LINE_FAULT` (R133, R196). The count range is decision
D21 (R72, log 16), `OE` after the failed action decision D16 (R221, log 3), `OE = 0` after `n = 0` is R21 and R38 (log
3). -/
def Obligations.WriteBytesSendsBlock : Prop :=
  ∀ (s : State) (n : Nat), n ≤ 255 →
    (0 < n → s.Works (16 * n) →
      exec (.writeBytes n) s = .next ((s.after (16 * n)
        ((List.range n).flatMap fun k => writeByteEvents (s.bufByte k))).setCode okCode)) ∧
    (n = 0 → exec (.writeBytes n) s = .next ({ s with oe := false }.setCode okCode)) ∧
    (∀ k o, k < 16 * n → s.Works k → s.answer k = .fails o →
      exec (.writeBytes n) s = .next ((s.faulted k o (cutWriteSlots (s.blockBits n) k)).setCode
        ErrorKind.lineFault.code))

/-- `READ_BYTES n` fills `BUF[0..n-1]`, byte `k` from read slots `8k..8k+7`, and touches no byte at index `n` or
above; `n = 0` performs no action (R134, R197; decision D21), and leaves `OE` at 0 (R21, R38, log 3). That a
`Release` that works releases an output an earlier fault left driving is the model's (log 3). -/
def Obligations.ReadBytesFillsBlock : Prop :=
  ∀ (s : State) (n : Nat), n ≤ 255 →
    (0 < n → s.Works (24 * n) →
      ∃ t, exec (.readBytes n) s = .next t ∧
        (∀ k < n, ∀ i < 8, (t.bufByte k).getLsbD i = s.level (3 * (8 * k + i) + 2)) ∧
        (∀ k, n ≤ k → t.bufByte k = s.bufByte k) ∧
        t = { (s.after (24 * n) ((List.range (8 * n)).flatMap fun i => readSlot (s.level (3 * i + 2)))).setCode okCode
              with buf := t.buf }) ∧
    (n = 0 → exec (.readBytes n) s = .next ({ s with oe := false }.setCode okCode))

/-- A block read whose action with answer `k` fails: the bytes completed before it are in `BUF`, the others unchanged,
and the operation ends there with `LINE_FAULT` (R134, R197; decision D15). That `OE` and the real output are what the
failing answer says, or both 0 after a failing `Sample`, is decision D16 in the model's form (R221, log 3). -/
def Obligations.FailedBlockReadKeepsCompletedBytes : Prop :=
  ∀ (s : State) (n k : Nat) (o : FaultedOutput), n ≤ 255 → k < 24 * n → s.Works k → s.answer k = .fails o →
    ∃ t, exec (.readBytes n) s = .next t ∧
      (∀ b < k / 24, ∀ i < 8, (t.bufByte b).getLsbD i = s.level (3 * (8 * b + i) + 2)) ∧
      (∀ b, k / 24 ≤ b → t.bufByte b = s.bufByte b) ∧
      t = { (s.faulted k (if k % 3 = 2 then .released else o) (cutReadSlots s.readBitAt k)).setCode 1 with buf := t.buf }

/-! ## ROM commands (spec/43) -/

/-- `SKIP_SELECT` (and the Skip ROM frame): reset frame, presence, the byte 0xCC, no tail (R141, R144, R199; log 9,
10). -/
def Obligations.SkipSelectCompletes : Prop :=
  ∀ (s : State) (j : Nat), s.RomReady j 0 → ∀ i ∈ [Instr.skipSelect, .romSkip],
    exec i s = .next { s.after (j + 20) (romStartEvents j 0xCC) with
      status := withCode (withPresence s.status true) okCode }

/-- `SELECT` (and the Match ROM frame): reset frame, presence, the byte 0x55, then the 64 bits of `ADDR`, bit 0 first,
as write slots; the checksum of `ADDR` is not tested and nothing but `STATUS` and the line changes (R143, R198;
decision D14, log 9, 10). -/
def Obligations.SelectSendsAddress : Prop :=
  ∀ (s : State) (j : Nat), s.RomReady j 128 → ∀ i ∈ [Instr.select, .romMatch],
    exec i s = .next { s.after (j + 148)
      (romStartEvents j 0x55 ++ (List.range 64).flatMap fun b => writeSlot (s.addr.getLsbD b)) with
      status := withCode (withPresence s.status true) okCode }

/-- `READ_ROM` (and the Read ROM frame): reset frame, presence, the byte 0x33, 64 read slots giving the address bit by
bit; a valid address goes to `ADDR` with `OK`, another ends in `CRC_MISMATCH` with `ADDR` unchanged (R142, R200;
decision D13, log 9, 10). -/
def Obligations.ReadRomStoresValidAddress : Prop :=
  ∀ (s : State) (j : Nat) (a : Address), s.RomReady j 192 →
    (∀ b < 64, a.getLsbD b = s.level (j + 20 + 3 * b + 2)) →
    ∀ i ∈ [Instr.readRom, .romRead],
      exec i s = .next { s.after (j + 212)
        (romStartEvents j 0x33 ++ (List.range 64).flatMap fun b => readSlot (a.getLsbD b)) with
        addr := if addressValid a then a else s.addr
        status := withCode (withPresence s.status true) (if addressValid a then okCode else 5) }

/-- No presence pulse: every operation with a ROM command ends in `NO_PRESENCE` after the complete reset frame, the
command byte not written, `PRESENCE = 0`, the registers as they were; a `SEARCH_NEXT` also halts the iterator (R141,
R175, R223; decisions D6, D22; the frames at the sequencer's own port are the model's, log 10, 11). -/
def Obligations.NoPresenceEndsRomCommands : Prop :=
  ∀ (s : State) (j : Nat), s.Released → j < Config.nWh → s.Works (j + 4) → (∀ k < j, s.level k = false) →
    s.level j = true → s.level (j + 3) = true →
    (∀ i ∈ [Instr.select, .skipSelect, .readRom, .romRead, .romMatch, .romSkip, .romSearch, .romAlarmSearch],
      exec i s = .next { s.after (j + 4) (resetFrame j true) with
        status := withCode (withPresence s.status false) 3 }) ∧
    (∀ alarm, RunsPass s alarm →
      exec .searchNext s = .next { s.after (j + 4) (resetFrame j true) with
        status := withCode (withPresence (withFound s.status false) false) 3, sHalt := true })

/-! ## Device search (spec/44) -/

/-- `SEARCH_INIT` creates a fresh Search State with the given `alarm_only`, at any time and without line action, clears
`FOUND`, ends with `OK`, `OE` 0 (R21, R38, log 3), and changes nothing else (R173, R201). -/
def Obligations.SearchInitCreatesFreshState : Prop :=
  (∀ (s : State) (alarm : Bool),
    exec (.searchInit alarm) s = .next { s with
      oe := false, sAddr := 0, sLd := 0, sFirst := true, sAlarm := alarm, sHalt := false
      status := withCode (withFound s.status false) okCode }) ∧
  decode (.host 0xB00) = .ok (.searchInit false) ∧ decode (.host 0xB01) = .ok (.searchInit true)

/-- A search pass that meets no error: the command byte, 64 rounds of two reads and one write with the branch of R164
and R165, then, the address being valid, `SEARCH_NEXT` ends with `ADDR`, `S_ADDR` the address of the branches, `S_LD`
the last round at which a discrepancy was resolved to 0 (0 if none), `S_FIRST = 0`, `FOUND = 1`, `OK` (R162 to R172,
R202; decisions D9, D10, general knowledge G4, log 16). The command bytes 0xF0 and 0xEC of the trace are general
knowledge G1 (R77, PRESUMED, log 9). The same pass as a frame at the sequencer's own port ends with `OK` and writes
nothing of the Search State, as R171 says of `SearchPass`; that it is steered by the Search State and stores no result
is the model's (log 11). -/
def Obligations.SearchPassDiscovers : Prop :=
  ∀ (s : State) (j : Nat) (alarm : Bool) (a : Address) (lz : Nat),
    s.RomReady j 512 → (∀ n, 1 ≤ n → n ≤ 64 → (s.idBit j n && s.cmpBit j n) = false) →
    (∀ n, 1 ≤ n → n ≤ 64 → a.getLsbD (n - 1) = s.branch j n) → addressValid a = true →
    lz ≤ 64 → (0 < lz → s.zeroBranchAt j lz) → (∀ n, lz < n → n ≤ 64 → ¬s.zeroBranchAt j n) →
    (RunsPass s alarm →
      exec .searchNext s = .next { s.after (j + 532)
          (romStartEvents j (searchCode alarm) ++ s.roundsEvents j 64) with
        addr := a, sAddr := a, sLd := BitVec.ofNat 7 lz, sFirst := false
        status := withCode (withFound (withPresence s.status true) true) okCode }) ∧
    exec (searchFrame alarm) s = .next { s.after (j + 532)
        (romStartEvents j (searchCode alarm) ++ s.roundsEvents j 64) with
      status := withCode (withPresence s.status true) okCode }

/-- A search pass whose address fails the checksum ends in `CRC_MISMATCH` after round 64: the address is dropped, the
Search State is as it was, and `SEARCH_NEXT` halts the iterator (R169, R170, R175, R225; decision D12, log 16). The
branches and so the trace are decisions D9, D10 and general knowledge G4 (log 16), the command byte G1 (R77, PRESUMED,
log 9); the same pass as a frame at the sequencer's own port, which is no `SEARCH_NEXT` and halts nothing (R227), is the
model's (log 11). -/
def Obligations.SearchPassDropsInvalidAddress : Prop :=
  ∀ (s : State) (j : Nat) (alarm : Bool) (a : Address),
    s.RomReady j 512 → (∀ n, 1 ≤ n → n ≤ 64 → (s.idBit j n && s.cmpBit j n) = false) →
    (∀ n, 1 ≤ n → n ≤ 64 → a.getLsbD (n - 1) = s.branch j n) → addressValid a = false →
    (RunsPass s alarm →
      exec .searchNext s = .next { s.after (j + 532)
          (romStartEvents j (searchCode alarm) ++ s.roundsEvents j 64) with
        sHalt := true
        status := withCode (withFound (withPresence s.status true) false) 5 }) ∧
    exec (searchFrame alarm) s = .next { s.after (j + 532)
        (romStartEvents j (searchCode alarm) ++ s.roundsEvents j 64) with
      status := withCode (withPresence s.status true) 5 }

/-- A search round in which both bits read 1 ends the pass in `UNEXPECTED_ABSENCE`: its two read slots are complete,
its write slot is not sent, nothing follows; the Search State is as it was and `SEARCH_NEXT` halts the iterator (R164,
R170, R175, R224; decision D12, log 16). The write slots of the earlier rounds follow the branch rule, decisions D9, D10
and general knowledge G4 (log 16); the command byte is G1 (R77, PRESUMED, log 9); the same pass as a frame at the
sequencer's own port, which is no `SEARCH_NEXT` and halts nothing (R227), is the model's (log 11). -/
def Obligations.UnexpectedAbsenceAbortsSearch : Prop :=
  ∀ (s : State) (j r : Nat) (alarm : Bool), 1 ≤ r → r ≤ 64 →
    s.RomReady j (8 * (r - 1) + 6) → (∀ n, 1 ≤ n → n < r → (s.idBit j n && s.cmpBit j n) = false) →
    (s.idBit j r && s.cmpBit j r) = true →
    (RunsPass s alarm →
      exec .searchNext s = .next { s.after (j + 20 + (8 * (r - 1) + 6))
          (romStartEvents j (searchCode alarm) ++ s.roundsEvents j (r - 1) ++ readSlot true ++ readSlot true) with
        sHalt := true
        status := withCode (withFound (withPresence s.status true) false) 4 }) ∧
    exec (searchFrame alarm) s = .next { s.after (j + 20 + (8 * (r - 1) + 6))
        (romStartEvents j (searchCode alarm) ++ s.roundsEvents j (r - 1) ++ readSlot true ++ readSlot true) with
      status := withCode (withPresence s.status true) 4 }

/-- `SEARCH_NEXT` when the iterator is halted or the search is complete: no line action, `FOUND = 0`, `OK`, `OE` 0
(R21, R38, log 3), nothing else changes (R172, R174, R175; decision D11). -/
def Obligations.EndedSearchYieldsNothing : Prop :=
  ∀ s : State, (s.sHalt = true ∨ (s.sFirst = false ∧ s.sLd = 0)) →
    exec .searchNext s = .next { s with oe := false, status := withCode (withFound s.status false) okCode }

/-- Whatever the line answers: a `SEARCH_NEXT` that ends in an error leaves `ADDR`, `S_ADDR`, `S_LD`, `S_FIRST` as
they were, `FOUND = 0`, and the iterator halted, so that every later `SEARCH_NEXT` yields nothing (R170, R172, R175,
R227; decision D12); that such a later call, which ends with `OK`, leaves `OE` at 0 is R21 and R38 (log 3). -/
def Obligations.SearchErrorHaltsIterator : Prop :=
  ∀ s t : State, exec .searchNext s = .next t → statusCode t.status ≠ 0 →
    t.addr = s.addr ∧ t.sAddr = s.sAddr ∧ t.sLd = s.sLd ∧ t.sFirst = s.sFirst ∧
    statusFound t.status = false ∧ t.sHalt = true ∧
    exec .searchNext t = .next { t with oe := false, status := withCode t.status okCode }

/-- Whatever the line answers: a `SEARCH_NEXT` that ends with `FOUND = 1` ends with `OK`, and `ADDR` and `S_ADDR` are
the same valid address (R36, R38, R169, R202; the invariant is the spec's inference). -/
def Obligations.FoundAddressIsValid : Prop :=
  ∀ s t : State, exec .searchNext s = .next t → statusFound t.status = true →
    statusCode t.status = 0 ∧ t.addr = t.sAddr ∧ addressValid t.addr = true ∧ t.sFirst = false ∧ t.sLd.toNat ≤ 64

/-! ## Searching a population (spec/44 R176, R177, spec/95 section 0) -/

/-- A full enumeration on the simulated line of a population of devices with distinct valid addresses yields exactly
their addresses, each once, in the order of their bit strings, and is then complete: the next `SEARCH_NEXT` yields
nothing. The simulated line is general knowledge G5 of the spec (log 17); the branch rule is G4 (D9). -/
def Obligations.EnumerationYieldsPopulation : Prop :=
  ∀ (population : List Device) (s0 s : State), population ≠ [] →
    (population.map Device.addr).Nodup → (∀ d ∈ population, addressValid d.addr = true) →
    exec (.searchInit false) s0 = .next s →
    AgreesWith population s (afterEnumeration population.length s) →
    (enumeration population.length s).Perm (population.map Device.addr) ∧
    (enumeration population.length s).Pairwise lineBefore ∧
    (afterEnumeration population.length s).searchComplete = true ∧
    (afterEnumeration population.length s).sHalt = false ∧
    enumeration (population.length + 1) s = enumeration population.length s

/-- With `alarm_only` the same holds of the alarmed devices, when there are any: exactly their addresses, each once, in
the order of their bit strings, the search then complete, a further `SEARCH_NEXT` yielding nothing (R146, R28). The
simulated line is general knowledge G5 of the spec (log 17); the branch rule is G4 (D9, log 16). -/
def Obligations.AlarmEnumerationYieldsAlarmedDevices : Prop :=
  ∀ (population : List Device) (s0 s : State), population.filter Device.alarmed ≠ [] →
    (population.map Device.addr).Nodup → (∀ d ∈ population, addressValid d.addr = true) →
    exec (.searchInit true) s0 = .next s →
    AgreesWith population s (afterEnumeration (population.filter Device.alarmed).length s) →
    (enumeration (population.filter Device.alarmed).length s).Perm
      ((population.filter Device.alarmed).map Device.addr) ∧
    (enumeration (population.filter Device.alarmed).length s).Pairwise lineBefore ∧
    (afterEnumeration (population.filter Device.alarmed).length s).searchComplete = true ∧
    (afterEnumeration (population.filter Device.alarmed).length s).sHalt = false ∧
    enumeration ((population.filter Device.alarmed).length + 1) s =
      enumeration (population.filter Device.alarmed).length s

/-- `READ_ROM` on the simulated line of a population: it reads the bitwise AND of their addresses, stored when valid
and otherwise reported as `CRC_MISMATCH`; with one device with a valid address it reads that address (R142, U3; the
simulated line is G5, log 17). -/
def Obligations.ReadRomReadsWiredAnd : Prop :=
  ∀ (population : List Device) (s t : State) (a : Address), population ≠ [] →
    exec .readRom s = .next t → AgreesWith population s t →
    (∀ b < 64, a.getLsbD b = population.all fun d => d.addr.getLsbD b) →
    (addressValid a = true → statusCode t.status = 0 ∧ t.addr = a) ∧
    (addressValid a = false → statusCode t.status = 5 ∧ t.addr = s.addr) ∧
    (∀ d, population = [d] → addressValid d.addr = true → t.addr = d.addr)

/-- After `SELECT` on the simulated line exactly the devices with the address in `ADDR` still participate (R35, R143;
the simulated line is G5, log 17). -/
def Obligations.SelectLeavesAddressedDevice : Prop :=
  ∀ (population : List Device) (s t : State) (l : SimLine), population ≠ [] → exec .select s = .next t →
    (SimLine.start population).run (s.newEvents t) = some l →
    statusCode t.status = 0 ∧ l.active = population.filter fun d => d.addr == s.addr

/-! ## Errors (spec/60) -/

/-- The reserved codes end in `ILLEGAL_OP` with no line action and no register changed but `STATUS.CODE` (R73, R204,
R226; decision D18). -/
def Obligations.ReservedCodesAreIllegal : Prop :=
  ∀ s : State, ∀ i ∈ [Instr.reserved0, .reservedE, .reservedF], exec i s = .next (s.setCode 6)

/-- A byte count that no command word encodes stops the model by name (the model's own, log 15). -/
def Obligations.UnencodableCountStops : Prop :=
  ∀ (s : State) (n : Nat), 255 < n → ∀ i ∈ [Instr.writeBytes n, .readBytes n, .crc8 n],
    exec i s = .fault (.countOutOfRange n)

/-- Errors are precise: the trace of an operation holds no failed action but possibly its last, and it ends with one
exactly when the operation ended in `LINE_FAULT` (R110, R221, R227, R228). -/
def Obligations.LineFaultEndsOperationAtOnce : Prop :=
  ∀ (i : Instr) (s t : State), exec i s = .next t →
    ∃ es, t.trace = s.trace ++ es ∧ (∀ e ∈ es.dropLast, e.isFailed = false) ∧
      (statusCode t.status = 1 ↔ ∃ e, es.getLast? = some e ∧ e.isFailed = true)

/-- Every operation that does not end in `LINE_FAULT` leaves `OE` at 0 (R21 and R38 for `OK`, R227 for the other kinds):
whatever `OE` was before, but for `ILLEGAL_OP`, which leaves it as it was (R73), 0 as before every operation (log 3).
From a released line every operation leaves it released, the real output too, unless its last action is a `DriveLow` or
a `Release` that failed: so after every error but `LINE_FAULT`, and after a failing `Sample` (R221; decision D16). The
real output as a state of its own is the model's (log 3). -/
def Obligations.LineReleasedUnlessFault : Prop :=
  ∀ (i : Instr) (s t : State), exec i s = .next t →
    (s.oe = false → statusCode t.status ≠ 1 → t.oe = false) ∧
    (statusCode t.status ≠ 1 → statusCode t.status ≠ 6 → t.oe = false) ∧
    (statusCode t.status = 6 → t.oe = s.oe) ∧
    (s.Released → statusCode t.status ≠ 1 → t.Released) ∧
    (s.Released → ¬t.Released → (s.newEvents t).getLast? = some (.failed .driveLow) ∨
      (s.newEvents t).getLast? = some (.failed .release))

/-- While OWM's own output is left driving the line, every operation with a Reset ends in `BUS_NOT_HIGH` or
`LINE_FAULT`, never driving or releasing the line, so that every later one does too until the platform recovers (R21,
R221; decision D16); `OE` is then 0 after `BUS_NOT_HIGH` (R227), and as it was after a failing `Sample` (R221). An
operation without line action does not release the line either. That the platform does not recover within an operation
is the model's choice (log 3); so are the five frames at the ROM command sequencer's own port (log 10, 11). -/
def Obligations.DrivenLineDefeatsEveryReset : Prop :=
  ∀ (s t : State), s.outputLow = true →
    (∀ i ∈ [Instr.reset, .select, .skipSelect, .readRom, .romRead, .romMatch, .romSkip, .romSearch, .romAlarmSearch],
      exec i s = .next t →
      ((statusCode t.status = 1 ∧ t.oe = s.oe) ∨ (statusCode t.status = 2 ∧ t.oe = false)) ∧ t.outputLow = true) ∧
    (∀ alarm, RunsPass s alarm → exec .searchNext s = .next t →
      ((statusCode t.status = 1 ∧ t.oe = s.oe) ∨ (statusCode t.status = 2 ∧ t.oe = false)) ∧ t.outputLow = true ∧
        t.sHalt = true) ∧
    (∀ i, exec i s = .next t → t.trace = s.trace → t.outputLow = true)

/-- `STATUS.CODE` is not sticky: what an operation does does not depend on the code the previous one left (R205,
R230). -/
def Obligations.CodeIsNotSticky : Prop :=
  ∀ (i : Instr) (s : State) (c : BitVec 3), exec i (s.setCode c) = exec i s

/-! ## Frames (spec/10 R29, R32, spec/45 R205) -/

/-- Operations that store nothing and do not Reset: only `OE`, the line output, `STATUS.CODE`, the line record and the
answers taken change; no register, no byte of `BUF`, no flag does (R192, R194, R196, R204). -/
def Obligations.WritingOperationsFrame : Prop :=
  ∀ (s t : State) (i : Instr),
    ((∃ b, i = .writeBit b) ∨ (∃ v, i = .writeByte v) ∨ (∃ n, i = .writeBytes n) ∨
      i ∈ [Instr.reserved0, .reservedE, .reservedF]) →
    exec i s = .next t →
    t.addr = s.addr ∧ t.data = s.data ∧ (∀ k, t.bufByte k = s.bufByte k) ∧ t.sAddr = s.sAddr ∧ t.sLd = s.sLd ∧
    t.sFirst = s.sFirst ∧ t.sAlarm = s.sAlarm ∧ t.sHalt = s.sHalt ∧ t.inputs = s.inputs ∧ t.resets = s.resets ∧
    statusPresence t.status = statusPresence s.status ∧ statusFound t.status = statusFound s.status ∧
    statusReserved t.status = statusReserved s.status

/-- Operations that Reset and store nothing: as above, but `PRESENCE` may change (R191, R198, R199). The frames at the
sequencer's own port are the model's (log 10, 11); those of a search write nothing of the Search State and no bit of
the iterator (R20, R171). -/
def Obligations.ResettingOperationsFrame : Prop :=
  ∀ (s t : State), ∀ i ∈ [Instr.reset, .select, .skipSelect, .romMatch, .romSkip, .romSearch, .romAlarmSearch],
    exec i s = .next t →
    t.addr = s.addr ∧ t.data = s.data ∧ (∀ k, t.bufByte k = s.bufByte k) ∧ t.sAddr = s.sAddr ∧ t.sLd = s.sLd ∧
    t.sFirst = s.sFirst ∧ t.sAlarm = s.sAlarm ∧ t.sHalt = s.sHalt ∧ t.inputs = s.inputs ∧ t.resets = s.resets ∧
    statusFound t.status = statusFound s.status ∧ statusReserved t.status = statusReserved s.status

/-- Operations with a result: `READ_BIT`, `READ_BYTE`, `CRC8` may change `DATA`, and only when they end with `OK`;
`READ_ROM` (and the Read ROM frame) may change `ADDR`, and only then, and `PRESENCE`; no byte of `BUF`, no Search
State, no other flag changes (R22, R23, R193, R195, R200, R203; decision D15, log 10). -/
def Obligations.ResultOperationsFrame : Prop :=
  ∀ (s t : State),
    (∀ i, i ∈ [Instr.readBit, .readByte] ∨ (∃ n, i = .crc8 n) → exec i s = .next t →
      t.addr = s.addr ∧ (statusCode t.status ≠ 0 → t.data = s.data) ∧ (∀ k, t.bufByte k = s.bufByte k) ∧
      t.sAddr = s.sAddr ∧ t.sLd = s.sLd ∧ t.sFirst = s.sFirst ∧ t.sAlarm = s.sAlarm ∧ t.sHalt = s.sHalt ∧
      t.inputs = s.inputs ∧ t.resets = s.resets ∧ statusPresence t.status = statusPresence s.status ∧
      statusFound t.status = statusFound s.status ∧ statusReserved t.status = statusReserved s.status) ∧
    (∀ i ∈ [Instr.readRom, .romRead], exec i s = .next t →
      (statusCode t.status ≠ 0 → t.addr = s.addr) ∧ t.data = s.data ∧ (∀ k, t.bufByte k = s.bufByte k) ∧
      t.sAddr = s.sAddr ∧ t.sLd = s.sLd ∧ t.sFirst = s.sFirst ∧ t.sAlarm = s.sAlarm ∧ t.sHalt = s.sHalt ∧
      t.inputs = s.inputs ∧ t.resets = s.resets ∧ statusFound t.status = statusFound s.status ∧
      statusReserved t.status = statusReserved s.status)

/-- `READ_BYTES n` changes no byte of `BUF` at index `n` or above, whatever the line answers, and no register or flag
but `OE` and `STATUS.CODE` (R134, R197). -/
def Obligations.ReadBytesFrame : Prop :=
  ∀ (s t : State) (n : Nat), exec (.readBytes n) s = .next t →
    (∀ k, n ≤ k → t.bufByte k = s.bufByte k) ∧ t.addr = s.addr ∧ t.data = s.data ∧ t.sAddr = s.sAddr ∧
    t.sLd = s.sLd ∧ t.sFirst = s.sFirst ∧ t.sAlarm = s.sAlarm ∧ t.sHalt = s.sHalt ∧ t.inputs = s.inputs ∧
    t.resets = s.resets ∧ statusPresence t.status = statusPresence s.status ∧
    statusFound t.status = statusFound s.status ∧ statusReserved t.status = statusReserved s.status

/-- Search operations change neither `DATA` nor a byte of `BUF`; `SEARCH_INIT` changes the Search State and iterator
bits and no other register, `OE` being 0 after it (R21, R38, log 3); a search pass changes no `S_ALARM`, clears no
`S_HALT`, and changes `ADDR` and the Search State only when it ends with `OK` (R170, R173, R201, R202; decisions D12, D15). -/
def Obligations.SearchOperationsFrame : Prop :=
  ∀ (s t : State),
    (∀ alarm, exec (.searchInit alarm) s = .next t →
      t.oe = false ∧ t.outputLow = s.outputLow ∧ t.addr = s.addr ∧ t.data = s.data ∧ (∀ k, t.bufByte k = s.bufByte k) ∧
      t.inputs = s.inputs ∧ t.resets = s.resets ∧ t.trace = s.trace ∧ statusPresence t.status = statusPresence s.status ∧
      statusReserved t.status = statusReserved s.status) ∧
    (exec .searchNext s = .next t →
      t.data = s.data ∧ (∀ k, t.bufByte k = s.bufByte k) ∧ t.sAlarm = s.sAlarm ∧
      (s.sHalt = true → t.sHalt = true) ∧ t.inputs = s.inputs ∧ t.resets = s.resets ∧
      statusReserved t.status = statusReserved s.status ∧
      (statusCode t.status ≠ 0 →
        t.addr = s.addr ∧ t.sAddr = s.sAddr ∧ t.sLd = s.sLd ∧ t.sFirst = s.sFirst))

/-- Isolation: no operation but `SEARCH_NEXT`, `SEARCH_INIT` and the two search frames reads or writes the Search State
and the iterator bits; run with others it does the same, and they pass through (R29). The two frames are steered by the
Search State (log 11) and write nothing of it (`ResettingOperationsFrame`). -/
def Obligations.OtherOperationsIgnoreSearchState : Prop :=
  ∀ (i : Instr) (s t : State) (a : Address) (ld : BitVec 7) (f al h : Bool),
    (∀ alarm, i ≠ .searchInit alarm) → i ≠ .searchNext → i ≠ .romSearch → i ≠ .romAlarmSearch →
    exec i s = .next t →
    exec i { s with sAddr := a, sLd := ld, sFirst := f, sAlarm := al, sHalt := h } =
      .next { t with sAddr := a, sLd := ld, sFirst := f, sAlarm := al, sHalt := h }

/-! ## The line as a whole (spec/30 R75, spec/20 R59, spec/70 R260, R262) -/

/-- The line carries four shapes and nothing else, a reset frame beginning with 1 to `N_WH` samples: an operation that
does not end in `LINE_FAULT` performs whole shapes back to back, and one that does performs whole shapes and then a
beginning of one, up to the action that failed (R75, R76, R110, R111, R135; the stuck-low check of R111 counts as a
shape of its own). -/
def Obligations.LineCarriesOnlyItsShapes : Prop :=
  ∀ (i : Instr) (s t : State), exec i s = .next t →
    (statusCode t.status ≠ 1 → ∃ shapes : List LineShape, (∀ sh ∈ shapes, sh.Legal) ∧
      t.trace = s.trace ++ shapes.flatMap LineShape.events) ∧
    (statusCode t.status = 1 → ∃ (shapes : List LineShape) (es : List LineEvent) (a : LineAction) (cut : LineShape)
      (level : Bool), (∀ sh ∈ shapes, sh.Legal) ∧ cut.Legal ∧ (es ++ [a.worked level]) <+: cut.events ∧
        t.trace = s.trace ++ shapes.flatMap LineShape.events ++ es ++ [.failed a])

/-- The line trace only grows: after any number of steps the earlier trace is a beginning of the later one (R59). -/
def Obligations.TraceOnlyGrows : Prop :=
  ∀ (n : Nat) (s t : State), core.run n s = .next t → s.trace <+: t.trace

/-- No timeout and no hang: every operation ends after at most the number of line actions its procedure allows, a
Reset taking at most `2·N_WH + 5` (R260; the bound is the spec's inference). -/
def Obligations.OperationsAreBounded : Prop :=
  ∀ (i : Instr) (s t : State), exec i s = .next t → t.trace.length ≤ s.trace.length + actionBound i

/-- Durations for every Timing Profile: a reset frame that sees the line high at once takes the reset window and each
low sample before it `T_WHP` more, a write slot its two times, a read slot its three (R115, R262; the sums are the
spec's inference). -/
def Obligations.DurationsFollowProfile : Prop :=
  ∀ (p : TimingProfile) (j : Nat) (level b : Bool),
    traceMicros p (resetFrame j level) = j * p.whp + (p.rstl + p.pds + p.rstr) ∧
    traceMicros p (lowSamples j) = j * p.whp ∧
    traceMicros p (writeSlot b) = (if b then p.w1l + p.w1r else p.w0l + p.w0r) ∧
    traceMicros p (readSlot level) = p.rdl + p.rds + p.rdr

/-! ## The platform recovers (spec/60 R221) -/

/-- A recovery of the platform between operations releases the line output, `OE` with it, and changes nothing else: no
line action, no other register, no byte of `BUF` (R221, decision D16; that it comes as an input of its own is the
model's, log 3). -/
def Obligations.PlatformRecoveryReleasesLine : Prop :=
  ∀ (s : State) (rest : List HostInput), s.inputs = .platformRecovers :: rest →
    step s = .next { s with inputs := rest, oe := false, outputLow := false }

/-! ## The sequencers themselves (spec/40, spec/41) -/

/-- `WriteBit(b)`: drive, the short or the long low time, release, the remainder, the line not sampled, nothing written
but `OE`, which `DriveLow` sets and `Release` clears; `LINE_FAULT` from `DriveLow` or `Release` only, with no later
action, the line then perhaps still driven (R113). -/
def Obligations.BitWriteSequencerFollowsItsRule : Prop :=
  ∀ (s : State) (b : Bool),
    (s.Works 2 → writeBit b s = .done () (s.after 2
      [.driveLow, .delay (if b then .w1l else .w0l), .release, .delay (if b then .w1r else .w0r)])) ∧
    (∀ u, driveLow s = .done () u → u.oe = true) ∧
    ((s.answer 0).ok = false → ∃ o, writeBit b s = .raised .lineFault (s.faulted 0 o [.failed .driveLow])) ∧
    (s.Works 1 → (s.answer 1).ok = false → ∃ o, writeBit b s = .raised .lineFault
      (s.faulted 1 o [.driveLow, .delay (if b then .w1l else .w0l), .failed .release]))

/-- `ReadBit()`: drive, release, one sample whose level is the bit, the remainder, nothing written but `OE`, which
`DriveLow` sets and `Release` clears; `LINE_FAULT` from `DriveLow`, `Release` or `Sample` only, with no later action, so
that no final delay follows a failing `Sample` (R114). -/
def Obligations.BitReadSequencerFollowsItsRule : Prop :=
  ∀ s : State,
    (s.Works 3 → readBit s = .done (s.level 2) (s.after 3
      [.driveLow, .delay .rdl, .release, .delay .rds, .sample (s.level 2), .delay .rdr])) ∧
    (∀ u, driveLow s = .done () u → u.oe = true) ∧
    ((s.answer 0).ok = false → ∃ o, readBit s = .raised .lineFault (s.faulted 0 o [.failed .driveLow])) ∧
    (s.Works 1 → (s.answer 1).ok = false → ∃ o, readBit s = .raised .lineFault
      (s.faulted 1 o [.driveLow, .delay .rdl, .failed .release])) ∧
    (s.Works 2 → (s.answer 2).ok = false → ∃ o, readBit s = .raised .lineFault
      (s.faulted 2 o [.driveLow, .delay .rdl, .release, .delay .rds, .failed .sample]))

/-- The checksum takes the bytes in order and the bits of each from bit 0 to bit 7, starting from 0: the empty sequence
gives 0, and the worked example's accumulators after each of its eight bits (R102). -/
def Obligations.ChecksumTakesBitsInOrder : Prop :=
  (∀ s : List Byte, crc8 s = (s.flatMap fun v => (List.range 8).map v.getLsbD).foldl crc8Bit 0x00) ∧
  crc8 [] = 0x00 ∧ crc8 [0x01] = 0x5E ∧
  (List.range 8).map (fun i => ((List.range (i + 1)).map (0x01 : Byte).getLsbD).foldl crc8Bit 0x00) =
    [0x8C, 0x46, 0x23, 0x9D, 0xC2, 0x61, 0xBC, 0x5E]

/-! ## The end of an enumeration (spec/44) -/

/-- An enumeration that has ended, complete or halted, stays so whatever operation comes, until a `SEARCH_INIT`: complete
stays complete with the same Search State and a set `S_HALT` stays set, so that every further `SEARCH_NEXT` yields
nothing (R172, R174, R175, R20; decisions D11, D12; the frames at the sequencer's own port are the model's, log 11). -/
def Obligations.EndedSearchStaysEnded : Prop :=
  ∀ (i : Instr) (s t : State), (∀ alarm, i ≠ .searchInit alarm) → exec i s = .next t →
    (s.searchComplete = true → t.searchComplete = true ∧ t.sAddr = s.sAddr ∧ t.sHalt = s.sHalt) ∧
    (s.sHalt = true → t.sHalt = true ∧ t.sAddr = s.sAddr ∧ t.sLd = s.sLd ∧ t.sFirst = s.sFirst)
end

