-- ==== Sys2Proof/Laws/State.lean ====
section
/-! SUPPORT. One lemma per field per register write of Machine/Ops.lean, each true by rfl. -/

namespace Sys2Proof.Machine

variable (s : State)

@[simp] theorem State.setOe_oe (b : Bool) : (s.setOe b).oe = b := rfl
@[simp] theorem State.setOe_outputLow (b : Bool) : (s.setOe b).outputLow = s.outputLow := rfl
@[simp] theorem State.setOe_addr (b : Bool) : (s.setOe b).addr = s.addr := rfl
@[simp] theorem State.setOe_data (b : Bool) : (s.setOe b).data = s.data := rfl
@[simp] theorem State.setOe_status (b : Bool) : (s.setOe b).status = s.status := rfl
@[simp] theorem State.setOe_buf (b : Bool) : (s.setOe b).buf = s.buf := rfl
@[simp] theorem State.setOe_sAddr (b : Bool) : (s.setOe b).sAddr = s.sAddr := rfl
@[simp] theorem State.setOe_sLd (b : Bool) : (s.setOe b).sLd = s.sLd := rfl
@[simp] theorem State.setOe_sFirst (b : Bool) : (s.setOe b).sFirst = s.sFirst := rfl
@[simp] theorem State.setOe_sAlarm (b : Bool) : (s.setOe b).sAlarm = s.sAlarm := rfl
@[simp] theorem State.setOe_sHalt (b : Bool) : (s.setOe b).sHalt = s.sHalt := rfl
@[simp] theorem State.setOe_inputs (b : Bool) : (s.setOe b).inputs = s.inputs := rfl
@[simp] theorem State.setOe_answers (b : Bool) : (s.setOe b).answers = s.answers := rfl
@[simp] theorem State.setOe_draws (b : Bool) : (s.setOe b).draws = s.draws := rfl
@[simp] theorem State.setOe_resets (b : Bool) : (s.setOe b).resets = s.resets := rfl
@[simp] theorem State.setOe_trace (b : Bool) : (s.setOe b).trace = s.trace := rfl
@[simp] theorem State.setOe_setOe (b c : Bool) : (s.setOe b).setOe c = s.setOe c := rfl
@[simp] theorem State.setOe_oe_self : s.setOe s.oe = s := rfl

@[simp] theorem State.setOutput_oe (b l : Bool) : (s.setOutput b l).oe = b := rfl
@[simp] theorem State.setOutput_outputLow (b l : Bool) : (s.setOutput b l).outputLow = l := rfl
@[simp] theorem State.setOutput_addr (b l : Bool) : (s.setOutput b l).addr = s.addr := rfl
@[simp] theorem State.setOutput_data (b l : Bool) : (s.setOutput b l).data = s.data := rfl
@[simp] theorem State.setOutput_status (b l : Bool) : (s.setOutput b l).status = s.status := rfl
@[simp] theorem State.setOutput_buf (b l : Bool) : (s.setOutput b l).buf = s.buf := rfl
@[simp] theorem State.setOutput_sAddr (b l : Bool) : (s.setOutput b l).sAddr = s.sAddr := rfl
@[simp] theorem State.setOutput_sLd (b l : Bool) : (s.setOutput b l).sLd = s.sLd := rfl
@[simp] theorem State.setOutput_sFirst (b l : Bool) : (s.setOutput b l).sFirst = s.sFirst := rfl
@[simp] theorem State.setOutput_sAlarm (b l : Bool) : (s.setOutput b l).sAlarm = s.sAlarm := rfl
@[simp] theorem State.setOutput_sHalt (b l : Bool) : (s.setOutput b l).sHalt = s.sHalt := rfl
@[simp] theorem State.setOutput_inputs (b l : Bool) : (s.setOutput b l).inputs = s.inputs := rfl
@[simp] theorem State.setOutput_answers (b l : Bool) : (s.setOutput b l).answers = s.answers := rfl
@[simp] theorem State.setOutput_draws (b l : Bool) : (s.setOutput b l).draws = s.draws := rfl
@[simp] theorem State.setOutput_resets (b l : Bool) : (s.setOutput b l).resets = s.resets := rfl
@[simp] theorem State.setOutput_trace (b l : Bool) : (s.setOutput b l).trace = s.trace := rfl
@[simp] theorem State.setOutput_setOutput (b l c m : Bool) : (s.setOutput b l).setOutput c m = s.setOutput c m := rfl
@[simp] theorem State.setOe_setOutput (b l c : Bool) : (s.setOutput b l).setOe c = s.setOutput c l := rfl
@[simp] theorem State.settleOutput_eq : s.settleOutput = s.setOe false := rfl
@[simp] theorem State.platformRecovers_eq : s.platformRecovers = s.setOutput false false := rfl

@[simp] theorem State.setAddr_oe (a : Address) : (s.setAddr a).oe = s.oe := rfl
@[simp] theorem State.setAddr_outputLow (a : Address) : (s.setAddr a).outputLow = s.outputLow := rfl
@[simp] theorem State.setAddr_addr (a : Address) : (s.setAddr a).addr = a := rfl
@[simp] theorem State.setAddr_data (a : Address) : (s.setAddr a).data = s.data := rfl
@[simp] theorem State.setAddr_status (a : Address) : (s.setAddr a).status = s.status := rfl
@[simp] theorem State.setAddr_buf (a : Address) : (s.setAddr a).buf = s.buf := rfl
@[simp] theorem State.setAddr_sAddr (a : Address) : (s.setAddr a).sAddr = s.sAddr := rfl
@[simp] theorem State.setAddr_sLd (a : Address) : (s.setAddr a).sLd = s.sLd := rfl
@[simp] theorem State.setAddr_sFirst (a : Address) : (s.setAddr a).sFirst = s.sFirst := rfl
@[simp] theorem State.setAddr_sAlarm (a : Address) : (s.setAddr a).sAlarm = s.sAlarm := rfl
@[simp] theorem State.setAddr_sHalt (a : Address) : (s.setAddr a).sHalt = s.sHalt := rfl
@[simp] theorem State.setAddr_inputs (a : Address) : (s.setAddr a).inputs = s.inputs := rfl
@[simp] theorem State.setAddr_answers (a : Address) : (s.setAddr a).answers = s.answers := rfl
@[simp] theorem State.setAddr_draws (a : Address) : (s.setAddr a).draws = s.draws := rfl
@[simp] theorem State.setAddr_resets (a : Address) : (s.setAddr a).resets = s.resets := rfl
@[simp] theorem State.setAddr_trace (a : Address) : (s.setAddr a).trace = s.trace := rfl

@[simp] theorem State.setData_oe (v : Byte) : (s.setData v).oe = s.oe := rfl
@[simp] theorem State.setData_outputLow (v : Byte) : (s.setData v).outputLow = s.outputLow := rfl
@[simp] theorem State.setData_addr (v : Byte) : (s.setData v).addr = s.addr := rfl
@[simp] theorem State.setData_data (v : Byte) : (s.setData v).data = v := rfl
@[simp] theorem State.setData_status (v : Byte) : (s.setData v).status = s.status := rfl
@[simp] theorem State.setData_buf (v : Byte) : (s.setData v).buf = s.buf := rfl
@[simp] theorem State.setData_sAddr (v : Byte) : (s.setData v).sAddr = s.sAddr := rfl
@[simp] theorem State.setData_sLd (v : Byte) : (s.setData v).sLd = s.sLd := rfl
@[simp] theorem State.setData_sFirst (v : Byte) : (s.setData v).sFirst = s.sFirst := rfl
@[simp] theorem State.setData_sAlarm (v : Byte) : (s.setData v).sAlarm = s.sAlarm := rfl
@[simp] theorem State.setData_sHalt (v : Byte) : (s.setData v).sHalt = s.sHalt := rfl
@[simp] theorem State.setData_inputs (v : Byte) : (s.setData v).inputs = s.inputs := rfl
@[simp] theorem State.setData_answers (v : Byte) : (s.setData v).answers = s.answers := rfl
@[simp] theorem State.setData_draws (v : Byte) : (s.setData v).draws = s.draws := rfl
@[simp] theorem State.setData_resets (v : Byte) : (s.setData v).resets = s.resets := rfl
@[simp] theorem State.setData_trace (v : Byte) : (s.setData v).trace = s.trace := rfl

@[simp] theorem State.setStatus_oe (st : Byte) : (s.setStatus st).oe = s.oe := rfl
@[simp] theorem State.setStatus_outputLow (st : Byte) : (s.setStatus st).outputLow = s.outputLow := rfl
@[simp] theorem State.setStatus_addr (st : Byte) : (s.setStatus st).addr = s.addr := rfl
@[simp] theorem State.setStatus_data (st : Byte) : (s.setStatus st).data = s.data := rfl
@[simp] theorem State.setStatus_status (st : Byte) : (s.setStatus st).status = st := rfl
@[simp] theorem State.setStatus_buf (st : Byte) : (s.setStatus st).buf = s.buf := rfl
@[simp] theorem State.setStatus_sAddr (st : Byte) : (s.setStatus st).sAddr = s.sAddr := rfl
@[simp] theorem State.setStatus_sLd (st : Byte) : (s.setStatus st).sLd = s.sLd := rfl
@[simp] theorem State.setStatus_sFirst (st : Byte) : (s.setStatus st).sFirst = s.sFirst := rfl
@[simp] theorem State.setStatus_sAlarm (st : Byte) : (s.setStatus st).sAlarm = s.sAlarm := rfl
@[simp] theorem State.setStatus_sHalt (st : Byte) : (s.setStatus st).sHalt = s.sHalt := rfl
@[simp] theorem State.setStatus_inputs (st : Byte) : (s.setStatus st).inputs = s.inputs := rfl
@[simp] theorem State.setStatus_answers (st : Byte) : (s.setStatus st).answers = s.answers := rfl
@[simp] theorem State.setStatus_draws (st : Byte) : (s.setStatus st).draws = s.draws := rfl
@[simp] theorem State.setStatus_resets (st : Byte) : (s.setStatus st).resets = s.resets := rfl
@[simp] theorem State.setStatus_trace (st : Byte) : (s.setStatus st).trace = s.trace := rfl

@[simp] theorem State.bufWrite_oe (i : Nat) (v : Byte) : (s.bufWrite i v).oe = s.oe := rfl
@[simp] theorem State.bufWrite_outputLow (i : Nat) (v : Byte) : (s.bufWrite i v).outputLow = s.outputLow := rfl
@[simp] theorem State.bufWrite_addr (i : Nat) (v : Byte) : (s.bufWrite i v).addr = s.addr := rfl
@[simp] theorem State.bufWrite_data (i : Nat) (v : Byte) : (s.bufWrite i v).data = s.data := rfl
@[simp] theorem State.bufWrite_status (i : Nat) (v : Byte) : (s.bufWrite i v).status = s.status := rfl
@[simp] theorem State.bufWrite_buf (i : Nat) (v : Byte) : (s.bufWrite i v).buf = Memory.write s.buf i v := rfl
@[simp] theorem State.bufWrite_sAddr (i : Nat) (v : Byte) : (s.bufWrite i v).sAddr = s.sAddr := rfl
@[simp] theorem State.bufWrite_sLd (i : Nat) (v : Byte) : (s.bufWrite i v).sLd = s.sLd := rfl
@[simp] theorem State.bufWrite_sFirst (i : Nat) (v : Byte) : (s.bufWrite i v).sFirst = s.sFirst := rfl
@[simp] theorem State.bufWrite_sAlarm (i : Nat) (v : Byte) : (s.bufWrite i v).sAlarm = s.sAlarm := rfl
@[simp] theorem State.bufWrite_sHalt (i : Nat) (v : Byte) : (s.bufWrite i v).sHalt = s.sHalt := rfl
@[simp] theorem State.bufWrite_inputs (i : Nat) (v : Byte) : (s.bufWrite i v).inputs = s.inputs := rfl
@[simp] theorem State.bufWrite_answers (i : Nat) (v : Byte) : (s.bufWrite i v).answers = s.answers := rfl
@[simp] theorem State.bufWrite_draws (i : Nat) (v : Byte) : (s.bufWrite i v).draws = s.draws := rfl
@[simp] theorem State.bufWrite_resets (i : Nat) (v : Byte) : (s.bufWrite i v).resets = s.resets := rfl
@[simp] theorem State.bufWrite_trace (i : Nat) (v : Byte) : (s.bufWrite i v).trace = s.trace := rfl

@[simp] theorem State.setSearch_oe (a : Address) (ld : BitVec 7) (f : Bool) : (s.setSearch a ld f).oe = s.oe := rfl
@[simp] theorem State.setSearch_outputLow (a : Address) (ld : BitVec 7) (f : Bool) : (s.setSearch a ld f).outputLow = s.outputLow := rfl
@[simp] theorem State.setSearch_addr (a : Address) (ld : BitVec 7) (f : Bool) : (s.setSearch a ld f).addr = s.addr := rfl
@[simp] theorem State.setSearch_data (a : Address) (ld : BitVec 7) (f : Bool) : (s.setSearch a ld f).data = s.data := rfl
@[simp] theorem State.setSearch_status (a : Address) (ld : BitVec 7) (f : Bool) : (s.setSearch a ld f).status = s.status := rfl
@[simp] theorem State.setSearch_buf (a : Address) (ld : BitVec 7) (f : Bool) : (s.setSearch a ld f).buf = s.buf := rfl
@[simp] theorem State.setSearch_sAddr (a : Address) (ld : BitVec 7) (f : Bool) : (s.setSearch a ld f).sAddr = a := rfl
@[simp] theorem State.setSearch_sLd (a : Address) (ld : BitVec 7) (f : Bool) : (s.setSearch a ld f).sLd = ld := rfl
@[simp] theorem State.setSearch_sFirst (a : Address) (ld : BitVec 7) (f : Bool) : (s.setSearch a ld f).sFirst = f := rfl
@[simp] theorem State.setSearch_sAlarm (a : Address) (ld : BitVec 7) (f : Bool) : (s.setSearch a ld f).sAlarm = s.sAlarm := rfl
@[simp] theorem State.setSearch_sHalt (a : Address) (ld : BitVec 7) (f : Bool) : (s.setSearch a ld f).sHalt = s.sHalt := rfl
@[simp] theorem State.setSearch_inputs (a : Address) (ld : BitVec 7) (f : Bool) : (s.setSearch a ld f).inputs = s.inputs := rfl
@[simp] theorem State.setSearch_answers (a : Address) (ld : BitVec 7) (f : Bool) : (s.setSearch a ld f).answers = s.answers := rfl
@[simp] theorem State.setSearch_draws (a : Address) (ld : BitVec 7) (f : Bool) : (s.setSearch a ld f).draws = s.draws := rfl
@[simp] theorem State.setSearch_resets (a : Address) (ld : BitVec 7) (f : Bool) : (s.setSearch a ld f).resets = s.resets := rfl
@[simp] theorem State.setSearch_trace (a : Address) (ld : BitVec 7) (f : Bool) : (s.setSearch a ld f).trace = s.trace := rfl

@[simp] theorem State.setAlarm_oe (b : Bool) : (s.setAlarm b).oe = s.oe := rfl
@[simp] theorem State.setAlarm_outputLow (b : Bool) : (s.setAlarm b).outputLow = s.outputLow := rfl
@[simp] theorem State.setAlarm_addr (b : Bool) : (s.setAlarm b).addr = s.addr := rfl
@[simp] theorem State.setAlarm_data (b : Bool) : (s.setAlarm b).data = s.data := rfl
@[simp] theorem State.setAlarm_status (b : Bool) : (s.setAlarm b).status = s.status := rfl
@[simp] theorem State.setAlarm_buf (b : Bool) : (s.setAlarm b).buf = s.buf := rfl
@[simp] theorem State.setAlarm_sAddr (b : Bool) : (s.setAlarm b).sAddr = s.sAddr := rfl
@[simp] theorem State.setAlarm_sLd (b : Bool) : (s.setAlarm b).sLd = s.sLd := rfl
@[simp] theorem State.setAlarm_sFirst (b : Bool) : (s.setAlarm b).sFirst = s.sFirst := rfl
@[simp] theorem State.setAlarm_sAlarm (b : Bool) : (s.setAlarm b).sAlarm = b := rfl
@[simp] theorem State.setAlarm_sHalt (b : Bool) : (s.setAlarm b).sHalt = s.sHalt := rfl
@[simp] theorem State.setAlarm_inputs (b : Bool) : (s.setAlarm b).inputs = s.inputs := rfl
@[simp] theorem State.setAlarm_answers (b : Bool) : (s.setAlarm b).answers = s.answers := rfl
@[simp] theorem State.setAlarm_draws (b : Bool) : (s.setAlarm b).draws = s.draws := rfl
@[simp] theorem State.setAlarm_resets (b : Bool) : (s.setAlarm b).resets = s.resets := rfl
@[simp] theorem State.setAlarm_trace (b : Bool) : (s.setAlarm b).trace = s.trace := rfl

@[simp] theorem State.setHalt_oe (b : Bool) : (s.setHalt b).oe = s.oe := rfl
@[simp] theorem State.setHalt_outputLow (b : Bool) : (s.setHalt b).outputLow = s.outputLow := rfl
@[simp] theorem State.setHalt_addr (b : Bool) : (s.setHalt b).addr = s.addr := rfl
@[simp] theorem State.setHalt_data (b : Bool) : (s.setHalt b).data = s.data := rfl
@[simp] theorem State.setHalt_status (b : Bool) : (s.setHalt b).status = s.status := rfl
@[simp] theorem State.setHalt_buf (b : Bool) : (s.setHalt b).buf = s.buf := rfl
@[simp] theorem State.setHalt_sAddr (b : Bool) : (s.setHalt b).sAddr = s.sAddr := rfl
@[simp] theorem State.setHalt_sLd (b : Bool) : (s.setHalt b).sLd = s.sLd := rfl
@[simp] theorem State.setHalt_sFirst (b : Bool) : (s.setHalt b).sFirst = s.sFirst := rfl
@[simp] theorem State.setHalt_sAlarm (b : Bool) : (s.setHalt b).sAlarm = s.sAlarm := rfl
@[simp] theorem State.setHalt_sHalt (b : Bool) : (s.setHalt b).sHalt = b := rfl
@[simp] theorem State.setHalt_inputs (b : Bool) : (s.setHalt b).inputs = s.inputs := rfl
@[simp] theorem State.setHalt_answers (b : Bool) : (s.setHalt b).answers = s.answers := rfl
@[simp] theorem State.setHalt_draws (b : Bool) : (s.setHalt b).draws = s.draws := rfl
@[simp] theorem State.setHalt_resets (b : Bool) : (s.setHalt b).resets = s.resets := rfl
@[simp] theorem State.setHalt_trace (b : Bool) : (s.setHalt b).trace = s.trace := rfl

@[simp] theorem State.setInputs_oe (is : List HostInput) : (s.setInputs is).oe = s.oe := rfl
@[simp] theorem State.setInputs_outputLow (is : List HostInput) : (s.setInputs is).outputLow = s.outputLow := rfl
@[simp] theorem State.setInputs_addr (is : List HostInput) : (s.setInputs is).addr = s.addr := rfl
@[simp] theorem State.setInputs_data (is : List HostInput) : (s.setInputs is).data = s.data := rfl
@[simp] theorem State.setInputs_status (is : List HostInput) : (s.setInputs is).status = s.status := rfl
@[simp] theorem State.setInputs_buf (is : List HostInput) : (s.setInputs is).buf = s.buf := rfl
@[simp] theorem State.setInputs_sAddr (is : List HostInput) : (s.setInputs is).sAddr = s.sAddr := rfl
@[simp] theorem State.setInputs_sLd (is : List HostInput) : (s.setInputs is).sLd = s.sLd := rfl
@[simp] theorem State.setInputs_sFirst (is : List HostInput) : (s.setInputs is).sFirst = s.sFirst := rfl
@[simp] theorem State.setInputs_sAlarm (is : List HostInput) : (s.setInputs is).sAlarm = s.sAlarm := rfl
@[simp] theorem State.setInputs_sHalt (is : List HostInput) : (s.setInputs is).sHalt = s.sHalt := rfl
@[simp] theorem State.setInputs_inputs (is : List HostInput) : (s.setInputs is).inputs = is := rfl
@[simp] theorem State.setInputs_answers (is : List HostInput) : (s.setInputs is).answers = s.answers := rfl
@[simp] theorem State.setInputs_draws (is : List HostInput) : (s.setInputs is).draws = s.draws := rfl
@[simp] theorem State.setInputs_resets (is : List HostInput) : (s.setInputs is).resets = s.resets := rfl
@[simp] theorem State.setInputs_trace (is : List HostInput) : (s.setInputs is).trace = s.trace := rfl

@[simp] theorem State.log_oe (e : LineEvent) : (s.log e).oe = s.oe := rfl
@[simp] theorem State.log_outputLow (e : LineEvent) : (s.log e).outputLow = s.outputLow := rfl
@[simp] theorem State.log_addr (e : LineEvent) : (s.log e).addr = s.addr := rfl
@[simp] theorem State.log_data (e : LineEvent) : (s.log e).data = s.data := rfl
@[simp] theorem State.log_status (e : LineEvent) : (s.log e).status = s.status := rfl
@[simp] theorem State.log_buf (e : LineEvent) : (s.log e).buf = s.buf := rfl
@[simp] theorem State.log_sAddr (e : LineEvent) : (s.log e).sAddr = s.sAddr := rfl
@[simp] theorem State.log_sLd (e : LineEvent) : (s.log e).sLd = s.sLd := rfl
@[simp] theorem State.log_sFirst (e : LineEvent) : (s.log e).sFirst = s.sFirst := rfl
@[simp] theorem State.log_sAlarm (e : LineEvent) : (s.log e).sAlarm = s.sAlarm := rfl
@[simp] theorem State.log_sHalt (e : LineEvent) : (s.log e).sHalt = s.sHalt := rfl
@[simp] theorem State.log_inputs (e : LineEvent) : (s.log e).inputs = s.inputs := rfl
@[simp] theorem State.log_answers (e : LineEvent) : (s.log e).answers = s.answers := rfl
@[simp] theorem State.log_draws (e : LineEvent) : (s.log e).draws = s.draws := rfl
@[simp] theorem State.log_resets (e : LineEvent) : (s.log e).resets = s.resets := rfl
@[simp] theorem State.log_trace (e : LineEvent) : (s.log e).trace = s.trace ++ [e] := rfl

@[simp] theorem State.consume_oe (n : Nat) : (s.consume n).oe = s.oe := rfl
@[simp] theorem State.consume_outputLow (n : Nat) : (s.consume n).outputLow = s.outputLow := rfl
@[simp] theorem State.consume_addr (n : Nat) : (s.consume n).addr = s.addr := rfl
@[simp] theorem State.consume_data (n : Nat) : (s.consume n).data = s.data := rfl
@[simp] theorem State.consume_status (n : Nat) : (s.consume n).status = s.status := rfl
@[simp] theorem State.consume_buf (n : Nat) : (s.consume n).buf = s.buf := rfl
@[simp] theorem State.consume_sAddr (n : Nat) : (s.consume n).sAddr = s.sAddr := rfl
@[simp] theorem State.consume_sLd (n : Nat) : (s.consume n).sLd = s.sLd := rfl
@[simp] theorem State.consume_sFirst (n : Nat) : (s.consume n).sFirst = s.sFirst := rfl
@[simp] theorem State.consume_sAlarm (n : Nat) : (s.consume n).sAlarm = s.sAlarm := rfl
@[simp] theorem State.consume_sHalt (n : Nat) : (s.consume n).sHalt = s.sHalt := rfl
@[simp] theorem State.consume_inputs (n : Nat) : (s.consume n).inputs = s.inputs := rfl
@[simp] theorem State.consume_answers (n : Nat) : (s.consume n).answers = s.answers.drop n := rfl
@[simp] theorem State.consume_draws (n : Nat) : (s.consume n).draws = s.draws + (n - s.answers.length) := rfl
@[simp] theorem State.consume_resets (n : Nat) : (s.consume n).resets = s.resets := rfl
@[simp] theorem State.consume_trace (n : Nat) : (s.consume n).trace = s.trace := rfl

@[simp] theorem State.setCode_oe (c : BitVec 3) : (s.setCode c).oe = s.oe := rfl
@[simp] theorem State.setCode_outputLow (c : BitVec 3) : (s.setCode c).outputLow = s.outputLow := rfl
@[simp] theorem State.setCode_addr (c : BitVec 3) : (s.setCode c).addr = s.addr := rfl
@[simp] theorem State.setCode_data (c : BitVec 3) : (s.setCode c).data = s.data := rfl
@[simp] theorem State.setCode_status (c : BitVec 3) : (s.setCode c).status = withCode s.status c := rfl
@[simp] theorem State.setCode_buf (c : BitVec 3) : (s.setCode c).buf = s.buf := rfl
@[simp] theorem State.setCode_sAddr (c : BitVec 3) : (s.setCode c).sAddr = s.sAddr := rfl
@[simp] theorem State.setCode_sLd (c : BitVec 3) : (s.setCode c).sLd = s.sLd := rfl
@[simp] theorem State.setCode_sFirst (c : BitVec 3) : (s.setCode c).sFirst = s.sFirst := rfl
@[simp] theorem State.setCode_sAlarm (c : BitVec 3) : (s.setCode c).sAlarm = s.sAlarm := rfl
@[simp] theorem State.setCode_sHalt (c : BitVec 3) : (s.setCode c).sHalt = s.sHalt := rfl
@[simp] theorem State.setCode_inputs (c : BitVec 3) : (s.setCode c).inputs = s.inputs := rfl
@[simp] theorem State.setCode_answers (c : BitVec 3) : (s.setCode c).answers = s.answers := rfl
@[simp] theorem State.setCode_draws (c : BitVec 3) : (s.setCode c).draws = s.draws := rfl
@[simp] theorem State.setCode_resets (c : BitVec 3) : (s.setCode c).resets = s.resets := rfl
@[simp] theorem State.setCode_trace (c : BitVec 3) : (s.setCode c).trace = s.trace := rfl

@[simp] theorem State.setPresence_oe (b : Bool) : (s.setPresence b).oe = s.oe := rfl
@[simp] theorem State.setPresence_outputLow (b : Bool) : (s.setPresence b).outputLow = s.outputLow := rfl
@[simp] theorem State.setPresence_addr (b : Bool) : (s.setPresence b).addr = s.addr := rfl
@[simp] theorem State.setPresence_data (b : Bool) : (s.setPresence b).data = s.data := rfl
@[simp] theorem State.setPresence_status (b : Bool) : (s.setPresence b).status = withPresence s.status b := rfl
@[simp] theorem State.setPresence_buf (b : Bool) : (s.setPresence b).buf = s.buf := rfl
@[simp] theorem State.setPresence_sAddr (b : Bool) : (s.setPresence b).sAddr = s.sAddr := rfl
@[simp] theorem State.setPresence_sLd (b : Bool) : (s.setPresence b).sLd = s.sLd := rfl
@[simp] theorem State.setPresence_sFirst (b : Bool) : (s.setPresence b).sFirst = s.sFirst := rfl
@[simp] theorem State.setPresence_sAlarm (b : Bool) : (s.setPresence b).sAlarm = s.sAlarm := rfl
@[simp] theorem State.setPresence_sHalt (b : Bool) : (s.setPresence b).sHalt = s.sHalt := rfl
@[simp] theorem State.setPresence_inputs (b : Bool) : (s.setPresence b).inputs = s.inputs := rfl
@[simp] theorem State.setPresence_answers (b : Bool) : (s.setPresence b).answers = s.answers := rfl
@[simp] theorem State.setPresence_draws (b : Bool) : (s.setPresence b).draws = s.draws := rfl
@[simp] theorem State.setPresence_resets (b : Bool) : (s.setPresence b).resets = s.resets := rfl
@[simp] theorem State.setPresence_trace (b : Bool) : (s.setPresence b).trace = s.trace := rfl

@[simp] theorem State.setFound_oe (b : Bool) : (s.setFound b).oe = s.oe := rfl
@[simp] theorem State.setFound_outputLow (b : Bool) : (s.setFound b).outputLow = s.outputLow := rfl
@[simp] theorem State.setFound_addr (b : Bool) : (s.setFound b).addr = s.addr := rfl
@[simp] theorem State.setFound_data (b : Bool) : (s.setFound b).data = s.data := rfl
@[simp] theorem State.setFound_status (b : Bool) : (s.setFound b).status = withFound s.status b := rfl
@[simp] theorem State.setFound_buf (b : Bool) : (s.setFound b).buf = s.buf := rfl
@[simp] theorem State.setFound_sAddr (b : Bool) : (s.setFound b).sAddr = s.sAddr := rfl
@[simp] theorem State.setFound_sLd (b : Bool) : (s.setFound b).sLd = s.sLd := rfl
@[simp] theorem State.setFound_sFirst (b : Bool) : (s.setFound b).sFirst = s.sFirst := rfl
@[simp] theorem State.setFound_sAlarm (b : Bool) : (s.setFound b).sAlarm = s.sAlarm := rfl
@[simp] theorem State.setFound_sHalt (b : Bool) : (s.setFound b).sHalt = s.sHalt := rfl
@[simp] theorem State.setFound_inputs (b : Bool) : (s.setFound b).inputs = s.inputs := rfl
@[simp] theorem State.setFound_answers (b : Bool) : (s.setFound b).answers = s.answers := rfl
@[simp] theorem State.setFound_draws (b : Bool) : (s.setFound b).draws = s.draws := rfl
@[simp] theorem State.setFound_resets (b : Bool) : (s.setFound b).resets = s.resets := rfl
@[simp] theorem State.setFound_trace (b : Bool) : (s.setFound b).trace = s.trace := rfl

@[simp] theorem State.after_setOe_false (n : Nat) (es : List LineEvent) : (s.after n es).setOe false = s.after n es := rfl
@[simp] theorem State.after_oe (n : Nat) (es : List LineEvent) : (s.after n es).oe = false := rfl
@[simp] theorem State.after_outputLow (n : Nat) (es : List LineEvent) : (s.after n es).outputLow = false := rfl
@[simp] theorem State.after_addr (n : Nat) (es : List LineEvent) : (s.after n es).addr = s.addr := rfl
@[simp] theorem State.after_data (n : Nat) (es : List LineEvent) : (s.after n es).data = s.data := rfl
@[simp] theorem State.after_status (n : Nat) (es : List LineEvent) : (s.after n es).status = s.status := rfl
@[simp] theorem State.after_buf (n : Nat) (es : List LineEvent) : (s.after n es).buf = s.buf := rfl
@[simp] theorem State.after_sAddr (n : Nat) (es : List LineEvent) : (s.after n es).sAddr = s.sAddr := rfl
@[simp] theorem State.after_sLd (n : Nat) (es : List LineEvent) : (s.after n es).sLd = s.sLd := rfl
@[simp] theorem State.after_sFirst (n : Nat) (es : List LineEvent) : (s.after n es).sFirst = s.sFirst := rfl
@[simp] theorem State.after_sAlarm (n : Nat) (es : List LineEvent) : (s.after n es).sAlarm = s.sAlarm := rfl
@[simp] theorem State.after_sHalt (n : Nat) (es : List LineEvent) : (s.after n es).sHalt = s.sHalt := rfl
@[simp] theorem State.after_inputs (n : Nat) (es : List LineEvent) : (s.after n es).inputs = s.inputs := rfl
@[simp] theorem State.after_answers (n : Nat) (es : List LineEvent) : (s.after n es).answers = s.answers.drop n := rfl
@[simp] theorem State.after_draws (n : Nat) (es : List LineEvent) : (s.after n es).draws = s.draws + (n - s.answers.length) := rfl
@[simp] theorem State.after_resets (n : Nat) (es : List LineEvent) : (s.after n es).resets = s.resets := rfl
@[simp] theorem State.after_trace (n : Nat) (es : List LineEvent) : (s.after n es).trace = s.trace ++ es := rfl

@[simp] theorem State.hardReset_oe : s.hardReset.oe = false := rfl
@[simp] theorem State.hardReset_outputLow : s.hardReset.outputLow = false := rfl
@[simp] theorem State.hardReset_addr : s.hardReset.addr = Config.resetAddr (s.resets + 1) := rfl
@[simp] theorem State.hardReset_data : s.hardReset.data = Config.resetData (s.resets + 1) := rfl
@[simp] theorem State.hardReset_status : s.hardReset.status = 0x00 := rfl
@[simp] theorem State.hardReset_buf : s.hardReset.buf = [] := rfl
@[simp] theorem State.hardReset_sAddr : s.hardReset.sAddr = Config.resetSAddr (s.resets + 1) := rfl
@[simp] theorem State.hardReset_sLd : s.hardReset.sLd = BitVec.ofNat 7 (Config.resetSLd (s.resets + 1)).val := rfl
@[simp] theorem State.hardReset_sFirst : s.hardReset.sFirst = Config.resetSFirst (s.resets + 1) := rfl
@[simp] theorem State.hardReset_sAlarm : s.hardReset.sAlarm = Config.resetSAlarm (s.resets + 1) := rfl
@[simp] theorem State.hardReset_sHalt : s.hardReset.sHalt = true := rfl
@[simp] theorem State.hardReset_inputs : s.hardReset.inputs = s.inputs := rfl
@[simp] theorem State.hardReset_answers : s.hardReset.answers = s.answers := rfl
@[simp] theorem State.hardReset_draws : s.hardReset.draws = s.draws := rfl
@[simp] theorem State.hardReset_resets : s.hardReset.resets = s.resets + 1 := rfl
@[simp] theorem State.hardReset_trace : s.hardReset.trace = s.trace := rfl

@[simp] theorem FaultedOutput.released_oe : FaultedOutput.released.oe = false := rfl
@[simp] theorem FaultedOutput.released_low : FaultedOutput.released.low = false := rfl

/-! ## What `Sample` reads -/

/-- On a released line `Sample` reads what the rest of the line shows (R21). -/
theorem State.Released.lineLevel {s : State} (h : s.Released) (l : Bool) : s.lineLevel l = l := by
  simp [State.lineLevel, h.1, h.2]

/-- While the output drives the line, `Sample` reads low (R21, R221). -/
theorem State.lineLevel_of_low {s : State} (h : s.outputLow = true) (l : Bool) : s.lineLevel l = false := by
  simp [State.lineLevel, h]

/-- A sample that reads high saw a released line (R21). -/
theorem State.Released.of_lineLevel {s : State} {l : Bool} (h : s.lineLevel l = true) : s.Released := by
  simp [State.lineLevel] at h
  exact ⟨h.1.2, h.2⟩

@[simp] theorem State.lineLevel_consume (s : State) (n : Nat) (l : Bool) : (s.consume n).lineLevel l = s.lineLevel l := rfl
@[simp] theorem State.lineLevel_log (s : State) (e : LineEvent) (l : Bool) : (s.log e).lineLevel l = s.lineLevel l := rfl
@[simp] theorem State.lineLevel_setOutput (s : State) (b m l : Bool) :
    (s.setOutput b m).lineLevel l = (l && !b && !m) := rfl

end Sys2Proof.Machine
end

