-- ==== Sys2Proof/Laws/Bits.lean ====
section
/-! SUPPORT. Bits of registers: bit insert, the bytes of an address, the fields of `STATUS`. -/

namespace Sys2Proof.Machine

/-! ## Bit insert -/

theorem getLsbD_setBit {w : Nat} (v : BitVec w) (i j : Nat) (b : Bool) :
    (setBit v i b).getLsbD j = if j = i ∧ i < w then b else v.getLsbD j := by
  unfold setBit
  by_cases hw : j < w
  · cases b <;> by_cases hij : j = i
    · subst hij
      simp [hw]
    · have hji : ¬i = j := fun h => hij h.symm
      simp [hij, hw]
    · subst hij
      simp [hw]
    · have hji : ¬i = j := fun h => hij h.symm
      simp [hij, hji]
  · have hv : v.getLsbD j = false := BitVec.getLsbD_of_ge v j (by omega)
    have hn : ¬(j = i ∧ i < w) := by omega
    rw [if_neg hn, hv]
    exact BitVec.getLsbD_of_ge _ j (by omega)

theorem getLsbD_setBit_self {w : Nat} (v : BitVec w) (i : Nat) (b : Bool) (h : i < w) :
    (setBit v i b).getLsbD i = b := by rw [getLsbD_setBit, if_pos ⟨rfl, h⟩]

theorem getLsbD_setBit_of_ne {w : Nat} (v : BitVec w) (i j : Nat) (b : Bool) (h : j ≠ i) :
    (setBit v i b).getLsbD j = v.getLsbD j := by rw [getLsbD_setBit, if_neg fun h' => h h'.1]

/-- Bits `0..n-1` inserted in turn: each takes its value, the others stay. -/
theorem getLsbD_foldl_setBit {w : Nat} (f : Nat → Bool) (v : BitVec w) (n j : Nat) :
    ((List.range n).foldl (fun v i => setBit v i (f i)) v).getLsbD j =
      if j < n ∧ j < w then f j else v.getLsbD j := by
  induction n with
  | zero => simp
  | succ n ih =>
    rw [List.range_succ, List.foldl_append, List.foldl_cons, List.foldl_nil, getLsbD_setBit, ih]
    by_cases h : j = n
    · subst h; by_cases hw : j < w <;> simp [hw]
    · by_cases hn : j < n <;> by_cases hw : j < w <;> simp [h, hn, hw] <;> omega

/-! ## Bytes of an address -/

theorem getLsbD_addrByte (a : Address) (k i : Nat) :
    (addrByte a k).getLsbD i = (decide (i < 8) && a.getLsbD (8 * k + i)) := by
  simp [addrByte, BitVec.getLsbD_extractLsb']

theorem getLsbD_setAddrByte (a : Address) (k : Nat) (v : Byte) (hk : k < 8) (j : Nat) :
    (setAddrByte a k v).getLsbD j =
      if 8 * k ≤ j ∧ j < 8 * k + 8 then v.getLsbD (j - 8 * k) else a.getLsbD j := by
  have fold : ∀ n ≤ 8, ((List.range n).foldl (fun a i => setBit a (8 * k + i) (v.getLsbD i)) a).getLsbD j =
      if 8 * k ≤ j ∧ j < 8 * k + n then v.getLsbD (j - 8 * k) else a.getLsbD j := by
    intro n
    induction n with
    | zero => intro _; rw [if_neg (by omega)]; rfl
    | succ n ih =>
      intro hn
      rw [List.range_succ, List.foldl_append, List.foldl_cons, List.foldl_nil, getLsbD_setBit, ih (by omega)]
      by_cases h : j = 8 * k + n
      · subst h
        rw [if_pos (by omega), if_pos (by omega)]
        congr 1
        omega
      · rw [if_neg (by omega)]
        by_cases h' : 8 * k ≤ j ∧ j < 8 * k + n
        · rw [if_pos h', if_pos (by omega)]
        · rw [if_neg h', if_neg (by omega)]
  exact fold 8 (Nat.le_refl 8)

/-! ## Fields of STATUS -/

theorem getLsbD_withCode (st : Byte) (c : BitVec 3) (j : Nat) :
    (withCode st c).getLsbD j = if j < 3 then c.getLsbD j else st.getLsbD j := by
  unfold withCode
  rw [getLsbD_setBit, getLsbD_setBit, getLsbD_setBit]
  rcases j with _ | _ | _ | j <;> simp

theorem getLsbD_withPresence (st : Byte) (b : Bool) (j : Nat) :
    (withPresence st b).getLsbD j = if j = 3 then b else st.getLsbD j := by
  simp [withPresence, getLsbD_setBit]

theorem getLsbD_withFound (st : Byte) (b : Bool) (j : Nat) :
    (withFound st b).getLsbD j = if j = 4 then b else st.getLsbD j := by
  simp [withFound, getLsbD_setBit]

theorem statusCode_ext (st st' : Byte) (h : ∀ j < 3, st.getLsbD j = st'.getLsbD j) :
    statusCode st = statusCode st' := by
  apply BitVec.eq_of_getLsbD_eq
  intro i hi
  simp only [statusCode, BitVec.getLsbD_extractLsb', Nat.zero_add, h i hi]

theorem statusReserved_ext (st st' : Byte) (h : ∀ j, 5 ≤ j → j < 8 → st.getLsbD j = st'.getLsbD j) :
    statusReserved st = statusReserved st' := by
  apply BitVec.eq_of_getLsbD_eq
  intro i hi
  simp only [statusReserved, BitVec.getLsbD_extractLsb', h (5 + i) (by omega) (by omega)]

@[simp] theorem statusCode_withCode (st : Byte) (c : BitVec 3) : statusCode (withCode st c) = c := by
  apply BitVec.eq_of_getLsbD_eq
  intro i hi
  simp only [statusCode, BitVec.getLsbD_extractLsb', Nat.zero_add, getLsbD_withCode, hi, if_true,
    decide_true, Bool.true_and]

@[simp] theorem statusPresence_withCode (st : Byte) (c : BitVec 3) :
    statusPresence (withCode st c) = statusPresence st := getLsbD_withCode st c 3

@[simp] theorem statusFound_withCode (st : Byte) (c : BitVec 3) :
    statusFound (withCode st c) = statusFound st := getLsbD_withCode st c 4

@[simp] theorem statusReserved_withCode (st : Byte) (c : BitVec 3) :
    statusReserved (withCode st c) = statusReserved st :=
  statusReserved_ext _ _ fun j h _ => by rw [getLsbD_withCode, if_neg (by omega)]

@[simp] theorem statusCode_withPresence (st : Byte) (b : Bool) :
    statusCode (withPresence st b) = statusCode st :=
  statusCode_ext _ _ fun j h => by rw [getLsbD_withPresence, if_neg (by omega)]

@[simp] theorem statusPresence_withPresence (st : Byte) (b : Bool) :
    statusPresence (withPresence st b) = b := getLsbD_withPresence st b 3

@[simp] theorem statusFound_withPresence (st : Byte) (b : Bool) :
    statusFound (withPresence st b) = statusFound st := getLsbD_withPresence st b 4

@[simp] theorem statusReserved_withPresence (st : Byte) (b : Bool) :
    statusReserved (withPresence st b) = statusReserved st :=
  statusReserved_ext _ _ fun j h _ => by rw [getLsbD_withPresence, if_neg (by omega)]

@[simp] theorem statusCode_withFound (st : Byte) (b : Bool) : statusCode (withFound st b) = statusCode st :=
  statusCode_ext _ _ fun j h => by rw [getLsbD_withFound, if_neg (by omega)]

@[simp] theorem statusPresence_withFound (st : Byte) (b : Bool) :
    statusPresence (withFound st b) = statusPresence st := getLsbD_withFound st b 3

@[simp] theorem statusFound_withFound (st : Byte) (b : Bool) : statusFound (withFound st b) = b :=
  getLsbD_withFound st b 4

@[simp] theorem statusReserved_withFound (st : Byte) (b : Bool) :
    statusReserved (withFound st b) = statusReserved st :=
  statusReserved_ext _ _ fun j h _ => by rw [getLsbD_withFound, if_neg (by omega)]

@[simp] theorem withCode_withCode (st : Byte) (c d : BitVec 3) : withCode (withCode st c) d = withCode st d := by
  apply BitVec.eq_of_getLsbD_eq
  intro i _
  simp only [getLsbD_withCode]
  split <;> rfl

theorem withPresence_withCode (st : Byte) (c : BitVec 3) (b : Bool) :
    withPresence (withCode st c) b = withCode (withPresence st b) c := by
  apply BitVec.eq_of_getLsbD_eq
  intro i _
  simp only [getLsbD_withCode, getLsbD_withPresence]
  split <;> split <;> first | rfl | omega

theorem withFound_withCode (st : Byte) (c : BitVec 3) (b : Bool) :
    withFound (withCode st c) b = withCode (withFound st b) c := by
  apply BitVec.eq_of_getLsbD_eq
  intro i _
  simp only [getLsbD_withCode, getLsbD_withFound]
  split <;> split <;> first | rfl | omega

/-- `STATUS` is its four fields (R24). -/
theorem status_ext (st st' : Byte) (hc : statusCode st = statusCode st') (hp : statusPresence st = statusPresence st')
    (hf : statusFound st = statusFound st') (hr : statusReserved st = statusReserved st') : st = st' := by
  apply BitVec.eq_of_getLsbD_eq
  intro i hi
  have bit : ∀ (k : Nat) (x y : BitVec 3), x = y → x.getLsbD k = y.getLsbD k := fun _ _ _ h => by rw [h]
  have c := fun k => bit k _ _ hc
  have r := fun k => bit k _ _ hr
  simp only [statusCode, statusReserved, BitVec.getLsbD_extractLsb'] at c r
  have c0 := c 0
  have c1 := c 1
  have c2 := c 2
  have r0 := r 0
  have r1 := r 1
  have r2 := r 2
  simp at c0 c1 c2 r0 r1 r2
  simp only [statusPresence, statusFound] at hp hf
  rcases (by omega : i = 0 ∨ i = 1 ∨ i = 2 ∨ i = 3 ∨ i = 4 ∨ i = 5 ∨ i = 6 ∨ i = 7) with
    h | h | h | h | h | h | h | h <;> subst h <;> simpa using ‹_›

theorem ErrorKind.code_ne_zero (e : ErrorKind) : e.code ≠ okCode := by cases e <;> decide

theorem ErrorKind.code_ne_seven (e : ErrorKind) : e.code ≠ 7 := by cases e <;> decide

theorem ErrorKind.code_injective (e f : ErrorKind) (h : e.code = f.code) : e = f := by
  cases e <;> cases f <;> first | rfl | exact absurd h (by decide)

end Sys2Proof.Machine
end

