-- ==== Sys2Proof/Laws/Proc.lean ====
section
/-! SUPPORT. Rules for procedures: how they compose, a relation every action keeps, and pre- and postconditions. -/

namespace Sys2Proof.Machine

variable {α β ι : Type}

@[simp] theorem Res.state_done (a : α) (s : State) : (Res.done a s).state = s := rfl
@[simp] theorem Res.state_raised (e : ErrorKind) (s : State) : (Res.raised (α := α) e s).state = s := rfl

namespace Proc

@[simp] theorem pure_apply (a : α) (s : State) : pure a s = .done a s := rfl
@[simp] theorem raise_apply (e : ErrorKind) (s : State) : raise (α := α) e s = .raised e s := rfl
@[simp] theorem update_apply (g : State → State) (s : State) : update g s = .done () (g s) := rfl

theorem andThen_done {p : Proc α} {f : α → Proc β} {s t : State} {a : α} (h : p s = .done a t) :
    p.andThen f s = f a t := by simp [andThen, h]

theorem andThen_raised {p : Proc α} {f : α → Proc β} {s t : State} {e : ErrorKind} (h : p s = .raised e t) :
    p.andThen f s = .raised e t := by simp [andThen, h]

theorem onRaise_done {p : Proc α} {g : State → State} {s t : State} {a : α} (h : p s = .done a t) :
    p.onRaise g s = .done a t := by simp [onRaise, h]

theorem onRaise_raised {p : Proc α} {g : State → State} {s t : State} {e : ErrorKind} (h : p s = .raised e t) :
    p.onRaise g s = .raised e (g t) := by simp [onRaise, h]

@[simp] theorem fold_nil (f : β → ι → Proc β) (b : β) (s : State) : fold f b [] s = .done b s := rfl
@[simp] theorem forEach_nil (f : ι → Proc Unit) (s : State) : forEach f [] s = .done () s := rfl

theorem andThen_assoc {γ : Type} (p : Proc α) (f : α → Proc β) (g : β → Proc γ) :
    (p.andThen f).andThen g = p.andThen fun a => (f a).andThen g := by
  funext s
  cases h : p s <;> simp [andThen, h]

theorem fold_append (f : β → ι → Proc β) (b : β) (xs ys : List ι) :
    fold f b (xs ++ ys) = (fold f b xs).andThen fun b' => fold f b' ys := by
  induction xs generalizing b with
  | nil => rfl
  | cons x xs ih =>
    show (f b x).andThen (fun b' => fold f b' (xs ++ ys)) = _
    simp only [ih]
    exact (andThen_assoc _ _ _).symm

/-- A loop without a result is the loop whose result carries nothing. -/
theorem forEach_eq_fold (f : ι → Proc Unit) (xs : List ι) : forEach f xs = fold (fun _ x => f x) () xs := by
  induction xs with
  | nil => rfl
  | cons x xs ih => simp only [forEach, fold, ih]

theorem forEach_append (f : ι → Proc Unit) (xs ys : List ι) :
    forEach f (xs ++ ys) = (forEach f xs).andThen fun _ => forEach f ys := by
  simp only [forEach_eq_fold, fold_append]

/-! ## A relation between the state before and after -/

/-- However `p` ends, the state it leaves is related to the one it began in. -/
def Keeps (R : State → State → Prop) (p : Proc α) : Prop := ∀ s, R s (p s).state

section keeps

variable {R : State → State → Prop}

theorem keeps_pure (refl : ∀ s, R s s) (a : α) : Keeps R (pure a) := fun s => refl s

theorem keeps_raise (refl : ∀ s, R s s) (e : ErrorKind) : Keeps R (raise (α := α) e) := fun s => refl s

theorem keeps_andThen (trans : ∀ s t u, R s t → R t u → R s u) {p : Proc α} {f : α → Proc β}
    (hp : Keeps R p) (hf : ∀ a, Keeps R (f a)) : Keeps R (p.andThen f) := by
  intro s
  have h1 := hp s
  cases h : p s with
  | done a t =>
    rw [h] at h1
    rw [andThen_done h]
    exact trans _ _ _ h1 (hf a t)
  | raised e t =>
    rw [h] at h1
    rw [andThen_raised h]
    exact h1

theorem keeps_fold (refl : ∀ s, R s s) (trans : ∀ s t u, R s t → R t u → R s u) {f : β → ι → Proc β}
    {xs : List ι} (hf : ∀ b, ∀ x ∈ xs, Keeps R (f b x)) (b : β) : Keeps R (fold f b xs) := by
  induction xs generalizing b with
  | nil => exact keeps_pure refl b
  | cons x xs ih =>
    exact keeps_andThen trans (hf b x (List.mem_cons_self ..))
      fun b' => ih (fun b'' y hy => hf b'' y (List.mem_cons_of_mem x hy)) b'

theorem keeps_forEach (refl : ∀ s, R s s) (trans : ∀ s t u, R s t → R t u → R s u) {f : ι → Proc Unit}
    {xs : List ι} (hf : ∀ x ∈ xs, Keeps R (f x)) : Keeps R (forEach f xs) := by
  rw [forEach_eq_fold]
  exact keeps_fold refl trans (fun _ x hx => hf x hx) ()

theorem keeps_onRaise (trans : ∀ s t u, R s t → R t u → R s u) {p : Proc α} {g : State → State}
    (hp : Keeps R p) (hg : ∀ s, R s (g s)) : Keeps R (p.onRaise g) := by
  intro s
  have h1 := hp s
  cases h : p s with
  | done a t =>
    rw [h] at h1
    rw [onRaise_done h]
    exact h1
  | raised e t =>
    rw [h] at h1
    rw [onRaise_raised h]
    exact trans _ _ _ h1 (hg t)

end keeps

/-! ## Pre- and postconditions -/

/-- From a state with `P`, `p` ends with a result and `Q`, or raises with `E`. -/
def Spec (P : State → Prop) (p : Proc α) (Q : α → State → Prop) (E : ErrorKind → State → Prop) : Prop :=
  ∀ s, P s → match p s with
    | .done a t => Q a t
    | .raised e t => E e t

section spec

variable {P : State → Prop} {Q : α → State → Prop} {E : ErrorKind → State → Prop}

theorem spec_done {p : Proc α} (h : Spec P p Q E) {s t : State} {a : α} (hs : P s) (hp : p s = .done a t) :
    Q a t := by
  have := h s hs
  rwa [hp] at this

theorem spec_raised {p : Proc α} (h : Spec P p Q E) {s t : State} {e : ErrorKind} (hs : P s)
    (hp : p s = .raised e t) : E e t := by
  have := h s hs
  rwa [hp] at this

theorem spec_weaken {p : Proc α} {P' : State → Prop} {Q' : α → State → Prop} {E' : ErrorKind → State → Prop}
    (h : Spec P p Q E) (hP : ∀ s, P' s → P s) (hQ : ∀ a s, Q a s → Q' a s) (hE : ∀ e s, E e s → E' e s) :
    Spec P' p Q' E' := by
  intro s hs
  have h1 := h s (hP s hs)
  cases hp : p s with
  | done a t =>
    rw [hp] at h1
    exact hQ a t h1
  | raised e t =>
    rw [hp] at h1
    exact hE e t h1

theorem spec_pure (a : α) : Spec (Q a) (pure a) Q E := fun _ hs => hs

theorem spec_raise (e : ErrorKind) : Spec (E e) (raise (α := α) e) Q E := fun _ hs => hs

theorem spec_update {g : State → State} {Q : Unit → State → Prop} :
    Spec (fun s => Q () (g s)) (update g) Q E := fun _ hs => hs

theorem spec_andThen {p : Proc α} {f : α → Proc β} {R : β → State → Prop} (hp : Spec P p Q E)
    (hf : ∀ a, Spec (Q a) (f a) R E) : Spec P (p.andThen f) R E := by
  intro s hs
  have h1 := hp s hs
  cases h : p s with
  | done a t =>
    rw [h] at h1
    rw [andThen_done h]
    exact hf a t h1
  | raised e t =>
    rw [h] at h1
    rw [andThen_raised h]
    exact h1

theorem spec_fold {f : β → ι → Proc β} {I : β → State → Prop} {xs : List ι}
    (hf : ∀ b, ∀ x ∈ xs, Spec (I b) (f b x) I E) (b : β) : Spec (I b) (fold f b xs) I E := by
  induction xs generalizing b with
  | nil => exact spec_pure b
  | cons x xs ih =>
    exact spec_andThen (hf b x (List.mem_cons_self ..))
      fun b' => ih (fun b'' y hy => hf b'' y (List.mem_cons_of_mem x hy)) b'

theorem spec_forEach {f : ι → Proc Unit} {I : State → Prop} {xs : List ι}
    (hf : ∀ x ∈ xs, Spec I (f x) (fun _ => I) E) : Spec I (forEach f xs) (fun _ => I) E := by
  rw [forEach_eq_fold]
  exact spec_fold (I := fun _ => I) (fun _ x hx => hf x hx) ()

theorem spec_onRaise {p : Proc α} {g : State → State} (h : Spec P p Q fun e s => E e (g s)) :
    Spec P (p.onRaise g) Q E := by
  intro s hs
  have h1 := h s hs
  cases hp : p s with
  | done a t =>
    rw [hp] at h1
    rw [onRaise_done hp]
    exact h1
  | raised e t =>
    rw [hp] at h1
    rw [onRaise_raised hp]
    exact h1

end spec

end Proc

end Sys2Proof.Machine
end

