-- ==== Sys2Proof/Laws/Answers.lean ====
section
/-! SUPPORT. The answers of the platform: taking some of them shifts the rest; nothing but taking them changes them. -/

namespace Sys2Proof.Machine

variable (s : State)

@[simp] theorem State.answer_consume (m k : Nat) : (s.consume m).answer k = s.answer (m + k) := by
  simp only [State.answer, State.consume_answers, State.consume_draws, List.getElem?_drop, List.length_drop]
  cases h : s.answers[m + k]? with
  | some a => rfl
  | none =>
    have hlen : s.answers.length ≤ m + k := List.getElem?_eq_none_iff.1 h
    exact congrArg Config.lineAnswer (by omega)

@[simp] theorem State.consume_consume (m n : Nat) : (s.consume m).consume n = s.consume (m + n) := by
  simp only [State.consume, List.drop_drop, List.length_drop]
  congr 1
  omega

@[simp] theorem State.consume_zero : s.consume 0 = s := by
  simp [State.consume]

theorem State.answer_congr {s t : State} (ha : t.answers = s.answers) (hd : t.draws = s.draws) (k : Nat) :
    t.answer k = s.answer k := by simp [State.answer, ha, hd]

@[simp] theorem State.answer_setOe (b : Bool) (k : Nat) : (s.setOe b).answer k = s.answer k := rfl
@[simp] theorem State.answer_setOutput (b l : Bool) (k : Nat) : (s.setOutput b l).answer k = s.answer k := rfl
@[simp] theorem State.answer_log (e : LineEvent) (k : Nat) : (s.log e).answer k = s.answer k := rfl
@[simp] theorem State.answer_setPresence (b : Bool) (k : Nat) : (s.setPresence b).answer k = s.answer k := rfl
@[simp] theorem State.answer_setFound (b : Bool) (k : Nat) : (s.setFound b).answer k = s.answer k := rfl
@[simp] theorem State.answer_setCode (c : BitVec 3) (k : Nat) : (s.setCode c).answer k = s.answer k := rfl
@[simp] theorem State.answer_bufWrite (i : Nat) (v : Byte) (k : Nat) :
    (s.bufWrite i v).answer k = s.answer k := rfl
@[simp] theorem State.answer_after (n : Nat) (es : List LineEvent) (k : Nat) :
    (s.after n es).answer k = s.answer (n + k) := State.answer_consume s n k

@[simp] theorem State.level_after (n : Nat) (es : List LineEvent) (k : Nat) :
    (s.after n es).level k = s.level (n + k) := by simp [State.level]

theorem State.Works.mono {s : State} {m n : Nat} (h : s.Works n) (hmn : m ≤ n) : s.Works m :=
  fun k hk => h k (by omega)

theorem State.Works.after {s : State} {m n : Nat} (h : s.Works (m + n)) (es : List LineEvent) :
    (s.after m es).Works n := fun k hk => by
  rw [State.answer_after]
  exact h _ (by omega)

/-- A coming action that works, with its level. -/
theorem State.Works.answer {s : State} {n k : Nat} (h : s.Works n) (hk : k < n) :
    s.answer k = .works (s.level k) := by
  have := h k hk
  cases ha : s.answer k with
  | works l => simp [State.level, ha, LineAnswer.level]
  | fails o => simp [ha, LineAnswer.ok] at this

@[simp] theorem State.after_after (m n : Nat) (es fs : List LineEvent) :
    (s.after m es).after n fs = s.after (m + n) (es ++ fs) := by
  have h := State.consume_consume s m n
  simp only [State.consume, State.mk.injEq] at h
  simp only [State.after, State.consume, State.mk.injEq, List.append_assoc, true_and, and_true]
  simpa using h

theorem State.after_bufWrite (n : Nat) (es : List LineEvent) (i : Nat) (v : Byte) :
    (s.bufWrite i v).after n es = (s.after n es).bufWrite i v := rfl

end Sys2Proof.Machine
end

