-- ==== Sys2Proof/Laws/Checksum.lean ====
section
/-! SUPPORT. The Checksum Engine: the update of a byte with the accumulator itself gives 0, and nothing else does
(R104). -/

namespace Sys2Proof.Machine

@[simp] theorem crc8_nil : crc8 [] = 0x00 := rfl

theorem crc8_append (s t : List Byte) : crc8 (s ++ t) = t.foldl crc8Byte (crc8 s) := List.foldl_append ..

theorem crc8_concat (s : List Byte) (v : Byte) : crc8 (s ++ [v]) = crc8Byte (crc8 s) v := crc8_append s [v]

/-- The one-bit update is linear over exclusive-or. -/
theorem crc8Bit_xor (c d : Byte) (b e : Bool) :
    crc8Bit (c ^^^ d) (b ^^ e) = crc8Bit c b ^^^ crc8Bit d e := by
  have hs : (c ^^^ d) >>> 1 = (c >>> 1) ^^^ (d >>> 1) := BitVec.ushiftRight_xor_distrib ..
  have hc : ∀ x y z : Byte, x ^^^ (y ^^^ z) = y ^^^ (x ^^^ z) := fun x y z => by
    rw [← BitVec.xor_assoc, BitVec.xor_comm x y, BitVec.xor_assoc]
  have hl : (c ^^^ d).getLsbD 0 = (c.getLsbD 0 ^^ d.getLsbD 0) := BitVec.getLsbD_xor
  simp only [crc8Bit, hs, hl]
  cases c.getLsbD 0 <;> cases d.getLsbD 0 <;> cases b <;> cases e <;>
    simp [BitVec.xor_assoc, BitVec.xor_comm, hc]

/-- So is the update over a byte. -/
theorem crc8Byte_xor (c d v w : Byte) : crc8Byte (c ^^^ d) (v ^^^ w) = crc8Byte c v ^^^ crc8Byte d w := by
  have fold : ∀ n, (List.range n).foldl (fun c i => crc8Bit c ((v ^^^ w).getLsbD i)) (c ^^^ d) =
      (List.range n).foldl (fun c i => crc8Bit c (v.getLsbD i)) c ^^^
        (List.range n).foldl (fun c i => crc8Bit c (w.getLsbD i)) d := by
    intro n
    induction n with
    | zero => rfl
    | succ n ih =>
      simp only [List.range_succ, List.foldl_append, List.foldl_cons, List.foldl_nil]
      rw [ih, BitVec.getLsbD_xor, crc8Bit_xor]
  exact fold 8

/-- The 256 values of the update of a byte with itself. -/
theorem crc8Byte_self (c : Byte) : crc8Byte c c = 0x00 := by
  revert c
  decide +kernel

/-- The 256 values of the update with a zero byte: only the zero accumulator gives 0. -/
theorem crc8Byte_zero_eq_zero (c : Byte) : crc8Byte c 0x00 = 0x00 → c = 0x00 := by
  revert c
  decide +kernel

/-- The update gives 0 for the accumulator itself and for no other byte. -/
theorem crc8Byte_eq_zero_iff (c v : Byte) : crc8Byte c v = 0x00 ↔ v = c := by
  constructor
  · intro h
    have hx : crc8Byte (c ^^^ v) 0x00 = 0x00 := by
      have := crc8Byte_xor c v v v
      rwa [BitVec.xor_self, crc8Byte_self, h] at this
    exact (BitVec.xor_eq_zero_iff.1 (crc8Byte_zero_eq_zero _ hx)).symm
  · rintro rfl
    exact crc8Byte_self v

theorem crc8Byte_zero : crc8Byte 0x00 0x00 = 0x00 := by decide

theorem addrBytes_eight (a : Address) : addrBytes a 8 = addrBytes a 7 ++ [addrByte a 7] := by
  simp [addrBytes, List.range_succ]

theorem addressValid_iff (a : Address) : addressValid a = true ↔ addrByte a 7 = crc8 (addrBytes a 7) := by
  simp [addressValid]

end Sys2Proof.Machine
end

