-- ==== Sys2Proof/Laws/Memory.lean ====
section
/-! SUPPORT. The laws of `BUF`: a read after a write, and the canonical form every write keeps (R50). -/

namespace Sys2Proof.Machine

theorem Memory.read_write_same (m : Memory) (i : Nat) (v : Byte) : Memory.read? (Memory.write m i v) i = some v := by
  induction m with
  | nil => simp [Memory.write, Memory.read?]
  | cons c m ih =>
    obtain ⟨k, w⟩ := c
    simp only [Memory.write]
    split
    · simp [Memory.read?]
    · split
      · simp [Memory.read?]
      · rename_i h
        simp [Memory.read?, h, ih]

theorem Memory.read_write_other (m : Memory) (i j : Nat) (v : Byte) (h : j ≠ i) :
    Memory.read? (Memory.write m i v) j = Memory.read? m j := by
  induction m with
  | nil => simp [Memory.write, Memory.read?, h]
  | cons c m ih =>
    obtain ⟨k, w⟩ := c
    simp only [Memory.write]
    split
    · simp [Memory.read?, h]
    · split
      · rename_i hk
        subst hk
        simp [Memory.read?, h]
      · simp only [Memory.read?, ih]

/-- An entry of a written memory is the written one or was there. -/
theorem Memory.mem_write (m : Memory) (i : Nat) (v : Byte) (c : Host.Cell) (h : c ∈ Memory.write m i v) :
    c = (i, v) ∨ c ∈ m := by
  induction m with
  | nil => simpa [Memory.write] using h
  | cons d m ih =>
    obtain ⟨k, w⟩ := d
    simp only [Memory.write] at h
    split at h
    · simpa using h
    · split at h
      · simp only [List.mem_cons] at h ⊢
        exact h.imp id Or.inr
      · simp only [List.mem_cons] at h ⊢
        rcases h with h | h
        · exact .inr (.inl h)
        · exact (ih h).imp id Or.inr

theorem Memory.wf_write (m : Memory) (i : Nat) (v : Byte) (hm : m.wf) (hi : i < 256) :
    Memory.wf (Memory.write m i v) := by
  refine ⟨?_, fun c hc => ?_⟩
  · have sorted := hm.1
    clear hm
    induction m with
    | nil => simp [Memory.write]
    | cons d m ih =>
      obtain ⟨k, w⟩ := d
      rw [List.pairwise_cons] at sorted
      simp only [Memory.write]
      split
      · rename_i h
        rw [List.pairwise_cons, List.pairwise_cons]
        refine ⟨fun c hc => ?_, sorted⟩
        rw [List.mem_cons] at hc
        rcases hc with rfl | hc
        · exact h
        · exact Nat.lt_trans h (sorted.1 c hc)
      · split
        · rename_i h
          subst h
          exact List.pairwise_cons.2 sorted
        · rw [List.pairwise_cons]
          refine ⟨fun c hc => ?_, ih sorted.2⟩
          rcases Memory.mem_write m i v c hc with rfl | hc
          · show k < i
            omega
          · exact sorted.1 c hc
  · rcases Memory.mem_write m i v c hc with rfl | hc
    · exact hi
    · exact hm.2 c hc

@[simp] theorem State.bufByte_bufWrite_same (s : State) (i : Nat) (v : Byte) : (s.bufWrite i v).bufByte i = v := by
  simp [State.bufByte, Memory.read_write_same]

theorem State.bufByte_bufWrite_other (s : State) (i j : Nat) (v : Byte) (h : j ≠ i) :
    (s.bufWrite i v).bufByte j = s.bufByte j := by
  simp [State.bufByte, Memory.read_write_other _ _ _ _ h]

/-- `BUF` reads depend on its listed bytes and the count of hardware resets only. -/
theorem State.bufByte_congr (s t : State) (hb : t.buf = s.buf) (hr : t.resets = s.resets) (i : Nat) :
    t.bufByte i = s.bufByte i := by simp [State.bufByte, hb, hr]

end Sys2Proof.Machine
end

