-- ==== Sys2Proof/Laws/Line.lean ====
section
/-! SUPPORT. What the line actions, slots, bytes and reset frames do: the state each leaves when every action works,
where each ends when one fails, and what none of them changes. -/

namespace Sys2Proof.Machine

open Proc

/-! ## The four actions -/

theorem driveLow_works {s : State} {l : Bool} (h : s.answer 0 = .works l) :
    driveLow s = .done () (((s.consume 1).setOutput true true).log .driveLow) := by simp [driveLow, h]

theorem driveLow_fails {s : State} {o : FaultedOutput} (h : s.answer 0 = .fails o) :
    driveLow s = .raised .lineFault (((s.consume 1).setOutput o.oe o.low).log (.failed .driveLow)) := by simp [driveLow, h]

theorem release_works {s : State} {l : Bool} (h : s.answer 0 = .works l) :
    release s = .done () (((s.consume 1).setOutput false false).log .release) := by simp [release, h]

theorem release_fails {s : State} {o : FaultedOutput} (h : s.answer 0 = .fails o) :
    release s = .raised .lineFault (((s.consume 1).setOutput o.oe o.low).log (.failed .release)) := by simp [release, h]

theorem sample_works {s : State} {l : Bool} (h : s.answer 0 = .works l) :
    sample s = .done (s.lineLevel l) ((s.consume 1).log (.sample (s.lineLevel l))) := by simp [sample, h]

theorem sample_fails {s : State} {o : FaultedOutput} (h : s.answer 0 = .fails o) :
    sample s = .raised .lineFault ((s.consume 1).log (.failed .sample)) := by simp [sample, h]

@[simp] theorem delay_apply (d : Duration) (s : State) : delay d s = .done () (s.log (.delay d)) := rfl

/-! ## What line activity changes -/

/-- `t` is `s` after some line activity: answers were taken, actions recorded, the output may differ; nothing else. -/
def LineRun (s t : State) : Prop :=
  ∃ b l es, t = { s.consume (es.countP LineEvent.takesAnswer) with oe := b, outputLow := l, trace := s.trace ++ es }

theorem LineRun.refl (s : State) : LineRun s s := ⟨s.oe, s.outputLow, [], by simp⟩

theorem LineRun.trans (s t u : State) (h1 : LineRun s t) (h2 : LineRun t u) : LineRun s u := by
  obtain ⟨b, l, es, rfl⟩ := h1
  obtain ⟨c, m, fs, rfl⟩ := h2
  refine ⟨c, m, es ++ fs, ?_⟩
  have h := State.consume_consume s (es.countP LineEvent.takesAnswer) (fs.countP LineEvent.takesAnswer)
  simp only [State.consume, State.mk.injEq] at h
  simp only [State.consume, State.mk.injEq, List.append_assoc, List.countP_append, true_and, and_true]
  simpa using h

theorem keeps_driveLow : Keeps LineRun driveLow := by
  intro s
  cases h : s.answer 0 with
  | works l => rw [driveLow_works h]; exact ⟨true, true, [.driveLow], rfl⟩
  | fails o => rw [driveLow_fails h]; exact ⟨o.oe, o.low, [.failed .driveLow], rfl⟩

theorem keeps_release : Keeps LineRun release := by
  intro s
  cases h : s.answer 0 with
  | works l => rw [release_works h]; exact ⟨false, false, [.release], rfl⟩
  | fails o => rw [release_fails h]; exact ⟨o.oe, o.low, [.failed .release], rfl⟩

theorem keeps_sample : Keeps LineRun sample := by
  intro s
  cases h : s.answer 0 with
  | works l => rw [sample_works h]; exact ⟨s.oe, s.outputLow, [.sample (s.lineLevel l)], rfl⟩
  | fails o => rw [sample_fails h]; exact ⟨s.oe, s.outputLow, [.failed .sample], rfl⟩

theorem keeps_delay (d : Duration) : Keeps LineRun (delay d) := by
  intro s
  refine ⟨s.oe, s.outputLow, [.delay d], ?_⟩
  simp [LineEvent.takesAnswer, State.log]

section
variable {α β : Type}

theorem LineRun.andThen {p : Proc α} {f : α → Proc β} (hp : Keeps LineRun p) (hf : ∀ a, Keeps LineRun (f a)) :
    Keeps LineRun (p.andThen f) := keeps_andThen LineRun.trans hp hf

theorem LineRun.pure (a : α) : Keeps LineRun (Proc.pure a) := keeps_pure LineRun.refl a

theorem LineRun.raise (e : ErrorKind) : Keeps LineRun (Proc.raise (α := α) e) := keeps_raise LineRun.refl e

end

theorem keeps_writeBit (b : Bool) : Keeps LineRun (writeBit b) :=
  LineRun.andThen keeps_driveLow fun _ => LineRun.andThen (keeps_delay _) fun _ =>
    LineRun.andThen keeps_release fun _ => keeps_delay _

theorem keeps_readBit : Keeps LineRun readBit :=
  LineRun.andThen keeps_driveLow fun _ => LineRun.andThen (keeps_delay _) fun _ =>
    LineRun.andThen keeps_release fun _ => LineRun.andThen (keeps_delay _) fun _ =>
      LineRun.andThen keeps_sample fun l => LineRun.andThen (keeps_delay _) fun _ => LineRun.pure l

theorem keeps_writeByte (v : Byte) : Keeps LineRun (writeByte v) :=
  keeps_forEach LineRun.refl LineRun.trans fun i _ => keeps_writeBit (v.getLsbD i)

theorem keeps_readByte : Keeps LineRun readByte :=
  keeps_fold LineRun.refl LineRun.trans
    (fun v i _ => LineRun.andThen keeps_readBit fun b => LineRun.pure (setBit v i b)) _

theorem keeps_writeBlock (n : Nat) : Keeps LineRun (writeBlock n) :=
  keeps_forEach LineRun.refl LineRun.trans fun k _ t => keeps_writeByte (t.bufByte k) t

theorem keeps_waitHighUpTo (n : Nat) : Keeps LineRun (waitHighUpTo n) := by
  induction n with
  | zero => exact LineRun.raise _
  | succ n ih =>
    refine LineRun.andThen keeps_sample fun l => ?_
    cases l
    · exact LineRun.andThen (keeps_delay _) fun _ => ih
    · exact LineRun.pure ()

theorem keeps_writeAddress (a : Address) : Keeps LineRun (writeAddress a) :=
  keeps_forEach LineRun.refl LineRun.trans fun k _ => keeps_writeByte (addrByte a k)

theorem keeps_readAddress : Keeps LineRun readAddress :=
  keeps_fold LineRun.refl LineRun.trans
    (fun a k _ => LineRun.andThen keeps_readByte fun v => LineRun.pure (setAddrByte a k v)) _

theorem keeps_checkAddress (a : Address) : Keeps LineRun (checkAddress a) := by
  unfold checkAddress
  split
  · exact LineRun.pure ()
  · exact LineRun.raise _

theorem keeps_searchRound (ld : Nat) (prev : Address) (c : Candidate) (n : Nat) :
    Keeps LineRun (searchRound ld prev c n) := by
  refine LineRun.andThen keeps_readBit fun i => LineRun.andThen keeps_readBit fun k => ?_
  split
  · exact LineRun.raise _
  · exact LineRun.andThen (keeps_writeBit _) fun _ => LineRun.pure _

theorem keeps_searchRounds (ld : Nat) (prev : Address) : Keeps LineRun (searchRounds ld prev) :=
  keeps_fold LineRun.refl LineRun.trans (fun c n _ => keeps_searchRound ld prev c n) _

/-- `t` is `s` after line activity that may have included the presence sample of a Reset. -/
def ResetRun (s t : State) : Prop :=
  ∃ st, (st = s.status ∨ ∃ p, st = withPresence s.status p) ∧ LineRun (s.setStatus st) t

theorem LineRun.toReset {s t : State} (h : LineRun s t) : ResetRun s t := ⟨s.status, .inl rfl, h⟩

theorem ResetRun.refl (s : State) : ResetRun s s := (LineRun.refl s).toReset

theorem withPresence_withPresence (st : Byte) (p q : Bool) :
    withPresence (withPresence st p) q = withPresence st q := by
  apply BitVec.eq_of_getLsbD_eq
  intro i _
  simp only [getLsbD_withPresence]
  split <;> rfl

theorem LineRun.setStatus {s t : State} (h : LineRun s t) (st : Byte) : LineRun (s.setStatus st) (t.setStatus st) := by
  obtain ⟨b, l, es, rfl⟩ := h
  exact ⟨b, l, es, rfl⟩

theorem LineRun.status_eq {s t : State} (h : LineRun s t) : t.status = s.status := by
  obtain ⟨b, l, es, rfl⟩ := h
  rfl

theorem ResetRun.trans (s t u : State) (h1 : ResetRun s t) (h2 : ResetRun t u) : ResetRun s u := by
  obtain ⟨st, hst, h1⟩ := h1
  obtain ⟨st', hst', h2⟩ := h2
  have ht : t.status = st := h1.status_eq
  rw [ht] at hst'
  refine ⟨st', ?_, LineRun.trans _ _ _ (h1.setStatus st') h2⟩
  rcases hst with rfl | ⟨p, rfl⟩ <;> rcases hst' with rfl | ⟨q, rfl⟩
  · exact .inl rfl
  · exact .inr ⟨q, rfl⟩
  · exact .inr ⟨p, rfl⟩
  · exact .inr ⟨q, withPresence_withPresence _ _ _⟩

section
variable {α β : Type}

theorem Keeps.toReset {p : Proc α} (h : Keeps LineRun p) : Keeps ResetRun p := fun s => (h s).toReset

theorem ResetRun.andThen {p : Proc α} {f : α → Proc β} (hp : Keeps ResetRun p) (hf : ∀ a, Keeps ResetRun (f a)) :
    Keeps ResetRun (p.andThen f) := keeps_andThen ResetRun.trans hp hf

end

theorem keeps_setPresence (p : Bool) : Keeps ResetRun (Proc.update fun s => s.setPresence p) :=
  fun _ => ⟨_, .inr ⟨p, rfl⟩, LineRun.refl _⟩

theorem keeps_resetPulse : Keeps ResetRun resetPulse :=
  ResetRun.andThen (Keeps.toReset keeps_driveLow) fun _ =>
  ResetRun.andThen (Keeps.toReset (keeps_delay _)) fun _ =>
  ResetRun.andThen (Keeps.toReset keeps_release) fun _ =>
  ResetRun.andThen (Keeps.toReset (keeps_delay _)) fun _ =>
  ResetRun.andThen (Keeps.toReset keeps_sample) fun _ =>
  ResetRun.andThen (Keeps.toReset (keeps_delay _)) fun _ =>
  ResetRun.andThen (keeps_setPresence _) fun _ => keeps_pure ResetRun.refl _

theorem keeps_resetSequence : Keeps ResetRun resetSequence :=
  ResetRun.andThen (Keeps.toReset (keeps_waitHighUpTo _)) fun _ => keeps_resetPulse

theorem keeps_romStart (code : Byte) : Keeps ResetRun (romStart code) := by
  refine ResetRun.andThen keeps_resetSequence fun p => ?_
  cases p
  · exact keeps_raise ResetRun.refl _
  · exact Keeps.toReset (keeps_writeByte code)

theorem keeps_matchRomFrame (a : Address) : Keeps ResetRun (matchRomFrame a) :=
  ResetRun.andThen (keeps_romStart _) fun _ => Keeps.toReset (keeps_writeAddress a)

theorem keeps_readRomFrame : Keeps ResetRun readRomFrame :=
  ResetRun.andThen (keeps_romStart _) fun _ => ResetRun.andThen (Keeps.toReset keeps_readAddress) fun a =>
    ResetRun.andThen (Keeps.toReset (keeps_checkAddress a)) fun _ => keeps_pure ResetRun.refl a

theorem keeps_searchPass (ld : Nat) (prev : Address) (alarm : Bool) : Keeps ResetRun (searchPass ld prev alarm) :=
  ResetRun.andThen (keeps_romStart _) fun _ => ResetRun.andThen (Keeps.toReset (keeps_searchRounds ld prev)) fun c =>
    ResetRun.andThen (Keeps.toReset (keeps_checkAddress c.a)) fun _ => keeps_pure ResetRun.refl c

/-! ## Slots: success, and where a failing action ends them -/

theorem writeBit_works {s : State} (h : s.Works 2) (b : Bool) :
    writeBit b s = .done () (s.after 2 (writeSlot b)) := by
  have h0 := h.answer (k := 0) (by omega)
  have h1 := h.answer (k := 1) (by omega)
  rw [writeBit, andThen_done (driveLow_works h0)]
  rw [andThen_done (delay_apply _ _), andThen_done (release_works (l := s.level 1) (by simpa using h1))]
  cases b <;> simp [State.after, State.log, State.setOutput, State.consume, writeSlot] <;> omega

theorem writeBit_fails_drive {s : State} {o : FaultedOutput} (h : s.answer 0 = .fails o) (b : Bool) :
    writeBit b s = .raised .lineFault (((s.consume 1).setOutput o.oe o.low).log (.failed .driveLow)) := by
  rw [writeBit, andThen_raised (driveLow_fails h)]

theorem writeBit_fails_release {s : State} {o : FaultedOutput} (h0 : s.Works 1) (h1 : s.answer 1 = .fails o) (b : Bool) :
    writeBit b s = .raised .lineFault
      { s.consume 2 with
        oe := o.oe
        outputLow := o.low
        trace := s.trace ++ (writeSlot b).take 2 ++ [.failed .release] } := by
  have h0 := h0.answer (k := 0) (by omega)
  rw [writeBit, andThen_done (driveLow_works h0), andThen_done (delay_apply _ _),
    andThen_raised (release_fails (o := o) (by simpa using h1))]
  cases b <;> simp [State.log, State.setOutput, State.consume, writeSlot] <;> omega

theorem readBit_works {s : State} (h : s.Works 3) :
    readBit s = .done (s.level 2) (s.after 3 (readSlot (s.level 2))) := by
  have h0 := h.answer (k := 0) (by omega)
  have h1 := h.answer (k := 1) (by omega)
  have h2 := h.answer (k := 2) (by omega)
  rw [readBit, andThen_done (driveLow_works h0), andThen_done (delay_apply _ _),
    andThen_done (release_works (l := s.level 1) (by simpa using h1)), andThen_done (delay_apply _ _),
    andThen_done (sample_works (l := s.level 2) (by simpa using h2)), andThen_done (delay_apply _ _)]
  simp [State.after, State.log, State.lineLevel, State.setOutput, State.consume, readSlot]
  omega

theorem readBit_fails_drive {s : State} {o : FaultedOutput} (h : s.answer 0 = .fails o) :
    readBit s = .raised .lineFault (((s.consume 1).setOutput o.oe o.low).log (.failed .driveLow)) := by
  rw [readBit, andThen_raised (driveLow_fails h)]

theorem readBit_fails_release {s : State} {o : FaultedOutput} (h0 : s.Works 1) (h1 : s.answer 1 = .fails o) :
    readBit s = .raised .lineFault
      { s.consume 2 with
        oe := o.oe
        outputLow := o.low
        trace := s.trace ++ [.driveLow, .delay .rdl, .failed .release] } := by
  have h0 := h0.answer (k := 0) (by omega)
  rw [readBit, andThen_done (driveLow_works h0), andThen_done (delay_apply _ _),
    andThen_raised (release_fails (o := o) (by simpa using h1))]
  simp [State.log, State.setOutput, State.consume]
  omega

theorem readBit_fails_sample {s : State} {o : FaultedOutput} (h0 : s.Works 2) (h2 : s.answer 2 = .fails o) :
    readBit s = .raised .lineFault
      (s.after 3 [.driveLow, .delay .rdl, .release, .delay .rds, .failed .sample]) := by
  have ha0 := h0.answer (k := 0) (by omega)
  have ha1 := h0.answer (k := 1) (by omega)
  rw [readBit, andThen_done (driveLow_works ha0), andThen_done (delay_apply _ _),
    andThen_done (release_works (l := s.level 1) (by simpa using ha1)), andThen_done (delay_apply _ _),
    andThen_raised (sample_fails (o := o) (by simpa using h2))]
  simp [State.after, State.log, State.setOutput, State.consume]
  omega

/-! ## Loops whose every pass takes the same number of answers -/

/-- A loop in which pass `x` takes `c` answers, records events and makes a result, both given by the pass and the
levels of its answers. -/
theorem fold_range'_works {β : Type} (f : β → Nat → Proc β) (c a : Nat) (ok : Nat → (Nat → Bool) → Prop)
    (g : β → Nat → (Nat → Bool) → β) (ev : Nat → (Nat → Bool) → List LineEvent)
    (hf : ∀ b x (s : State), s.Works c → ok x s.level → f b x s = .done (g b x s.level) (s.after c (ev x s.level)))
    (n : Nat) (b : β) (s : State) (hw : s.Works (c * n))
    (hok : ∀ i < n, ok (a + i) fun k => s.level (c * i + k)) :
    fold f b (List.range' a n) s =
      .done ((List.range n).foldl (fun b i => g b (a + i) fun k => s.level (c * i + k)) b)
        (if n = 0 then s else
          s.after (c * n) ((List.range n).flatMap fun i => ev (a + i) fun k => s.level (c * i + k))) := by
  induction n with
  | zero => rfl
  | succ n ih =>
    have ih := ih (hw.mono (by rw [Nat.mul_succ]; omega)) fun i hi => hok i (by omega)
    rw [List.range'_concat, fold_append, andThen_done ih, Nat.one_mul]
    have hlast := hok n (by omega)
    rw [List.range_succ, List.foldl_append, List.flatMap_append, if_neg (Nat.succ_ne_zero n)]
    by_cases hn : n = 0
    · subst hn
      rw [if_pos rfl]
      show (f b (a + 0)).andThen _ s = _
      have hlev : (fun k => s.level (c * 0 + k)) = s.level := by
        funext k
        simp
      rw [hlev] at hlast
      rw [andThen_done (hf b (a + 0) s (hw.mono (by simp)) hlast)]
      simp
    · rw [if_neg hn]
      show (f _ _).andThen _ _ = _
      have hlev : (s.after (c * n) ((List.range n).flatMap fun i => ev (a + i) fun k => s.level (c * i + k))).level =
          fun k => s.level (c * n + k) := by
        funext k
        simp
      have hpass := hf ((List.range n).foldl (fun b i => g b (a + i) fun k => s.level (c * i + k)) b) (a + n) _
        (State.Works.after (m := c * n) (by rw [Nat.mul_succ] at hw; exact hw)
          ((List.range n).flatMap fun i => ev (a + i) fun k => s.level (c * i + k)))
        (by rw [hlev]; exact hlast)
      rw [andThen_done hpass, hlev]
      simp [Nat.mul_succ]

/-- The same for a loop over `0..n-1`. -/
theorem fold_range_works {β : Type} (f : β → Nat → Proc β) (c : Nat)
    (g : β → Nat → (Nat → Bool) → β) (ev : Nat → (Nat → Bool) → List LineEvent)
    (hf : ∀ b x (s : State), s.Works c → f b x s = .done (g b x s.level) (s.after c (ev x s.level)))
    (n : Nat) (b : β) (s : State) (hw : s.Works (c * n)) :
    fold f b (List.range n) s =
      .done ((List.range n).foldl (fun b i => g b i fun k => s.level (c * i + k)) b)
        (if n = 0 then s else
          s.after (c * n) ((List.range n).flatMap fun i => ev i fun k => s.level (c * i + k))) := by
  have h := fold_range'_works f c 0 (fun _ _ => True) g ev (fun b x s hs _ => hf b x s hs) n b s hw
    (fun _ _ => trivial)
  rw [← List.range_eq_range'] at h
  simpa using h

/-! ## Bytes, blocks, addresses -/

theorem writeByte_works {s : State} (h : s.Works 16) (v : Byte) :
    writeByte v s = .done () (s.after 16 (writeByteEvents v)) := by
  rw [writeByte, forEach_eq_fold,
    fold_range_works (fun _ i => writeBit (v.getLsbD i)) 2 (fun _ _ _ => ()) (fun i _ => writeSlot (v.getLsbD i))
      (fun _ i s hs => writeBit_works hs _) 8 () s h]
  rfl

theorem getLsbD_byteOfBits (bit : Nat → Bool) (i : Nat) (h : i < 8) : (byteOfBits bit).getLsbD i = bit i := by
  rw [byteOfBits, getLsbD_foldl_setBit, if_pos ⟨h, h⟩]

theorem readByte_works {s : State} (h : s.Works 24) :
    readByte s = .done (byteOfBits s.readBitAt)
      (s.after 24 (readByteEvents s.readBitAt)) := by
  rw [readByte, fold_range_works _ 3 (fun v i lv => setBit v i (lv 2)) (fun _ lv => readSlot (lv 2))
      (fun v i s hs => by rw [andThen_done (readBit_works hs)]; rfl) 8 0 s h]
  rfl

theorem writeAddress_works {s : State} (h : s.Works 128) (a : Address) :
    writeAddress a s = .done () (s.after 128 ((List.range 8).flatMap fun k => writeByteEvents (addrByte a k))) := by
  rw [writeAddress, forEach_eq_fold,
    fold_range_works (fun _ k => writeByte (addrByte a k)) 16 (fun _ _ _ => ())
      (fun k _ => writeByteEvents (addrByte a k)) (fun _ k s hs => writeByte_works hs _) 8 () s h]
  rfl

theorem getLsbD_addressOfBits (bit : Nat → Bool) (j : Nat) (h : j < 64) : (addressOfBits bit).getLsbD j = bit j := by
  have fold : ∀ n ≤ 8, ((List.range n).foldl
      (fun a k => setAddrByte a k (byteOfBits fun i => bit (8 * k + i))) (0 : Address)).getLsbD j =
      if j < 8 * n then bit j else false := by
    intro n
    induction n with
    | zero => intro _; simp
    | succ n ih =>
      intro hn
      rw [List.range_succ, List.foldl_append, List.foldl_cons, List.foldl_nil, getLsbD_setAddrByte _ _ _ (by omega),
        ih (by omega)]
      by_cases hj : 8 * n ≤ j ∧ j < 8 * n + 8
      · rw [if_pos hj, if_pos (by omega), getLsbD_byteOfBits _ _ (by omega)]
        congr 1
        omega
      · rw [if_neg hj]
        by_cases hj' : j < 8 * n
        · rw [if_pos hj', if_pos (by omega)]
        · rw [if_neg hj', if_neg (by omega)]
  rw [addressOfBits, fold 8 (Nat.le_refl 8), if_pos h]

theorem readAddress_works {s : State} (h : s.Works 192) :
    readAddress s = .done (addressOfBits s.readBitAt)
      (s.after 192 ((List.range 8).flatMap fun k => readByteEvents fun i => s.readBitAt (8 * k + i))) := by
  rw [readAddress, fold_range_works _ 24 (fun a k lv => setAddrByte a k (byteOfBits fun i => lv (3 * i + 2)))
      (fun _ lv => readByteEvents fun i => lv (3 * i + 2))
      (fun a k s hs => by rw [andThen_done (readByte_works hs)]; rfl) 8 0 s h]
  have e : ∀ k i, 24 * k + (3 * i + 2) = 3 * (8 * k + i) + 2 := fun k i => by omega
  simp only [e]
  rfl

/-- A block is sent whole when every action works; `BUF` is not changed on the way. -/
theorem writeBlock_works {s : State} (n : Nat) (h : s.Works (16 * n)) :
    writeBlock n s = .done () (if n = 0 then s else
      s.after (16 * n) ((List.range n).flatMap fun k => writeByteEvents (s.bufByte k))) := by
  induction n with
  | zero => rfl
  | succ n ih =>
    have ih := ih (h.mono (by omega))
    rw [writeBlock] at ih ⊢
    rw [List.range_succ, forEach_append, andThen_done ih, if_neg (Nat.succ_ne_zero n), List.flatMap_append]
    by_cases hn : n = 0
    · subst hn
      show (writeBufByte 0).andThen _ s = _
      rw [andThen_done (show writeBufByte 0 s = _ from writeByte_works h _)]
      simp
    · rw [if_neg hn]
      show (writeBufByte n).andThen _ _ = _
      rw [andThen_done (show writeBufByte n _ = _ from
        writeByte_works (State.Works.after (by rw [Nat.mul_succ] at h; exact h) _) _)]
      have hb : ∀ (m : Nat) (es : List LineEvent), (s.after m es).bufByte n = s.bufByte n := fun _ _ => rfl
      simp [hb, Nat.mul_succ]

theorem State.fillBuf_after (s : State) (vs : Nat → Byte) (n m : Nat) (es : List LineEvent) :
    (s.fillBuf vs n).after m es = (s.after m es).fillBuf vs n := by
  induction n with
  | zero => rfl
  | succ n ih => simp only [State.fillBuf, State.after_bufWrite, ih]

@[simp] theorem State.level_bufWrite (s : State) (i : Nat) (v : Byte) : (s.bufWrite i v).level = s.level := rfl

theorem State.answer_fillBuf (s : State) (vs : Nat → Byte) (n k : Nat) : (s.fillBuf vs n).answer k = s.answer k := by
  induction n with
  | zero => rfl
  | succ n ih => simpa [State.fillBuf] using ih

/-- What a filled `BUF` holds. -/
theorem State.bufByte_fillBuf (s : State) (vs : Nat → Byte) (n i : Nat) :
    (s.fillBuf vs n).bufByte i = if i < n then vs i else s.bufByte i := by
  induction n with
  | zero => simp [State.fillBuf]
  | succ n ih =>
    simp only [State.fillBuf]
    by_cases h : i = n
    · subst h
      simp
    · rw [State.bufByte_bufWrite_other _ _ _ _ h, ih]
      by_cases hn : i < n
      · rw [if_pos hn, if_pos (by omega)]
      · rw [if_neg hn, if_neg (by omega)]

/-- A block is received whole when every action works. -/
theorem readBlock_works {s : State} (n : Nat) (h : s.Works (24 * n)) :
    readBlock n s = .done () (if n = 0 then s else
      (s.after (24 * n) ((List.range n).flatMap fun k =>
        readByteEvents fun i => s.readBitAt (8 * k + i))).fillBuf s.blockByte n) := by
  induction n with
  | zero => rfl
  | succ n ih =>
    have ih := ih (h.mono (by omega))
    rw [readBlock] at ih ⊢
    rw [List.range_succ, forEach_append, andThen_done ih, if_neg (Nat.succ_ne_zero n), List.flatMap_append]
    by_cases hn : n = 0
    · subst hn
      show ((readBufByte 0).andThen _) s = _
      rw [readBufByte, andThen_assoc, andThen_done (readByte_works h)]
      simp [andThen, State.fillBuf, State.blockByte]
    · rw [if_neg hn]
      show ((readBufByte n).andThen _) _ = _
      have hw : ∀ es, ((s.after (24 * n) es).fillBuf s.blockByte n).Works 24 := fun es k hk => by
        rw [State.answer_fillBuf, State.answer_after]
        exact h _ (by omega)
      have hl : ∀ es, ((s.after (24 * n) es).fillBuf s.blockByte n).readBitAt = fun i => s.readBitAt (8 * n + i) := by
        intro es
        funext i
        simp only [State.readBitAt, State.level, State.answer_fillBuf, State.answer_after]
        rw [show 24 * n + (3 * i + 2) = 3 * (8 * n + i) + 2 by omega]
      rw [readBufByte, andThen_assoc, andThen_done (readByte_works (hw _))]
      simp only [hl]
      simp [andThen, State.fillBuf, State.fillBuf_after, State.blockByte, Nat.mul_succ]

/-! ## Reset frames -/

theorem waitHighUpTo_high {s : State} (hoe : s.Released) (n j : Nat) (hj : j < n) (hw : s.Works (j + 1))
    (hlow : ∀ k < j, s.level k = false) (hhigh : s.level j = true) :
    waitHighUpTo n s = .done () (s.after (j + 1) (lowSamples j ++ [.sample true])) := by
  induction j generalizing n s with
  | zero =>
    obtain ⟨n, rfl⟩ : ∃ m, n = m + 1 := ⟨n - 1, by omega⟩
    rw [waitHighUpTo, andThen_done (sample_works (hw.answer (k := 0) (by omega)))]
    simp [hoe.lineLevel, hoe.1, hoe.2, hhigh, State.after, State.log, lowSamples, State.consume]
  | succ j ih =>
    obtain ⟨n, rfl⟩ : ∃ m, n = m + 1 := ⟨n - 1, by omega⟩
    rw [waitHighUpTo, andThen_done (sample_works (hw.answer (k := 0) (by omega)))]
    have h0 : s.level 0 = false := hlow 0 (by omega)
    simp only [hoe.lineLevel, h0, Bool.false_eq_true, if_false]
    rw [andThen_done (delay_apply _ _)]
    have hs : ((s.consume 1).log (.sample false)).log (.delay .whp) =
        s.after 1 [.sample false, .delay .whp] := by
      simp [State.after, State.log, State.consume, hoe.1, hoe.2]
    rw [hs, ih ⟨rfl, rfl⟩ n (by omega) (State.Works.after (by rwa [Nat.add_comm] at hw) _)
      (fun k hk => by rw [State.level_after]; exact hlow _ (by omega))
      (by rw [State.level_after, Nat.add_comm]; exact hhigh)]
    simp [lowSamples, Nat.add_comm]

/-- `n` samples that all work and all read low, the last delay included. -/
theorem waitHighUpTo_low {s : State} (n : Nat) (hw : s.Works n)
    (hlow : ∀ k < n, s.lineLevel (s.level k) = false) :
    waitHighUpTo n s = .raised .busNotHigh { s.consume n with trace := s.trace ++ lowSamples n } := by
  induction n generalizing s with
  | zero => simp [waitHighUpTo, lowSamples]
  | succ n ih =>
    rw [waitHighUpTo, andThen_done (sample_works (hw.answer (k := 0) (by omega))), hlow 0 (by omega)]
    simp only [Bool.false_eq_true, if_false]
    rw [andThen_done (delay_apply _ _)]
    have hs : ∀ k, (((s.consume 1).log (.sample false)).log (.delay .whp)).answer k = s.answer (k + 1) := fun k => by
      simp [Nat.add_comm]
    rw [ih (fun k hk => by rw [hs]; exact hw _ (by omega))
      (fun k hk => by
        have := hlow (k + 1) (by omega)
        simpa [State.level, Nat.add_comm] using this)]
    simp [State.log, State.consume, lowSamples, Nat.add_comm]
    omega

theorem resetPulse_works {s : State} (h : s.Works 3) :
    resetPulse s = .done (!s.level 2) ((s.after 3 (resetPulseEvents (s.level 2))).sawPresence (s.level 2)) := by
  have h0 := h.answer (k := 0) (by omega)
  have h1 := h.answer (k := 1) (by omega)
  have h2 := h.answer (k := 2) (by omega)
  rw [resetPulse, andThen_done (driveLow_works h0), andThen_done (delay_apply _ _),
    andThen_done (release_works (l := s.level 1) (by simpa using h1)), andThen_done (delay_apply _ _),
    andThen_done (sample_works (l := s.level 2) (by simpa using h2)), andThen_done (delay_apply _ _),
    andThen_done (update_apply _ _)]
  simp [State.after, State.sawPresence, State.setPresence, State.setStatus, State.log, State.lineLevel, State.setOutput,
    State.consume, resetPulseEvents]
  omega

theorem State.after_sawPresence (s : State) (level : Bool) (m : Nat) (es : List LineEvent) :
    (s.sawPresence level).after m es = (s.after m es).sawPresence level := rfl

@[simp] theorem State.level_sawPresence (s : State) (level : Bool) (k : Nat) :
    (s.sawPresence level).level k = s.level k := rfl

@[simp] theorem State.answer_sawPresence (s : State) (level : Bool) (k : Nat) :
    (s.sawPresence level).answer k = s.answer k := rfl

/-- A reset frame that sees the line high at the sample `j` (from 0), every action working. -/
theorem resetSequence_works {s : State} (hoe : s.Released) (j : Nat) (hj : j < Config.nWh) (hw : s.Works (j + 4))
    (hlow : ∀ k < j, s.level k = false) (hhigh : s.level j = true) :
    resetSequence s = .done (!s.level (j + 3))
      ((s.after (j + 4) (resetFrame j (s.level (j + 3)))).sawPresence (s.level (j + 3))) := by
  rw [resetSequence, waitHigh,
    andThen_done (waitHighUpTo_high hoe _ j hj (hw.mono (by omega)) hlow hhigh),
    resetPulse_works (State.Works.after (m := j + 1) (n := 3) hw _)]
  simp [resetFrame]

theorem Config.nWh_pos : 0 < Config.nWh := Nat.succ_pos _

/-- `RomStart` with presence and every action working. -/
theorem romStart_works {s : State} {j n : Nat} (h : s.RomReady j n) (code : Byte) :
    romStart code s = .done () ((s.after (j + 20) (romStartEvents j code)).sawPresence false) := by
  obtain ⟨hoe, hj, hw, hlow, hhigh, hp⟩ := h
  have hreset := resetSequence_works hoe j hj (hw.mono (by omega)) hlow hhigh
  rw [hp] at hreset
  rw [romStart, andThen_done hreset]
  have hw' : ((s.after (j + 4) (resetFrame j false)).sawPresence false).Works 16 := fun k hk => by
    simp only [State.sawPresence, State.answer_setPresence, State.answer_after]
    exact hw _ (by omega)
  simp only [Bool.not_false, if_true]
  rw [writeByte_works hw', State.after_sawPresence, State.after_after]
  rfl

/-- `RomStart` with no presence: the reset frame is complete, nothing follows it (R223). -/
theorem romStart_noPresence {s : State} (hoe : s.Released) (j : Nat) (hj : j < Config.nWh) (hw : s.Works (j + 4))
    (hlow : ∀ k < j, s.level k = false) (hhigh : s.level j = true) (hp : s.level (j + 3) = true) (code : Byte) :
    romStart code s = .raised .noPresence ((s.after (j + 4) (resetFrame j true)).sawPresence true) := by
  have h := resetSequence_works hoe j hj hw hlow hhigh
  rw [hp] at h
  rw [romStart, andThen_done h]
  simp

end Sys2Proof.Machine
end

