-- ==== Sys2Proof/Laws/Search.lean ====
section
/-! SUPPORT. The search pass and the iterator: an error-free round and pass, where a pass ends early, and what the
iterator writes (R162 to R175). -/

namespace Sys2Proof.Machine

open Proc

/-- The two sampled bits of a round are its third and sixth answer. -/
theorem searchRound_works {s : State} (h : s.Works 8) (ld : Nat) (prev : Address) (c : Candidate) (n : Nat)
    (hp : (s.level 2 && s.level 5) = false) :
    searchRound ld prev c n s =
      .done
        { a := setBit c.a (n - 1) (roundDir ld prev n (s.level 2) (s.level 5))
          lastZero := roundLastZero c.lastZero n (s.level 2) (s.level 5) (roundDir ld prev n (s.level 2) (s.level 5)) }
        (s.after 8 (roundEvents (s.level 2) (s.level 5) (roundDir ld prev n (s.level 2) (s.level 5)))) := by
  rw [searchRound, andThen_done (readBit_works (h.mono (by omega))),
    andThen_done (readBit_works (State.Works.after (m := 3) (n := 3) (h.mono (by omega)) _))]
  simp only [State.level_after, State.after_after, hp, Bool.false_eq_true, if_false]
  rw [andThen_done (writeBit_works (State.Works.after (m := 3 + 3) (n := 2) (h.mono (by omega)) _) _)]
  simp [roundEvents]

/-- A round in which both bits read 1 ends the pass before its write slot (R164). -/
theorem searchRound_absent {s : State} (h : s.Works 6) (ld : Nat) (prev : Address) (c : Candidate) (n : Nat)
    (hp : (s.level 2 && s.level 5) = true) :
    searchRound ld prev c n s =
      .raised .unexpectedAbsence (s.after 6 (readSlot true ++ readSlot true)) := by
  simp only [Bool.and_eq_true] at hp
  rw [searchRound, andThen_done (readBit_works (h.mono (by omega))),
    andThen_done (readBit_works (State.Works.after (m := 3) (n := 3) h _))]
  simp [hp.1, hp.2]

/-- Direction of round `n` of a pass, from the levels of the answers that follow the command byte. -/
def passDir (ld : Nat) (prev : Address) (lv : Nat → Bool) (n : Nat) : Bool :=
  roundDir ld prev n (lv (8 * (n - 1) + 2)) (lv (8 * (n - 1) + 5))

/-- What `k` complete rounds leave in the transient variables. -/
def passCandidate (ld : Nat) (prev : Address) (lv : Nat → Bool) (k : Nat) : Candidate :=
  (List.range k).foldl
    (fun c i =>
      { a := setBit c.a i (passDir ld prev lv (i + 1))
        lastZero := roundLastZero c.lastZero (i + 1) (lv (8 * i + 2)) (lv (8 * i + 5)) (passDir ld prev lv (i + 1)) })
    { a := 0, lastZero := 0 }

/-- The slots of `k` complete rounds. -/
def passEvents (ld : Nat) (prev : Address) (lv : Nat → Bool) (k : Nat) : List LineEvent :=
  (List.range k).flatMap fun i =>
    roundEvents (lv (8 * i + 2)) (lv (8 * i + 5)) (passDir ld prev lv (i + 1))

theorem passCandidate_succ (ld : Nat) (prev : Address) (lv : Nat → Bool) (k : Nat) :
    passCandidate ld prev lv (k + 1) =
      { a := setBit (passCandidate ld prev lv k).a k (passDir ld prev lv (k + 1))
        lastZero := roundLastZero (passCandidate ld prev lv k).lastZero (k + 1) (lv (8 * k + 2)) (lv (8 * k + 5))
          (passDir ld prev lv (k + 1)) } := by
  simp [passCandidate, List.range_succ]

/-- Bit `j` of the candidate is the direction of round `j+1`. -/
theorem getLsbD_passCandidate (ld : Nat) (prev : Address) (lv : Nat → Bool) (k j : Nat) (hj : j < 64) :
    (passCandidate ld prev lv k).a.getLsbD j = if j < k then passDir ld prev lv (j + 1) else false := by
  induction k with
  | zero => simp [passCandidate]
  | succ k ih =>
    rw [passCandidate_succ]
    simp only
    rw [getLsbD_setBit, ih]
    by_cases h : j = k
    · subst h
      rw [if_pos ⟨rfl, hj⟩, if_pos (by omega)]
    · rw [if_neg (by omega)]
      by_cases h' : j < k
      · rw [if_pos h', if_pos (by omega)]
      · rw [if_neg h', if_neg (by omega)]

theorem roundLastZero_of_zero {lz n : Nat} {i c d : Bool} (hi : i = false) (hc : c = false) (hd : d = false) :
    roundLastZero lz n i c d = n := by simp [roundLastZero, hi, hc, hd]

/-- `last_zero` is a round at which a discrepancy was resolved to 0, or 0 when there was none so far. -/
theorem passCandidate_lastZero (ld : Nat) (prev : Address) (lv : Nat → Bool) (k : Nat) :
    (passCandidate ld prev lv k).lastZero ≤ k ∧
    (0 < (passCandidate ld prev lv k).lastZero →
      passDir ld prev lv (passCandidate ld prev lv k).lastZero = false) ∧
    ∀ n, (passCandidate ld prev lv k).lastZero < n → n ≤ k →
      ¬(lv (8 * (n - 1) + 2) = false ∧ lv (8 * (n - 1) + 5) = false ∧ passDir ld prev lv n = false) := by
  induction k with
  | zero => exact ⟨Nat.le_refl 0, fun h => absurd h (by simp [passCandidate]), fun n h1 h2 => by omega⟩
  | succ k ih =>
    obtain ⟨h1, h2, h3⟩ := ih
    rw [passCandidate_succ]
    simp only [roundLastZero]
    split
    · rename_i hz
      simp only [Bool.and_eq_true, Bool.not_eq_true'] at hz
      exact ⟨Nat.le_refl _, fun _ => hz.2, fun n hn hk => by omega⟩
    · rename_i hz
      simp only [Bool.and_eq_true, Bool.not_eq_true'] at hz
      refine ⟨by omega, h2, fun n hn hk => ?_⟩
      by_cases hk' : n = k + 1
      · subst hk'
        intro ⟨a, b, c⟩
        exact hz ⟨⟨a, b⟩, c⟩
      · exact h3 n hn (by omega)

/-- `k` error-free rounds. -/
theorem rounds_work {s : State} (k : Nat) (hk : 0 < k) (h : s.Works (8 * k)) (ld : Nat) (prev : Address)
    (hp : ∀ i < k, (s.level (8 * i + 2) && s.level (8 * i + 5)) = false) :
    Proc.fold (searchRound ld prev) { a := 0, lastZero := 0 } (List.range' 1 k) s =
      .done (passCandidate ld prev s.level k) (s.after (8 * k) (passEvents ld prev s.level k)) := by
  rw [fold_range'_works (searchRound ld prev) 8 1 (fun _ lv => (lv 2 && lv 5) = false)
    (fun c n lv =>
      { a := setBit c.a (n - 1) (roundDir ld prev n (lv 2) (lv 5))
        lastZero := roundLastZero c.lastZero n (lv 2) (lv 5) (roundDir ld prev n (lv 2) (lv 5)) })
    (fun n lv => roundEvents (lv 2) (lv 5) (roundDir ld prev n (lv 2) (lv 5)))
    (fun c n t ht hok => searchRound_works ht ld prev c n hok) k _ s h hp, if_neg (by omega)]
  simp only [passCandidate, passEvents, passDir, Nat.add_sub_cancel, Nat.add_comm 1]

/-- The levels that follow the command byte. -/
def State.passLevels (s : State) (j : Nat) : Nat → Bool := fun k => s.level (j + 20 + k)

theorem State.level_afterStart (s : State) (j : Nat) (es : List LineEvent) :
    ((s.after (j + 20) es).sawPresence false).level = s.passLevels j := by
  funext k
  simp [State.passLevels]

/-- A pass that meets no error up to and with round 64. -/
theorem searchPass_works {s : State} {j : Nat} (h : s.RomReady j 512) (ld : Nat) (prev : Address) (alarm : Bool)
    (hp : ∀ i < 64, (s.passLevels j (8 * i + 2) && s.passLevels j (8 * i + 5)) = false) :
    searchPass ld prev alarm s =
      (let c := passCandidate ld prev (s.passLevels j) 64
       let t := (s.after (j + 532) (romStartEvents j (searchCode alarm)
          ++ passEvents ld prev (s.passLevels j) 64)).sawPresence false
       if addressValid c.a then .done c t else .raised .crcMismatch t) := by
  rw [searchPass, searchCmd, andThen_done (romStart_works h _), searchRounds,
    andThen_done (rounds_work 64 (by omega)
      (fun k hk => by
        simp only [State.answer_sawPresence, State.answer_after]
        exact h.2.2.1 _ (by omega)) ld prev (fun i hi => by simpa only [State.level_afterStart] using hp i hi))]
  simp only [State.level_afterStart, State.after_sawPresence, State.after_after]
  cases hv : addressValid (passCandidate ld prev (s.passLevels j) 64).a <;>
    simp [checkAddress, hv, andThen] <;> rfl

/-- A pass whose first (1,1) is met in round `r+1` (R164). -/
theorem searchPass_absent {s : State} {j : Nat} (r : Nat) (hr : r < 64) (h : s.RomReady j (8 * r + 6)) (ld : Nat)
    (prev : Address) (alarm : Bool)
    (hp : ∀ i < r, (s.passLevels j (8 * i + 2) && s.passLevels j (8 * i + 5)) = false)
    (habs : (s.passLevels j (8 * r + 2) && s.passLevels j (8 * r + 5)) = true) :
    searchPass ld prev alarm s =
      .raised .unexpectedAbsence
        ((s.after (j + 20 + (8 * r + 6))
          (romStartEvents j (searchCode alarm) ++ passEvents ld prev (s.passLevels j) r ++
            (readSlot true ++ readSlot true))).sawPresence false) := by
  have split : List.range' 1 64 = List.range' 1 r ++ (r + 1) :: List.range' (r + 2) (63 - r) := by
    rw [show (r + 1) :: List.range' (r + 2) (63 - r) = List.range' (1 + r) (63 - r + 1) by
      rw [List.range'_succ, Nat.add_comm 1 r], List.range'_append_1]
    congr 1
    omega
  rw [searchPass, searchCmd, andThen_done (romStart_works (n := 8 * r + 6) h _), searchRounds, split, fold_append]
  by_cases h0 : r = 0
  · subst h0
    show ((Proc.pure _).andThen _).andThen _ _ = _
    rw [andThen_assoc]
    show Proc.andThen (Proc.andThen (searchRound ld prev _ 1) _) _ _ = _
    rw [andThen_assoc, andThen_raised (searchRound_absent (fun k hk => by
        simp only [State.answer_sawPresence, State.answer_after]
        exact h.2.2.1 _ (by omega)) ld prev _ _ (by simpa only [State.level_afterStart] using habs))]
    simp only [State.after_sawPresence, State.after_after, passEvents, List.range_zero, List.flatMap_nil,
      List.append_nil]
    rfl
  · rw [andThen_assoc, andThen_done (rounds_work r (by omega)
      (fun k hk => by
        simp only [State.answer_sawPresence, State.answer_after]
        exact h.2.2.1 _ (by omega)) ld prev (fun i hi => by simpa only [State.level_afterStart] using hp i hi))]
    show Proc.andThen (Proc.andThen (searchRound ld prev _ (r + 1)) _) _ _ = _
    rw [andThen_assoc, andThen_raised (searchRound_absent (fun k hk => by
        simp only [State.answer_after, State.answer_sawPresence]
        exact h.2.2.1 _ (by omega)) ld prev _ _
        (by simpa only [State.level_after, State.level_afterStart] using habs))]
    simp only [State.level_afterStart, State.after_sawPresence, State.after_after, Nat.add_assoc, List.append_assoc]
    rfl

/-! ## The iterator -/

/-- How a pass ends: committed, or halted with the Search State as it was (R170, R172). -/
theorem runPass_cases (alarm : Bool) (s : State) :
    (∃ c t, searchPass s.steerPosition s.sAddr alarm s = .done c t ∧
      runPass alarm s = .done c.a (t.commitPass c)) ∨
    (∃ e t, searchPass s.steerPosition s.sAddr alarm s = .raised e t ∧
      runPass alarm s = .raised e (t.setHalt true)) := by
  cases h : searchPass s.steerPosition s.sAddr alarm s with
  | done c t =>
    refine .inl ⟨c, t, rfl, ?_⟩
    rw [runPass, haltOnRaise, andThen_done (onRaise_done h)]
    simp [andThen]
  | raised e t =>
    refine .inr ⟨e, t, rfl, ?_⟩
    rw [runPass, haltOnRaise, andThen_raised (onRaise_raised h)]

theorem searchNext_ended {s : State} (h : (s.sHalt || s.searchComplete) = true) :
    searchNext s = .done none s := by simp only [searchNext, h, if_true]

theorem searchNext_runs {s : State} (h : (s.sHalt || s.searchComplete) = false) :
    searchNext s = (runPass s.sAlarm).andThen (fun a => Proc.pure (some a)) s := by
  simp only [searchNext, h, Bool.false_eq_true, if_false]

/-- `SEARCH_NEXT` when halted or complete: no line action (R172, R174). -/
theorem searchNextBody_ended {s : State} (h : (s.sHalt || s.searchComplete) = true) :
    searchNextBody s = .done () (s.setFound false) := by
  rw [searchNextBody, andThen_done (update_apply _ s), andThen_done (searchNext_ended (s := s.setFound false) h)]
  rfl

/-- What `SEARCH_NEXT` runs when it is neither halted nor complete: `FOUND <- 0`, the pass, the yield (R172, R202). -/
def nextPassBody (alarm : Bool) : Proc Unit :=
  (Proc.update fun s => s.setFound false).andThen fun _ =>
  (runPass alarm).andThen yieldAddress

/-- `SEARCH_NEXT` otherwise runs the pass of its enumeration (R172, R202). -/
theorem searchNextBody_runs {s : State} (h : (s.sHalt || s.searchComplete) = false) :
    searchNextBody s = nextPassBody s.sAlarm s := by
  rw [searchNextBody, andThen_done (update_apply _ s), nextPassBody, andThen_done (update_apply _ s)]
  have hn : searchNext (s.setFound false) = _ := searchNext_runs h
  cases hr : runPass s.sAlarm (s.setFound false) with
  | done a t =>
    rw [andThen_done (hn.trans (andThen_done hr)), andThen_done hr]
  | raised e t =>
    rw [andThen_raised (hn.trans (andThen_raised hr)), andThen_raised hr]

end Sys2Proof.Machine
end

