-- ==== Sys2Proof/Laws/Operations.lean ====
section
/-! SUPPORT. Operations as a whole: every well-formed instruction ends in a next state, made by its body; what each
body can change (R190, R205, R227). -/

namespace Sys2Proof.Machine

open Proc

/-- The body each operation runs (R190 to R204). -/
def bodyOf : Instr → Proc Unit
  | .reset => resetSequence.andThen fun _ => Proc.pure ()
  | .writeBit b => writeBit b
  | .readBit => readBit.andThen fun b => Proc.update fun t => t.setData (zextBit b)
  | .writeByte v => writeByte v
  | .readByte => readByte.andThen fun v => Proc.update fun t => t.setData v
  | .writeBytes n => writeBlock n
  | .readBytes n => readBlock n
  | .select | .romMatch => selectBody
  | .skipSelect | .romSkip => skipRomFrame
  | .readRom | .romRead => readRomBody
  | .searchInit alarm => searchInitBody alarm
  | .searchNext => searchNextBody
  | .crc8 n => crc8Body n
  | .reserved0 | .reservedE | .reservedF => Proc.raise .illegalOp
  | .romSearch => searchFrameBody false
  | .romAlarmSearch => searchFrameBody true

theorem runCounted_eq {n : Nat} (h : n ≤ 255) (body : Proc Unit) (s : State) :
    runCounted n body s = .next (endOperation (body s)) := by
  rw [runCounted, if_pos h]
  rfl

theorem runCounted_fault {n : Nat} (h : ¬n ≤ 255) (body : Proc Unit) (s : State) :
    runCounted n body s = .fault (.countOutOfRange n) := by
  rw [runCounted, if_neg h]

/-- A well-formed instruction ends in the state its body and the end of the operation give. -/
theorem exec_eq (i : Instr) (s : State) (h : i.WellFormed = true) :
    exec i s = .next (endOperation (bodyOf i s)) := by
  cases i with
  | writeBytes n => exact runCounted_eq (of_decide_eq_true h) _ s
  | readBytes n => exact runCounted_eq (of_decide_eq_true h) _ s
  | crc8 n => exact runCounted_eq (of_decide_eq_true h) _ s
  | _ => rfl

/-- An instruction that answers a next state is well-formed, and that state is the one `exec_eq` gives. -/
theorem exec_next {i : Instr} {s t : State} (h : exec i s = .next t) :
    i.WellFormed = true ∧ t = endOperation (bodyOf i s) := by
  have hw : i.WellFormed = true := by
    cases i with
    | writeBytes n =>
      by_contra hn
      have hn' : ¬n ≤ 255 := fun h' => hn (decide_eq_true h')
      have hf : exec (.writeBytes n) s = .fault (.countOutOfRange n) := runCounted_fault hn' _ s
      rw [hf] at h
      cases h
    | readBytes n =>
      by_contra hn
      have hn' : ¬n ≤ 255 := fun h' => hn (decide_eq_true h')
      have hf : exec (.readBytes n) s = .fault (.countOutOfRange n) := runCounted_fault hn' _ s
      rw [hf] at h
      cases h
    | crc8 n =>
      by_contra hn
      have hn' : ¬n ≤ 255 := fun h' => hn (decide_eq_true h')
      have hf : exec (.crc8 n) s = .fault (.countOutOfRange n) := runCounted_fault hn' _ s
      rw [hf] at h
      cases h
    | _ => rfl
  rw [exec_eq i s hw] at h
  exact ⟨hw, (Host.Outcome.next.inj h).symm⟩

@[simp] theorem endOperation_done (s : State) : endOperation (.done () s) = (s.setOe false).setCode okCode := rfl
@[simp] theorem endOperation_raised (e : ErrorKind) (s : State) :
    endOperation (.raised e s) =
      (if e = .lineFault ∨ e = .illegalOp then s else s.setOe false).setCode e.code := by cases e <;> rfl

/-- All that ending an operation does: `STATUS.CODE` is written, and `OE` cleared but after `LINE_FAULT` and
`ILLEGAL_OP` (R21, R38, R73, R205, R227). -/
theorem endOperation_eq (r : Res Unit) :
    (∃ s, r = .done () s ∧ endOperation r = (s.setOe false).setCode okCode) ∨
    (∃ e s, r = .raised e s ∧ (e = .lineFault ∨ e = .illegalOp) ∧ endOperation r = s.setCode e.code) ∨
    (∃ e s, r = .raised e s ∧ e ≠ .lineFault ∧ e ≠ .illegalOp ∧ e.code ≠ 7 ∧ e.code ≠ okCode ∧
      endOperation r = (s.setOe false).setCode e.code) := by
  cases r with
  | done a s => exact .inl ⟨s, rfl, rfl⟩
  | raised e s =>
    cases e with
    | lineFault => exact .inr (.inl ⟨_, s, rfl, .inl rfl, rfl⟩)
    | illegalOp => exact .inr (.inl ⟨_, s, rfl, .inr rfl, rfl⟩)
    | _ => exact .inr (.inr ⟨_, s, rfl, by decide, by decide, by decide, by decide, rfl⟩)

/-- Any code but `LINE_FAULT` and `ILLEGAL_OP` means `OE = 0`, whatever `OE` was (R38, R227). -/
theorem endOperation_oe {r : Res Unit} (h : statusCode (endOperation r).status ≠ ErrorKind.lineFault.code)
    (h' : statusCode (endOperation r).status ≠ ErrorKind.illegalOp.code) : (endOperation r).oe = false := by
  rcases endOperation_eq r with ⟨s, -, he⟩ | ⟨e, s, -, rfl | rfl, he⟩ | ⟨e, s, -, -, -, -, -, he⟩
  · rw [he]
    rfl
  · rw [he] at h
    exact absurd (statusCode_withCode _ _) h
  · rw [he] at h'
    exact absurd (statusCode_withCode _ _) h'
  · rw [he]
    rfl

/-- Ending an operation does not touch the real output (R221). -/
@[simp] theorem endOperation_outputLow (r : Res Unit) : (endOperation r).outputLow = r.state.outputLow := by
  rcases endOperation_eq r with ⟨s, rfl, he⟩ | ⟨e, s, rfl, -, he⟩ | ⟨e, s, rfl, -, -, -, -, he⟩ <;> rw [he] <;> rfl

/-- The code tells whether the body raised (R190, R220). -/
theorem endOperation_code (r : Res Unit) :
    statusCode (endOperation r).status = match r with
      | .done _ _ => okCode
      | .raised e _ => e.code := by
  cases r with
  | done _ s => exact statusCode_withCode _ _
  | raised e s => cases e <;> exact statusCode_withCode _ _

/-! ## What the bodies change -/

/-- Bodies of line activity without a Reset, storing nothing. -/
theorem writeOps_keep (b : Bool) (v : Byte) (n : Nat) :
    Keeps LineRun (bodyOf (.writeBit b)) ∧ Keeps LineRun (bodyOf (.writeByte v)) ∧
      Keeps LineRun (bodyOf (.writeBytes n)) :=
  ⟨keeps_writeBit b, keeps_writeByte v, keeps_writeBlock n⟩

/-- Bodies of line activity with a Reset, storing nothing. -/
theorem resetOps_keep :
    Keeps ResetRun (bodyOf .reset) ∧ Keeps ResetRun (bodyOf .select) ∧ Keeps ResetRun (bodyOf .skipSelect) :=
  ⟨ResetRun.andThen keeps_resetSequence fun _ => keeps_pure ResetRun.refl (),
    fun s => keeps_matchRomFrame s.addr s, keeps_romStart _⟩

/-- A read of one bit or byte: line activity, then `DATA` when it succeeded (R193, R195). -/
theorem readOps_cases {α : Type} {p : Proc α} (hp : Keeps LineRun p) (f : α → Byte) (s : State) :
    (∃ a t, p s = .done a t ∧ LineRun s t ∧
      (p.andThen fun a => Proc.update fun t => t.setData (f a)) s = .done () (t.setData (f a))) ∨
    (∃ e t, p s = .raised e t ∧ LineRun s t ∧
      (p.andThen fun a => Proc.update fun t => t.setData (f a)) s = .raised e t) := by
  have h := hp s
  cases hr : p s with
  | done a t =>
    rw [hr] at h
    exact .inl ⟨a, t, rfl, h, by rw [andThen_done hr]; rfl⟩
  | raised e t =>
    rw [hr] at h
    exact .inr ⟨e, t, rfl, h, andThen_raised hr⟩

/-- `READ_ROM`: line activity with a Reset, then `ADDR` when it succeeded, with a valid address (R142, R200). -/
theorem readRomBody_cases (s : State) :
    (∃ a t, addressValid a = true ∧ ResetRun s t ∧ readRomBody s = .done () (t.setAddr a)) ∨
    (∃ e t, ResetRun s t ∧ readRomBody s = .raised e t) := by
  have h := keeps_readRomFrame s
  cases hr : readRomFrame s with
  | raised e t =>
    rw [hr] at h
    exact .inr ⟨e, t, h, by rw [readRomBody, andThen_raised hr]⟩
  | done a t =>
    rw [hr] at h
    refine .inl ⟨a, t, ?_, h, by rw [readRomBody, andThen_done hr]; rfl⟩
    cases hs : romStart Config.romCodes.readRom s with
    | raised e u => rw [readRomFrame, andThen_raised hs] at hr; cases hr
    | done _ u =>
      cases ha : readAddress u with
      | raised e w => rw [readRomFrame, andThen_done hs, andThen_raised ha] at hr; cases hr
      | done a' w =>
        rw [readRomFrame, andThen_done hs, andThen_done ha] at hr
        cases hv : addressValid a' <;> simp [andThen, checkAddress, hv] at hr
        rw [← hr.1]
        exact hv

/-- One byte of a block read: line activity, then `BUF[k]` when it is complete (R134). -/
theorem readBufByte_cases (k : Nat) (s : State) :
    (∃ v t, LineRun s t ∧ readBufByte k s = .done () (t.bufWrite k v)) ∨
    (∃ e t, LineRun s t ∧ readBufByte k s = .raised e t) := by
  have h := keeps_readByte s
  cases hr : readByte s with
  | done v t =>
    rw [hr] at h
    exact .inl ⟨v, t, h, by rw [readBufByte, andThen_done hr]; rfl⟩
  | raised e t =>
    rw [hr] at h
    exact .inr ⟨e, t, h, by rw [readBufByte, andThen_raised hr]⟩

/-- A search pass that ends with a candidate has tested its checksum (R169). -/
theorem searchPass_done_valid {ld : Nat} {prev : Address} {alarm : Bool} {s t : State} {c : Candidate}
    (h : searchPass ld prev alarm s = .done c t) : addressValid c.a = true := by
  cases hs : searchCmd alarm s with
  | raised e u => rw [searchPass, andThen_raised hs] at h; cases h
  | done _ u =>
    cases hr : searchRounds ld prev u with
    | raised e w => rw [searchPass, andThen_done hs, andThen_raised hr] at h; cases h
    | done c' w =>
      rw [searchPass, andThen_done hs, andThen_done hr] at h
      cases hv : addressValid c'.a <;> simp [andThen, checkAddress, hv] at h
      rw [← h.1]
      exact hv

/-- A pass of `SEARCH_NEXT`: line activity with a Reset, then either the address is committed and yielded, or the iterator
is halted (R170, R172, R175, R202). `FOUND` is cleared first. -/
theorem nextPassBody_cases (alarm : Bool) (s : State) :
    (∃ c t, searchPass s.steerPosition s.sAddr alarm (s.setFound false) = .done c t ∧
      ResetRun (s.setFound false) t ∧ addressValid c.a = true ∧
      nextPassBody alarm s = .done () (((t.commitPass c).setAddr c.a).setFound true)) ∨
    (∃ e t, searchPass s.steerPosition s.sAddr alarm (s.setFound false) = .raised e t ∧
      ResetRun (s.setFound false) t ∧ nextPassBody alarm s = .raised e (t.setHalt true)) := by
  have hk := keeps_searchPass s.steerPosition s.sAddr alarm (s.setFound false)
  rcases runPass_cases alarm (s.setFound false) with ⟨c, t, hp, hr⟩ | ⟨e, t, hp, hr⟩
  · have hp' : searchPass s.steerPosition s.sAddr alarm (s.setFound false) = .done c t := hp
    rw [hp'] at hk
    refine .inl ⟨c, t, hp', hk, searchPass_done_valid hp', ?_⟩
    rw [nextPassBody, andThen_done (update_apply _ s), andThen_done hr]
    rfl
  · have hp' : searchPass s.steerPosition s.sAddr alarm (s.setFound false) = .raised e t := hp
    rw [hp'] at hk
    refine .inr ⟨e, t, hp', hk, ?_⟩
    rw [nextPassBody, andThen_done (update_apply _ s), andThen_raised hr]

/-- A search frame at the sequencer's own port is its `SearchPass`, the result not stored (R171, log 11). -/
theorem searchFrameBody_eq (alarm : Bool) (s : State) :
    searchFrameBody alarm s = match searchPass s.steerPosition s.sAddr alarm s with
      | .done _ t => .done () t
      | .raised e t => .raised e t := by
  cases h : searchPass s.steerPosition s.sAddr alarm s with
  | done c t => exact andThen_done h
  | raised e t => exact andThen_raised h

/-- So it is line activity with a Reset, and changes no other register (R171). -/
theorem keeps_searchFrameBody (alarm : Bool) : Keeps ResetRun (searchFrameBody alarm) := fun s =>
  ResetRun.andThen (keeps_searchPass s.steerPosition s.sAddr alarm) (fun _ => keeps_pure ResetRun.refl ()) s

/-! ## Only a reserved code raises `ILLEGAL_OP` (R226) -/

/-- `p` never raises `ILLEGAL_OP`. -/
abbrev NeverIllegal {α : Type} (p : Proc α) : Prop :=
  Spec (fun _ => True) p (fun _ _ => True) fun e _ => e ≠ .illegalOp

section
variable {α β ι : Type}

theorem NeverIllegal.andThen {p : Proc α} {f : α → Proc β} (hp : NeverIllegal p) (hf : ∀ a, NeverIllegal (f a)) :
    NeverIllegal (p.andThen f) := spec_andThen hp hf

theorem NeverIllegal.pure (a : α) : NeverIllegal (Proc.pure a) := fun _ _ => trivial

theorem NeverIllegal.update (g : State → State) : NeverIllegal (Proc.update g) := fun _ _ => trivial

theorem NeverIllegal.raise {e : ErrorKind} (h : e ≠ .illegalOp) : NeverIllegal (Proc.raise (α := α) e) := fun _ _ => h

theorem NeverIllegal.fold {f : β → ι → Proc β} (hf : ∀ b x, NeverIllegal (f b x)) (b : β) (xs : List ι) :
    NeverIllegal (Proc.fold f b xs) := spec_fold (I := fun _ _ => True) (fun b x _ => hf b x) b

theorem NeverIllegal.forEach {f : ι → Proc Unit} (hf : ∀ x, NeverIllegal (f x)) (xs : List ι) :
    NeverIllegal (Proc.forEach f xs) := spec_forEach fun x _ => hf x

end

theorem neverIllegal_driveLow : NeverIllegal driveLow := by
  intro s _
  cases h : s.answer 0 <;> simp [driveLow, h]

theorem neverIllegal_release : NeverIllegal release := by
  intro s _
  cases h : s.answer 0 <;> simp [release, h]

theorem neverIllegal_sample : NeverIllegal sample := by
  intro s _
  cases h : s.answer 0 <;> simp [sample, h]

theorem neverIllegal_delay (d : Duration) : NeverIllegal (delay d) := fun _ _ => trivial

theorem neverIllegal_writeBit (b : Bool) : NeverIllegal (writeBit b) :=
  neverIllegal_driveLow.andThen fun _ => (neverIllegal_delay _).andThen fun _ =>
    neverIllegal_release.andThen fun _ => neverIllegal_delay _

theorem neverIllegal_readBit : NeverIllegal readBit :=
  neverIllegal_driveLow.andThen fun _ => (neverIllegal_delay _).andThen fun _ =>
    neverIllegal_release.andThen fun _ => (neverIllegal_delay _).andThen fun _ =>
      neverIllegal_sample.andThen fun l => (neverIllegal_delay _).andThen fun _ => .pure l

theorem neverIllegal_writeByte (v : Byte) : NeverIllegal (writeByte v) :=
  .forEach (fun i => neverIllegal_writeBit (v.getLsbD i)) _

theorem neverIllegal_readByte : NeverIllegal readByte :=
  .fold (fun v i => neverIllegal_readBit.andThen fun b => .pure (setBit v i b)) _ _

theorem neverIllegal_waitHighUpTo (n : Nat) : NeverIllegal (waitHighUpTo n) := by
  induction n with
  | zero => exact .raise (by decide)
  | succ n ih =>
    refine neverIllegal_sample.andThen fun l => ?_
    cases l
    · exact (neverIllegal_delay _).andThen fun _ => ih
    · exact .pure ()

theorem neverIllegal_resetSequence : NeverIllegal resetSequence :=
  (neverIllegal_waitHighUpTo _).andThen fun _ => neverIllegal_driveLow.andThen fun _ =>
    (neverIllegal_delay _).andThen fun _ => neverIllegal_release.andThen fun _ =>
      (neverIllegal_delay _).andThen fun _ => neverIllegal_sample.andThen fun l =>
        (neverIllegal_delay _).andThen fun _ => (NeverIllegal.update fun s => s.setPresence (!l)).andThen fun _ => .pure _

theorem neverIllegal_romStart (code : Byte) : NeverIllegal (romStart code) := by
  refine neverIllegal_resetSequence.andThen fun p => ?_
  cases p
  · exact .raise (by decide)
  · exact neverIllegal_writeByte code

theorem neverIllegal_checkAddress (a : Address) : NeverIllegal (checkAddress a) := by
  unfold checkAddress
  split
  · exact .pure ()
  · exact .raise (by decide)

theorem neverIllegal_searchPass (ld : Nat) (prev : Address) (alarm : Bool) : NeverIllegal (searchPass ld prev alarm) := by
  refine (neverIllegal_romStart _).andThen fun _ => NeverIllegal.andThen (.fold (fun c n => ?_) _ _) fun c =>
    (neverIllegal_checkAddress c.a).andThen fun _ => .pure c
  refine neverIllegal_readBit.andThen fun i => neverIllegal_readBit.andThen fun k => ?_
  split
  · exact .raise (by decide)
  · exact (neverIllegal_writeBit _).andThen fun _ => .pure _

theorem neverIllegal_searchNextBody : NeverIllegal searchNextBody := by
  refine (NeverIllegal.update _).andThen fun _ => NeverIllegal.andThen (fun s _ => ?_) fun r => ?_
  · cases h : s.sHalt || s.searchComplete with
    | true =>
      rw [searchNext_ended h]
      trivial
    | false =>
      rw [searchNext_runs h]
      refine NeverIllegal.andThen (fun t _ => ?_) (fun a => .pure (some a)) s trivial
      exact NeverIllegal.andThen (p := haltOnRaise (searchPass t.steerPosition t.sAddr s.sAlarm))
        (spec_onRaise (neverIllegal_searchPass t.steerPosition t.sAddr s.sAlarm))
        (fun c => NeverIllegal.andThen (.update fun u => u.commitPass c) fun _ => .pure c.a) t trivial
  · cases r
    · exact .pure ()
    · exact .update _

/-- Of all bodies only that of a reserved code raises `ILLEGAL_OP`, and then it has done nothing (R73, R204, R226). -/
theorem bodyOf_illegal {i : Instr} {s t : State} (h : bodyOf i s = .raised .illegalOp t) :
    i ∈ [Instr.reserved0, .reservedE, .reservedF] ∧ t = s := by
  have no : ∀ {p : Proc Unit}, NeverIllegal p → p s ≠ .raised .illegalOp t :=
    fun hp he => spec_raised hp trivial he rfl
  cases i with
  | reset => exact absurd h (no (neverIllegal_resetSequence.andThen fun _ => .pure ()))
  | writeBit b => exact absurd h (no (neverIllegal_writeBit b))
  | readBit => exact absurd h (no (neverIllegal_readBit.andThen fun _ => .update _))
  | writeByte v => exact absurd h (no (neverIllegal_writeByte v))
  | readByte => exact absurd h (no (neverIllegal_readByte.andThen fun _ => .update _))
  | writeBytes n =>
    exact absurd h (no (.forEach (fun k u _ => neverIllegal_writeByte (u.bufByte k) u trivial) _))
  | readBytes n => exact absurd h (no (.forEach (fun k => neverIllegal_readByte.andThen fun _ => .update _) _))
  | select | romMatch =>
    exact absurd h (no fun u _ => NeverIllegal.andThen (neverIllegal_romStart _)
      (fun _ => .forEach (fun k => neverIllegal_writeByte (addrByte u.addr k)) _) u trivial)
  | skipSelect | romSkip => exact absurd h (no (neverIllegal_romStart _))
  | readRom | romRead =>
    exact absurd h (no (NeverIllegal.andThen ((neverIllegal_romStart _).andThen fun _ =>
      NeverIllegal.andThen (.fold (fun a k => neverIllegal_readByte.andThen fun v => .pure (setAddrByte a k v)) _ _)
        fun a => (neverIllegal_checkAddress a).andThen fun _ => .pure a) fun _ => .update _))
  | searchInit alarm => exact absurd h (no (.update _))
  | searchNext => exact absurd h (no neverIllegal_searchNextBody)
  | crc8 n => cases h
  | reserved0 | reservedE | reservedF => cases h; exact ⟨by simp, rfl⟩
  | romSearch | romAlarmSearch =>
    exact absurd h (no fun u _ => NeverIllegal.andThen (neverIllegal_searchPass u.steerPosition u.sAddr _)
      (fun _ => .pure ()) u trivial)

end Sys2Proof.Machine
end

