-- ==== Sys2Proof/Laws/Cuts.lean ====
section
/-! SUPPORT. Where a failing action ends a run of slots (R110, R131 to R134, R227), and an operation that runs a search
pass as the body it runs. -/

namespace Sys2Proof.Machine

open Proc

/-! ## A run of slots as a list of bits -/

theorem State.faulted_after (s : State) (m k : Nat) (es fs : List LineEvent) (o : FaultedOutput) :
    (s.after m es).faulted k o fs = s.faulted (m + k) o (es ++ fs) := by
  have h := State.consume_consume s m (k + 1)
  simp only [State.consume, State.mk.injEq] at h
  simp only [State.faulted, State.after, State.consume, State.mk.injEq, List.append_assoc, true_and, and_true]
  simpa [Nat.add_assoc] using h

theorem cutWriteSlots_cons (b : Bool) (bits : List Bool) (k : Nat) :
    cutWriteSlots (b :: bits) (2 + k) = writeSlot b ++ cutWriteSlots bits k := by
  have e1 : (2 + k) / 2 = k / 2 + 1 := by omega
  have e2 : (2 + k) % 2 = k % 2 := by omega
  simp [cutWriteSlots, e1, e2]

theorem cutReadSlots_succ (bit : Nat → Bool) (k : Nat) :
    cutReadSlots bit (3 + k) = readSlot (bit 0) ++ cutReadSlots (fun i => bit (i + 1)) k := by
  have e1 : (3 + k) / 3 = k / 3 + 1 := by omega
  have e2 : (3 + k) % 3 = k % 3 := by omega
  simp [cutReadSlots, e1, e2, List.range_succ_eq_map, List.flatMap_map]

/-- Write slots of which the action with answer `k` fails. -/
theorem writeBits_fails (bits : List Bool) {s : State} {k : Nat} {o : FaultedOutput} (hk : k < 2 * bits.length)
    (hw : s.Works k) (hf : s.answer k = .fails o) :
    forEach writeBit bits s = .raised .lineFault (s.faulted k o (cutWriteSlots bits k)) := by
  induction bits generalizing s k with
  | nil => simp at hk
  | cons b bits ih =>
    show (writeBit b).andThen _ s = _
    by_cases h0 : k = 0
    · subst h0
      rw [andThen_raised (writeBit_fails_drive hf b)]
      simp [State.faulted, cutWriteSlots, State.log, State.setOutput, State.consume]
    · by_cases h1 : k = 1
      · subst h1
        rw [andThen_raised (writeBit_fails_release hw hf b)]
        simp [State.faulted, cutWriteSlots]
      · obtain ⟨k, rfl⟩ : ∃ m, k = 2 + m := ⟨k - 2, by omega⟩
        rw [andThen_done (writeBit_works (hw.mono (by omega)) b),
          ih (by rw [List.length_cons] at hk; omega) (State.Works.after hw _) (by rwa [State.answer_after]),
          State.faulted_after, cutWriteSlots_cons]

/-- A loop of read slots of which the action with answer `k` fails. -/
theorem readBits_fails {β : Type} (g : β → Nat → Bool → β) (n a : Nat) (b : β) {s : State} {k : Nat} {o : FaultedOutput}
    (hk : k < 3 * n) (hw : s.Works k) (hf : s.answer k = .fails o) :
    fold (fun b i => readBit.andThen fun x => Proc.pure (g b i x)) b (List.range' a n) s =
      .raised .lineFault (s.faulted k (if k % 3 = 2 then .released else o) (cutReadSlots s.readBitAt k)) := by
  induction n generalizing s k a b with
  | zero => simp at hk
  | succ n ih =>
    rw [List.range'_succ]
    show ((readBit.andThen _).andThen _) s = _
    rw [andThen_assoc]
    by_cases h0 : k = 0
    · subst h0
      rw [andThen_raised (readBit_fails_drive hf)]
      simp [State.faulted, cutReadSlots, State.log, State.setOutput, State.consume]
    · by_cases h1 : k = 1
      · subst h1
        rw [andThen_raised (readBit_fails_release hw hf)]
        simp [State.faulted, cutReadSlots]
      · by_cases h2 : k = 2
        · subst h2
          rw [andThen_raised (readBit_fails_sample hw hf)]
          simp [State.faulted, cutReadSlots, State.after]
        · obtain ⟨k, rfl⟩ : ∃ m, k = 3 + m := ⟨k - 3, by omega⟩
          rw [andThen_done (readBit_works (hw.mono (by omega)))]
          show fold _ (g b a _) _ _ = _
          rw [ih _ _ (by omega) (State.Works.after hw _) (by rwa [State.answer_after]), State.faulted_after,
            cutReadSlots_succ]
          have hl : (s.after 3 (readSlot (s.level 2))).readBitAt = fun i => s.readBitAt (i + 1) := by
            funext i
            simp only [State.readBitAt, State.level_after]
            congr 1
            omega
          rw [hl, show (3 + k) % 3 = k % 3 by omega]
          rfl

/-! ## Bytes and blocks -/

theorem writeByte_eq_bits (v : Byte) : writeByte v = forEach writeBit (byteBits v) := rfl

theorem writeByte_fails {s : State} {k : Nat} {o : FaultedOutput} (hk : k < 16) (hw : s.Works k) (hf : s.answer k = .fails o)
    (v : Byte) : writeByte v s = .raised .lineFault (s.faulted k o (cutWriteSlots (byteBits v) k)) := by
  rw [writeByte_eq_bits]
  exact writeBits_fails _ (by simpa [byteBits] using hk) hw hf

theorem readByte_fails {s : State} {k : Nat} {o : FaultedOutput} (hk : k < 24) (hw : s.Works k) (hf : s.answer k = .fails o) :
    readByte s =
      .raised .lineFault (s.faulted k (if k % 3 = 2 then .released else o) (cutReadSlots s.readBitAt k)) :=
  readBits_fails (fun v i b => setBit v i b) 8 0 (0x00 : Byte) hk hw hf

theorem LineRun.bufByte_eq {s t : State} (h : LineRun s t) (i : Nat) : t.bufByte i = s.bufByte i := by
  obtain ⟨b, l, es, rfl⟩ := h
  rfl

/-- A written block is its bits as write slots: `BUF` does not change on the way (R133). -/
theorem writeBlock_eq_bits (n : Nat) (s : State) : writeBlock n s = forEach writeBit (s.blockBits n) s := by
  unfold writeBlock State.blockBits State.bufBytes
  generalize List.range n = l
  suffices h : ∀ t : State, (∀ i, t.bufByte i = s.bufByte i) →
      forEach writeBufByte l t = forEach writeBit ((l.map s.bufByte).flatMap byteBits) t from h s fun _ => rfl
  induction l with
  | nil => intro t _; rfl
  | cons a l ih =>
    intro t ht
    rw [List.map_cons, List.flatMap_cons, forEach_append]
    show (writeBufByte a).andThen _ t = _
    have hw : writeBufByte a t = forEach writeBit (byteBits (s.bufByte a)) t := by
      rw [← ht a]
      rfl
    have hk := keeps_writeByte (s.bufByte a) t
    rw [writeByte_eq_bits] at hk
    cases hr : forEach writeBit (byteBits (s.bufByte a)) t with
    | done u t' =>
      rw [hr] at hw hk
      rw [andThen_done hw, andThen_done hr]
      exact ih t' fun i => (hk.bufByte_eq i).trans (ht i)
    | raised e t' =>
      rw [hr] at hw
      rw [andThen_raised hw, andThen_raised hr]

theorem State.blockBits_length (s : State) (n : Nat) : (s.blockBits n).length = 8 * n := by
  unfold State.blockBits State.bufBytes
  induction n with
  | zero => rfl
  | succ n ih =>
    rw [List.range_succ, List.map_append, List.flatMap_append, List.length_append, ih]
    simp [byteBits, Nat.mul_succ]

theorem writeBlock_fails {s : State} {n k : Nat} {o : FaultedOutput} (hk : k < 16 * n) (hw : s.Works k)
    (hf : s.answer k = .fails o) :
    writeBlock n s = .raised .lineFault (s.faulted k o (cutWriteSlots (s.blockBits n) k)) := by
  rw [writeBlock_eq_bits]
  exact writeBits_fails _ (by rw [State.blockBits_length]; omega) hw hf

theorem State.faulted_fillBuf (s : State) (vs : Nat → Byte) (n k : Nat) (o : FaultedOutput) (es : List LineEvent) :
    (s.fillBuf vs n).faulted k o es = (s.faulted k o es).fillBuf vs n := by
  induction n with
  | zero => rfl
  | succ n ih =>
    simp only [State.fillBuf]
    rw [← ih]
    rfl

theorem cutReadSlots_after (bit : Nat → Bool) (n k : Nat) :
    cutReadSlots bit (3 * n + k) =
      (List.range n).flatMap (fun i => readSlot (bit i)) ++ cutReadSlots (fun i => bit (n + i)) k := by
  have e1 : (3 * n + k) / 3 = n + k / 3 := by omega
  have e2 : (3 * n + k) % 3 = k % 3 := by omega
  simp [cutReadSlots, e1, e2, List.range_add, List.flatMap_map]

/-- The read slots of `m` bytes, slot by slot. -/
theorem readByteEvents_block (bit : Nat → Bool) (m : Nat) :
    ((List.range m).flatMap fun k => readByteEvents fun i => bit (8 * k + i)) =
      (List.range (8 * m)).flatMap fun i => readSlot (bit i) := by
  induction m with
  | zero => rfl
  | succ m ih =>
    rw [List.range_succ, List.flatMap_append, ih, Nat.mul_succ, List.range_add, List.flatMap_append]
    simp [readByteEvents, List.flatMap_map]

/-- A block read of which the action with answer `k` fails: the bytes complete before it are stored (R134). -/
theorem readBlock_fails {s : State} {n k : Nat} {o : FaultedOutput} (hk : k < 24 * n) (hw : s.Works k)
    (hf : s.answer k = .fails o) :
    readBlock n s =
      .raised .lineFault ((s.faulted k (if k % 3 = 2 then .released else o) (cutReadSlots s.readBitAt k)).fillBuf
        s.blockByte (k / 24)) := by
  obtain ⟨q, r, hr, rfl⟩ : ∃ q r, r < 24 ∧ k = 24 * q + r := ⟨k / 24, k % 24, Nat.mod_lt _ (by decide), by omega⟩
  have hq : (24 * q + r) / 24 = q := by omega
  rw [hq]
  have hsplit : List.range n = List.range q ++ q :: List.range' (q + 1) (n - q - 1) := by
    have h := List.range'_append_1 (s := 0) (m := q) (n := n - q - 1 + 1)
    rw [Nat.zero_add, List.range'_succ, show q + (n - q - 1 + 1) = n by omega] at h
    rw [List.range_eq_range', List.range_eq_range', h]
  have hdone := readBlock_works q (hw.mono (by omega))
  rw [readBlock] at hdone ⊢
  rw [hsplit, forEach_append, andThen_done hdone]
  show (readBufByte q).andThen _ _ = _
  by_cases h0 : q = 0
  · subst h0
    rw [if_pos rfl, readBufByte, andThen_assoc,
      andThen_raised (readByte_fails (k := r) hr (by simpa using hw) (by simpa using hf))]
    simp [State.fillBuf]
  · rw [if_neg h0, readBufByte, andThen_assoc, andThen_raised (readByte_fails (k := r) (o := o) hr
      (fun j hj => by
        rw [State.answer_fillBuf, State.answer_after]
        exact hw _ (by omega))
      (by rwa [State.answer_fillBuf, State.answer_after]))]
    rw [State.faulted_fillBuf, State.faulted_after, readByteEvents_block s.readBitAt]
    have hl : ∀ es, ((s.after (24 * q) es).fillBuf s.blockByte q).readBitAt = fun i => s.readBitAt (8 * q + i) := by
      intro es
      funext i
      simp only [State.readBitAt, State.level, State.answer_fillBuf, State.answer_after]
      rw [show 24 * q + (3 * i + 2) = 3 * (8 * q + i) + 2 by omega]
    rw [hl, ← cutReadSlots_after, show 3 * (8 * q) + r = 24 * q + r by omega,
      show (24 * q + r) % 3 = r % 3 by omega]

/-! ## Operations that run a search pass -/

theorem RunsPass.exec_eq {s : State} {alarm : Bool} (h : RunsPass s alarm) :
    exec .searchNext s = .next (endOperation (nextPassBody alarm s)) := by
  rw [Machine.exec_eq _ _ rfl]
  have hb : bodyOf .searchNext s = _ := searchNextBody_runs (s := s) (by simp [h.not_halted, h.not_complete])
  rw [hb, h.alarm_eq]

theorem searchFrame_exec_eq (alarm : Bool) (s : State) :
    exec (searchFrame alarm) s = .next (endOperation (searchFrameBody alarm s)) := by cases alarm <;> rfl

theorem searchFrameBody_done {s t : State} {alarm : Bool} {c : Candidate}
    (h : searchPass s.steerPosition s.sAddr alarm s = .done c t) : searchFrameBody alarm s = .done () t := by
  rw [searchFrameBody_eq, h]

theorem searchFrameBody_raised {s t : State} {alarm : Bool} {e : ErrorKind}
    (h : searchPass s.steerPosition s.sAddr alarm s = .raised e t) : searchFrameBody alarm s = .raised e t := by
  rw [searchFrameBody_eq, h]

theorem nextPassBody_raised {s t : State} {alarm : Bool} {e : ErrorKind}
    (h : searchPass s.steerPosition s.sAddr alarm (s.setFound false) = .raised e t) :
    nextPassBody alarm s = .raised e (t.setHalt true) := by
  rcases nextPassBody_cases alarm s with ⟨c, t', hp, _⟩ | ⟨e', t', hp, _, hq⟩
  · rw [h] at hp
    cases hp
  · rw [h] at hp
    cases hp
    exact hq

theorem nextPassBody_done {s t : State} {alarm : Bool} {c : Candidate}
    (h : searchPass s.steerPosition s.sAddr alarm (s.setFound false) = .done c t) :
    nextPassBody alarm s = .done () (((t.commitPass c).setAddr c.a).setFound true) := by
  rcases nextPassBody_cases alarm s with ⟨c', t', hp, _, _, hq⟩ | ⟨e', t', hp, _⟩
  · rw [h] at hp
    cases hp
    exact hq
  · rw [h] at hp
    cases hp

end Sys2Proof.Machine
end

