-- ==== Sys2Proof/Laws/Step.lean ====
section
/-! SUPPORT. What one step can do, said once (R20, R190, R250). -/

namespace Sys2Proof.Machine

/-- The cases of a step that answers a next state: idle, `OE` settled before an operation, a command, a write of `ADDR` or
`BUF`, a hardware reset, a command abandoned by one, or a recovery of the platform. -/
theorem step_cases {s t : State} (h : step s = .next t) :
    (s.inputs = [] ∧ t = s) ∨
    (s.oe = true ∧ t = s.setOe false) ∨
    (∃ w rest i, s.inputs = .command w :: rest ∧ s.oe = false ∧ decode w = .ok i ∧ exec i (s.setInputs rest) = .next t) ∨
    (∃ a rest, s.inputs = .writeAddr a :: rest ∧ t = (s.setInputs rest).setAddr a) ∨
    (∃ i v rest, s.inputs = .writeBuf i v :: rest ∧ t = (s.setInputs rest).bufWrite i.toNat v) ∨
    (∃ rest, s.inputs = .hardReset :: rest ∧ t = (s.setInputs rest).hardReset) ∨
    (∃ w k rest i u, s.inputs = .commandCut w k :: rest ∧ s.oe = false ∧ decode w = .ok i ∧
      exec i (s.setInputs rest) = .next u ∧ t = (s.setInputs rest).cutAfter u k) ∨
    (∃ rest, s.inputs = .platformRecovers :: rest ∧ t = (s.setInputs rest).platformRecovers) := by
  unfold step takeInput at h
  split at h
  · rename_i hi
    exact .inl ⟨hi, (Host.Outcome.next.inj h).symm⟩
  rename_i x rest hi
  refine .inr ?_
  split at h
  · rename_i hx
    exact .inl ⟨(Bool.and_eq_true_iff.1 hx).2, (Host.Outcome.next.inj h).symm⟩
  rename_i hx
  refine .inr ?_
  cases x with
  | command w =>
    simp only [acceptInput, acceptCommand] at h
    split at h
    · rename_i i hd
      exact .inl ⟨w, rest, i, hi, by simpa [HostInput.startsOperation] using hx, hd, h⟩
    · cases h
  | writeAddr a => exact .inr (.inl ⟨a, rest, hi, (Host.Outcome.next.inj h).symm⟩)
  | writeBuf i v => exact .inr (.inr (.inl ⟨i, v, rest, hi, (Host.Outcome.next.inj h).symm⟩))
  | hardReset => exact .inr (.inr (.inr (.inl ⟨rest, hi, (Host.Outcome.next.inj h).symm⟩)))
  | commandCut w k =>
    simp only [acceptInput, acceptCut] at h
    split at h
    · rename_i u hu
      simp only [acceptCommand] at hu
      split at hu
      · rename_i i hd
        exact .inr (.inr (.inr (.inr (.inl ⟨w, k, rest, i, u, hi, by simpa [HostInput.startsOperation] using hx, hd, hu,
          (Host.Outcome.next.inj h).symm⟩))))
      · cases hu
    · cases h
    · cases h
  | platformRecovers =>
    exact .inr (.inr (.inr (.inr (.inr ⟨rest, hi, (Host.Outcome.next.inj h).symm⟩))))

end Sys2Proof.Machine
end

