-- ==== Sys2Proof/Laws/Decode.lean ====
section
/-! SUPPORT. Fields of a command word and the codes of the ROM commands (R70, R77). -/

namespace Sys2Proof

theorem getLsbD_commandOf (op : BitVec 4) (arg : Byte) (i : Nat) :
    (commandOf op arg).getLsbD i = if i < 8 then arg.getLsbD i else op.getLsbD (i - 8) :=
  BitVec.getLsbD_append (x := op) (y := arg) (i := i)

theorem getLsbD_opField (w : BitVec 12) (i : Nat) : (opField w).getLsbD i = (decide (i < 4) && w.getLsbD (8 + i)) :=
  BitVec.getLsbD_extractLsb' ..

theorem getLsbD_argField (w : BitVec 12) (i : Nat) : (argField w).getLsbD i = (decide (i < 8) && w.getLsbD i) := by
  have h := BitVec.getLsbD_extractLsb' 0 8 w i
  rwa [Nat.zero_add] at h

@[simp] theorem opField_commandOf (op : BitVec 4) (arg : Byte) : opField (commandOf op arg) = op := by
  apply BitVec.eq_of_getLsbD_eq
  intro i hi
  rw [getLsbD_opField, getLsbD_commandOf, if_neg (by omega), decide_eq_true hi, Bool.true_and]
  congr 1
  omega

@[simp] theorem argField_commandOf (op : BitVec 4) (arg : Byte) : argField (commandOf op arg) = arg := by
  apply BitVec.eq_of_getLsbD_eq
  intro i hi
  rw [getLsbD_argField, getLsbD_commandOf, if_pos hi, decide_eq_true hi, Bool.true_and]

/-- A command word is its two fields (R70). -/
theorem commandOf_fields (w : BitVec 12) : commandOf (opField w) (argField w) = w := by
  apply BitVec.eq_of_getLsbD_eq
  intro i hi
  rw [getLsbD_commandOf]
  split
  · rename_i h
    rw [getLsbD_argField, decide_eq_true h, Bool.true_and]
  · rw [getLsbD_opField, decide_eq_true (by omega), Bool.true_and]
    congr 1
    omega

theorem decode_host_commandOf (op : BitVec 4) (arg : Byte) :
    decode (.host (commandOf op arg)) = .ok (decodeOp op arg) := by
  simp [decode, decodeHost]

theorem bitArg_bit (b : Bool) : (bitArg b).getLsbD 0 = b := by cases b <;> decide

theorem countArg_toNat (n : Nat) (h : n ≤ 255) : (BitVec.ofNat 8 n).toNat = n := by
  rw [BitVec.toNat_ofNat]
  omega

end Sys2Proof
end

