-- ==== Sys2Proof/Laws/Frames.lean ====
section
/-! SUPPORT. The frames of Match ROM and Read ROM when every action works (R142, R143), with their 64 slots bit by
bit; the rounds of a search pass in the words of the statements (R163 to R166). -/

namespace Sys2Proof.Machine

open Proc

/-- Eight groups of eight are 64 in a row. -/
theorem flatMap_range_eight {α : Type} (f : Nat → List α) :
    ((List.range 8).flatMap fun k => (List.range 8).flatMap fun i => f (8 * k + i)) = (List.range 64).flatMap f := by
  simp [List.range, List.range.loop]

/-- The bytes of an address, slot by slot (R55, R143). -/
theorem writeByteEvents_address (a : Address) :
    ((List.range 8).flatMap fun k => writeByteEvents (addrByte a k)) =
      (List.range 64).flatMap fun b => writeSlot (a.getLsbD b) := by
  rw [← flatMap_range_eight fun b => writeSlot (a.getLsbD b)]
  simp only [writeByteEvents, List.flatMap]
  congr 2
  funext k
  congr 1
  apply List.map_congr_left
  intro i hi
  rw [List.mem_range] at hi
  rw [getLsbD_addrByte, decide_eq_true hi, Bool.true_and]

/-- The 64 read slots of an address, slot by slot (R55, R142). -/
theorem readByteEvents_address (bit : Nat → Bool) :
    ((List.range 8).flatMap fun k => readByteEvents fun i => bit (8 * k + i)) =
      (List.range 64).flatMap fun b => readSlot (bit b) := flatMap_range_eight fun b => readSlot (bit b)

theorem State.works_afterStart {s : State} {j n : Nat} (h : s.RomReady j n) (es : List LineEvent) :
    ((s.after (j + 20) es).sawPresence false).Works n := fun k hk => by
  rw [State.answer_sawPresence, State.answer_after]
  exact h.2.2.1 _ (by omega)

/-- Match ROM with presence and every action working. -/
theorem matchRomFrame_works {s : State} {j : Nat} (h : s.RomReady j 128) (a : Address) :
    matchRomFrame a s = .done () ((s.after (j + 148)
      (romStartEvents j 0x55 ++ (List.range 64).flatMap fun b => writeSlot (a.getLsbD b))).sawPresence false) := by
  rw [matchRomFrame, andThen_done (romStart_works h _), writeAddress_works (State.works_afterStart h _),
    writeByteEvents_address, State.after_sawPresence, State.after_after]
  rfl

/-- Read ROM with presence and every action working: the address is tested after its 64 slots. -/
theorem readRomFrame_works {s : State} {j : Nat} (h : s.RomReady j 192) (a : Address)
    (ha : ∀ b < 64, a.getLsbD b = s.level (j + 20 + 3 * b + 2)) :
    readRomFrame s =
      (let t := (s.after (j + 212)
          (romStartEvents j 0x33 ++ (List.range 64).flatMap fun b => readSlot (a.getLsbD b))).sawPresence false
       if addressValid a then .done a t else .raised .crcMismatch t) := by
  have hbit : ∀ es, ∀ b < 64, ((s.after (j + 20) es).sawPresence false).readBitAt b = a.getLsbD b := by
    intro es b hb
    rw [ha b hb, State.readBitAt, State.level_sawPresence, State.level_after]
    rfl
  have hread : readAddress ((s.after (j + 20) (romStartEvents j 0x33)).sawPresence false) =
      .done a ((s.after (j + 212)
        (romStartEvents j 0x33 ++ (List.range 64).flatMap fun b => readSlot (a.getLsbD b))).sawPresence false) := by
    rw [readAddress_works (State.works_afterStart h _), readByteEvents_address, State.after_sawPresence,
      State.after_after]
    congr 1
    · exact BitVec.eq_of_getLsbD_eq fun b hb => by rw [getLsbD_addressOfBits _ _ hb, hbit _ b hb]
    · simp only [List.flatMap]
      congr 4
      apply List.map_congr_left
      intro b hb
      rw [hbit _ b (List.mem_range.1 hb)]
  rw [readRomFrame, andThen_done (romStart_works h _)]
  show readAddress.andThen _ ((s.after (j + 20) (romStartEvents j 0x33)).sawPresence false) = _
  rw [andThen_done hread]
  cases hv : addressValid a <;> simp [checkAddress, hv, andThen]

/-! ## Rounds -/

/-- The direction of round `n` (R164, R165), in the words of the statements. -/
theorem passDir_eq_branch (s : State) (j n : Nat) :
    passDir s.steerPosition s.sAddr (s.passLevels j) n = s.branch j n := by
  simp only [passDir, State.branch, roundDir, discrepancyDir, State.passLevels, State.idBit, State.cmpBit,
    State.steerPosition, Nat.add_assoc]
  by_cases h : s.level (j + (20 + (8 * (n - 1) + 2))) = s.level (j + (20 + (8 * (n - 1) + 5)))
  · simp only [h, bne_self_eq_false, Bool.false_eq_true, if_false, ne_eq, not_true_eq_false]
    split <;> split <;> rfl
  · rw [if_pos (by simpa using h), if_pos h]

/-- The slots of the rounds, in the words of the statements. -/
theorem passEvents_eq_roundsEvents (s : State) (j k : Nat) :
    passEvents s.steerPosition s.sAddr (s.passLevels j) k = s.roundsEvents j k := by
  unfold passEvents State.roundsEvents
  simp only [passDir_eq_branch]
  rfl

/-- The candidate after round 64 is the address of the branches taken. -/
theorem passCandidate_a (s : State) (j : Nat) (a : Address)
    (ha : ∀ n, 1 ≤ n → n ≤ 64 → a.getLsbD (n - 1) = s.branch j n) :
    (passCandidate s.steerPosition s.sAddr (s.passLevels j) 64).a = a := by
  apply BitVec.eq_of_getLsbD_eq
  intro i hi
  rw [getLsbD_passCandidate _ _ _ _ _ hi, if_pos hi, passDir_eq_branch, ← ha (i + 1) (by omega) (by omega),
    Nat.add_sub_cancel]

/-- A round that `last_zero` names is a discrepancy resolved to 0 (R166). -/
theorem passCandidate_lastZero_at (ld : Nat) (prev : Address) (lv : Nat → Bool) (k : Nat)
    (h : 0 < (passCandidate ld prev lv k).lastZero) :
    lv (8 * ((passCandidate ld prev lv k).lastZero - 1) + 2) = false ∧
      lv (8 * ((passCandidate ld prev lv k).lastZero - 1) + 5) = false ∧
      passDir ld prev lv (passCandidate ld prev lv k).lastZero = false := by
  induction k with
  | zero => exact absurd h (by simp [passCandidate])
  | succ k ih =>
    rw [passCandidate_succ] at h ⊢
    simp only [roundLastZero] at h ⊢
    split at h
    · rename_i hz
      simp only [hz, if_true]
      simp only [Bool.and_eq_true, Bool.not_eq_true'] at hz
      exact ⟨hz.1.1, hz.1.2, hz.2⟩
    · rename_i hz
      rw [if_neg hz]
      exact ih h

/-- What a pass leaves depends on the levels of its read slots only. -/
theorem passCandidate_congr (ld : Nat) (prev : Address) {lv lv' : Nat → Bool} (k : Nat)
    (h : ∀ i < k, lv (8 * i + 2) = lv' (8 * i + 2) ∧ lv (8 * i + 5) = lv' (8 * i + 5)) :
    passCandidate ld prev lv k = passCandidate ld prev lv' k := by
  induction k with
  | zero => rfl
  | succ k ih =>
    have hk := h k (by omega)
    rw [passCandidate_succ, passCandidate_succ, ih fun i hi => h i (by omega)]
    simp only [passDir, Nat.add_sub_cancel, hk.1, hk.2]

theorem passEvents_congr (ld : Nat) (prev : Address) {lv lv' : Nat → Bool} (k : Nat)
    (h : ∀ i < k, lv (8 * i + 2) = lv' (8 * i + 2) ∧ lv (8 * i + 5) = lv' (8 * i + 5)) :
    passEvents ld prev lv k = passEvents ld prev lv' k := by
  simp only [passEvents, List.flatMap]
  congr 1
  apply List.map_congr_left
  intro i hi
  have hi := h i (List.mem_range.1 hi)
  simp only [passDir, Nat.add_sub_cancel, hi.1, hi.2]

end Sys2Proof.Machine
end

