-- ==== Sys2Proof/Laws/PerInstr.lean ====
section
/-! SUPPORT. Statements made per instruction. Family RoundTrip: decoding the word of a well-formed instruction gives
it back (R70 to R74, R77). -/

namespace Sys2Proof.Laws.RoundTrip

/-- Decode after encode, for one instruction. -/
def Statement (i : Instr) : Prop := i.WellFormed = true → decode (encode i) = .ok i

theorem reset : Statement .reset := fun _ => decode_host_commandOf _ _
theorem writeBit (b : Bool) : Statement (.writeBit b) := fun _ => by
  rw [encode, decode_host_commandOf]
  exact congrArg (fun x => Except.ok (Instr.writeBit x)) (bitArg_bit b)
theorem readBit : Statement .readBit := fun _ => decode_host_commandOf _ _
theorem writeByte (v : Byte) : Statement (.writeByte v) := fun _ => decode_host_commandOf _ _
theorem readByte : Statement .readByte := fun _ => decode_host_commandOf _ _
theorem writeBytes (n : Nat) : Statement (.writeBytes n) := fun h => by
  rw [encode, decode_host_commandOf]
  exact congrArg (fun x => Except.ok (Instr.writeBytes x)) (countArg_toNat n (of_decide_eq_true h))
theorem readBytes (n : Nat) : Statement (.readBytes n) := fun h => by
  rw [encode, decode_host_commandOf]
  exact congrArg (fun x => Except.ok (Instr.readBytes x)) (countArg_toNat n (of_decide_eq_true h))
theorem select : Statement .select := fun _ => decode_host_commandOf _ _
theorem skipSelect : Statement .skipSelect := fun _ => decode_host_commandOf _ _
theorem readRom : Statement .readRom := fun _ => decode_host_commandOf _ _
theorem searchInit (alarm : Bool) : Statement (.searchInit alarm) := fun _ => by
  rw [encode, decode_host_commandOf]
  exact congrArg (fun x => Except.ok (Instr.searchInit x)) (bitArg_bit alarm)
theorem searchNext : Statement .searchNext := fun _ => decode_host_commandOf _ _
theorem crc8 (n : Nat) : Statement (.crc8 n) := fun h => by
  rw [encode, decode_host_commandOf]
  exact congrArg (fun x => Except.ok (Instr.crc8 x)) (countArg_toNat n (of_decide_eq_true h))
theorem reserved0 : Statement .reserved0 := fun _ => decode_host_commandOf _ _
theorem reservedE : Statement .reservedE := fun _ => decode_host_commandOf _ _
theorem reservedF : Statement .reservedF := fun _ => decode_host_commandOf _ _
theorem romRead : Statement .romRead := fun _ => rfl
theorem romMatch : Statement .romMatch := fun _ => rfl
theorem romSkip : Statement .romSkip := fun _ => rfl
theorem romSearch : Statement .romSearch := fun _ => rfl
theorem romAlarmSearch : Statement .romAlarmSearch := fun _ => rfl

end Sys2Proof.Laws.RoundTrip
end

