-- ==== Sys2Proof/Laws/Resets.lean ====
section
/-! SUPPORT. All that a Reset can do, from any state and whatever the platform answers (R111, R112, R221): its frame is
whole and `PRESENCE` written, or it ends before the frame is whole with `PRESENCE` as it was. -/

namespace Sys2Proof.Machine

open Proc

/-- A `DriveLow` or `Release` of the stretch `es` failed, as its last action: what can leave the line driven (R221). -/
def EndsInOutputFault (es : List LineEvent) : Prop :=
  es.getLast? = some (.failed .driveLow) ∨ es.getLast? = some (.failed .release)

theorem EndsInOutputFault.append {es : List LineEvent} (h : EndsInOutputFault es) (pre : List LineEvent) :
    EndsInOutputFault (pre ++ es) := by
  unfold EndsInOutputFault at *
  rcases h with h | h <;> simp [List.getLast?_append, h]

/-- `WaitHigh` with at most `n` samples: the line, not driven by OWM, is seen high after fewer than `n` low samples, or
the stretch ends in an error with nothing driven. -/
theorem waitHighUpTo_cases (n : Nat) (s : State) :
    (∃ j u, j < n ∧ s.Released ∧ waitHighUpTo n s = .done () u ∧ u.Released ∧ u.status = s.status ∧
      u.trace = s.trace ++ (lowSamples j ++ [.sample true])) ∨
    (∃ e es u, (e = .lineFault ∨ e = .busNotHigh) ∧ waitHighUpTo n s = .raised e u ∧ u.oe = s.oe ∧
      u.outputLow = s.outputLow ∧ u.status = s.status ∧ u.trace = s.trace ++ es ∧ .delay .rstr ∉ es) := by
  induction n generalizing s with
  | zero => exact .inr ⟨.busNotHigh, [], s, .inr rfl, rfl, rfl, rfl, rfl, (List.append_nil _).symm, List.not_mem_nil⟩
  | succ n ih =>
    cases ha : s.answer 0 with
    | fails o =>
      exact .inr ⟨.lineFault, [.failed .sample], _, .inl rfl, andThen_raised (sample_fails ha), rfl, rfl, rfl, rfl,
        by simp⟩
    | works l =>
      cases hl : s.lineLevel l with
      | true =>
        have ho : s.Released := .of_lineLevel hl
        refine .inl ⟨0, (s.consume 1).log (.sample true), Nat.succ_pos n, ho, ?_, ho, rfl, rfl⟩
        rw [waitHighUpTo, andThen_done (sample_works ha), hl]
        rfl
      | false =>
        have hstep : waitHighUpTo (n + 1) s =
            waitHighUpTo n (((s.consume 1).log (.sample false)).log (.delay .whp)) := by
          rw [waitHighUpTo, andThen_done (sample_works ha), hl]
          rfl
        rw [hstep]
        rcases ih (((s.consume 1).log (.sample false)).log (.delay .whp)) with
          ⟨j, u, hj, ho, hr, hu, hs, ht⟩ | ⟨e, es, u, he, hr, hu, hl, hs, ht, hn⟩
        · exact .inl ⟨j + 1, u, Nat.succ_lt_succ hj, ho, hr, hu, hs, by simp [ht, State.log, lowSamples]⟩
        · exact .inr ⟨e, .sample false :: .delay .whp :: es, u, he, hr, hu, hl, hs, by simp [ht, State.log], by simp [hn]⟩

/-- The drive and presence steps of a Reset: whole, or cut by a failing action before the final delay. -/
theorem resetPulse_cases (s : State) :
    (∃ level u, resetPulse s = .done (!level) u ∧ u.Released ∧ u.status = withPresence s.status (!level) ∧
      u.trace = s.trace ++ resetPulseEvents level) ∨
    (∃ es u, resetPulse s = .raised .lineFault u ∧ u.status = s.status ∧ u.trace = s.trace ++ es ∧
      .delay .rstr ∉ es ∧ (¬u.Released → EndsInOutputFault es)) := by
  cases h0 : s.answer 0 with
  | fails o =>
    exact .inr ⟨[.failed .driveLow], _, andThen_raised (driveLow_fails h0), rfl, rfl, by simp, fun _ => .inl rfl⟩
  | works l0 =>
    have e0 := driveLow_works h0
    cases h1 : s.answer 1 with
    | fails o =>
      exact .inr ⟨[.driveLow, .delay .rstl, .failed .release], _,
        (andThen_done e0).trans ((andThen_done (delay_apply _ _)).trans
          (andThen_raised (release_fails (o := o) (by simpa using h1)))),
        rfl, by simp [State.log], by simp, fun _ => .inr rfl⟩
    | works l1 =>
      cases h2 : s.answer 2 with
      | fails o =>
        exact .inr ⟨[.driveLow, .delay .rstl, .release, .delay .pds, .failed .sample], _,
          (andThen_done e0).trans ((andThen_done (delay_apply _ _)).trans
            ((andThen_done (release_works (l := l1) (by simpa using h1))).trans ((andThen_done (delay_apply _ _)).trans
              (andThen_raised (sample_fails (o := o) (by simpa using h2)))))),
          rfl, by simp [State.log], by simp, fun h => absurd ⟨rfl, rfl⟩ h⟩
      | works l2 =>
        have hw : s.Works 3 := fun k hk => by
          rcases (by omega : k = 0 ∨ k = 1 ∨ k = 2) with rfl | rfl | rfl
          · rw [h0]; rfl
          · rw [h1]; rfl
          · rw [h2]; rfl
        exact .inl ⟨s.level 2, _, resetPulse_works hw, ⟨rfl, rfl⟩, rfl, rfl⟩

/-- A stretch without the last delay of a reset frame holds no whole reset frame. -/
theorem not_resetFrame_prefix {es : List LineEvent} (h : .delay .rstr ∉ es) (lows : Nat) (level : Bool) :
    ¬resetFrame lows level <+: es :=
  fun hp => h (hp.subset (by simp [resetFrame, resetPulseEvents]))

/-- `Reset` (R112): the frame is whole and `PRESENCE` is what its sample says, or it ends in `LINE_FAULT` or
`BUS_NOT_HIGH` before the frame is whole and `STATUS` is as it was. -/
theorem resetSequence_cases (s : State) :
    (∃ lows level u, lows < Config.nWh ∧ s.Released ∧ resetSequence s = .done (!level) u ∧ u.Released ∧
      u.status = withPresence s.status (!level) ∧ u.trace = s.trace ++ resetFrame lows level) ∨
    (∃ e es u, (e = .lineFault ∨ e = .busNotHigh) ∧ resetSequence s = .raised e u ∧ u.status = s.status ∧
      u.trace = s.trace ++ es ∧ (∀ lows level, ¬resetFrame lows level <+: es) ∧
      (s.Released → ¬u.Released → EndsInOutputFault es) ∧
      (s.outputLow = true → u.oe = s.oe ∧ u.outputLow = true)) := by
  rcases waitHighUpTo_cases Config.nWh s with ⟨j, u, hj, ho, hr, hu, hs, ht⟩ | ⟨e, es, u, he, hr, hu, hl, hs, ht, hn⟩
  · rcases resetPulse_cases u with ⟨level, v, hp, hv, hvs, hvt⟩ | ⟨es, v, hp, hvs, hvt, hn, hv⟩
    · exact .inl ⟨j, level, v, hj, ho, by rw [resetSequence, waitHigh, andThen_done hr, hp], hv, by rw [hvs, hs],
        by simp [hvt, ht, resetFrame]⟩
    · refine .inr ⟨.lineFault, lowSamples j ++ [.sample true] ++ es, v, .inl rfl,
        by rw [resetSequence, waitHigh, andThen_done hr, hp], by rw [hvs, hs], by rw [hvt, ht, List.append_assoc],
        not_resetFrame_prefix ?_, fun _ h => (hv h).append _, fun h => by rw [ho.2] at h; cases h⟩
      have hl : ∀ k, LineEvent.delay .rstr ∉ lowSamples k := fun k => by
        induction k with
        | zero => exact List.not_mem_nil
        | succ k ih => simp [lowSamples, ih]
      simp [hl, hn]
  · exact .inr ⟨e, es, u, he, by rw [resetSequence, waitHigh, andThen_raised hr], hs, ht, not_resetFrame_prefix hn,
      fun h h' => absurd ⟨hu.trans h.1, hl.trans h.2⟩ h', fun h => ⟨hu, hl.trans h⟩⟩

end Sys2Proof.Machine
end

