-- ==== Sys2Proof/Tests/Slice0.lean ====
section
/-! SUPPORT. Tests of single steps and of decoding, the smoke test of WellFormed, and for each statement with
hypotheses a state and operands that meet them. Expected results are the spec's: the file and vector stand beside
each. -/

namespace Sys2Proof.Tests

open Sys2Proof.Machine

-- One test at a time: a test's evaluation is then not competing for memory with the others.
set_option Elab.async false

/-! ## WellFormed: the only check is the count of R72; 256 does not fit `ARG` -/

theorem test_wf_writeBytes_256 : (Instr.writeBytes 256).WellFormed = false := by decide
theorem test_wf_readBytes_256 : (Instr.readBytes 256).WellFormed = false := by decide
theorem test_wf_crc8_256 : (Instr.crc8 256).WellFormed = false := by decide
theorem test_wf_counts_255 : ([Instr.writeBytes 255, .readBytes 255, .crc8 255].all Instr.WellFormed) = true := by decide

/-! ## Decoding: words written out from R70, R71, R72 and R77 -/

theorem test_decode_reset : decodeTableWord 16 0b0001_0000_0000 = some .reset := by decide
theorem test_decode_reset_ignores_arg : decodeTableWord 16 0b0001_1111_1111 = some .reset := by decide -- V7.2
theorem test_decode_writeBit_1 : decodeTableWord 16 0b0010_0000_0001 = some (.writeBit true) := by decide
theorem test_decode_writeBit_0 : decodeTableWord 16 0b0010_1111_1110 = some (.writeBit false) := by decide -- V7.3
theorem test_decode_readBit : decodeTableWord 16 0b0011_0000_0000 = some .readBit := by decide
theorem test_decode_writeByte : decodeTableWord 16 0b0100_1010_0101 = some (.writeByte 0xA5) := by decide -- V4.1
theorem test_decode_readByte : decodeTableWord 16 0b0101_0000_0000 = some .readByte := by decide
theorem test_decode_writeBytes : decodeTableWord 16 0b0110_0000_0010 = some (.writeBytes 2) := by decide -- R196
theorem test_decode_readBytes : decodeTableWord 16 0b0111_0000_1001 = some (.readBytes 9) := by decide -- R82
theorem test_decode_select : decodeTableWord 16 0b1000_0000_0000 = some .select := by decide
theorem test_decode_skipSelect : decodeTableWord 16 0b1001_0000_0000 = some .skipSelect := by decide
theorem test_decode_readRom : decodeTableWord 16 0b1010_0000_0000 = some .readRom := by decide
theorem test_decode_searchInit : decodeTableWord 16 0b1011_0000_0011 = some (.searchInit true) := by decide -- V7.4
theorem test_decode_searchNext : decodeTableWord 16 0b1100_0000_0000 = some .searchNext := by decide
theorem test_decode_crc8 : decodeTableWord 16 0b1101_0000_1001 = some (.crc8 9) := by decide -- V7.7
theorem test_decode_reserved0 : decodeTableWord 16 0b0000_0000_0000 = some .reserved0 := by decide -- V7.1
theorem test_decode_reservedE : decodeTableWord 16 0b1110_0000_0000 = some .reservedE := by decide -- V7.1
theorem test_decode_reservedF : decodeTableWord 16 0b1111_1111_1111 = some .reservedF := by decide -- V7.1
theorem test_decode_romRead : decodeTableWord 8 0b0011_0011 = some .romRead := by decide
theorem test_decode_romMatch : decodeTableWord 8 0b0101_0101 = some .romMatch := by decide
theorem test_decode_romSkip : decodeTableWord 8 0b1100_1100 = some .romSkip := by decide
theorem test_decode_romSearch : decodeTableWord 8 0b1111_0000 = some .romSearch := by decide
theorem test_decode_romAlarmSearch : decodeTableWord 8 0b1110_1100 = some .romAlarmSearch := by decide
theorem test_decode_no_rom_command : decodeTableWord 8 0b1011_1110 = none := by decide -- R81: 0xBE is data
theorem test_decode_no_thirteenth_bit : decodeTableWord 16 0x1000 = none := by decide

/-! ## States for the tests -/

/-- OWM idle, line released, no enumeration. -/
def idle : State :=
  { oe := false, addr := 0x78000B1FCD10E828, data := 0x5A, status := 0x00, buf := [], sAddr := 0, sLd := 0,
    sFirst := true, sAlarm := false, sHalt := true, inputs := [], answers := [], outputLow := false, draws := 0, resets := 0, trace := [] }

/-- `idle` with the platform's next answers. -/
def answered (as : List LineAnswer) : State := { idle with answers := as }

/-- `n` actions that work, the rest of the line at level `l`. -/
def works (n : Nat) (l : Bool) : List LineAnswer := List.replicate n (.works l)

/-- A released line: `WaitHigh` sees high at once; presence is sampled at level `p`. -/
def frame (p : Bool) : List LineAnswer := works 3 true ++ [.works p]

/-- A read slot sampling `b`. -/
def slot (b : Bool) : List LineAnswer := [.works true, .works true, .works b]

/-- A byte read slot by slot, bit 0 first. -/
def byteSlots (v : Byte) : List LineAnswer := (List.range 8).flatMap fun i => slot (v.getLsbD i)

/-- The 64 rounds of a pass, with the `id_bit` and `cmp_bit` of round `n` at bit `n-1`. -/
def rounds (id cmp : BitVec 64) : List LineAnswer :=
  (List.range 64).flatMap fun i => slot (id.getLsbD i) ++ slot (cmp.getLsbD i) ++ works 2 true

/-- A whole pass: reset frame with presence, command byte, rounds. -/
def pass (id cmp : BitVec 64) : List LineAnswer := frame false ++ works 16 true ++ rounds id cmp

/-- `OE = 1`, the line driven. -/
abbrev driving : FaultedOutput := ⟨true, true⟩

/-- `OE = 0`, the line still driven. -/
abbrev stuck : FaultedOutput := ⟨false, true⟩

/-- The outcome is a next state with the property. -/
def ends (o : Host.Outcome State Fault Refusal) (p : State → Bool) : Bool :=
  match o with
  | .next t => p t
  | .fault _ => false
  | .refused _ => false

theorem next_of_ends {o : Host.Outcome State Fault Refusal} {p : State → Bool} (h : ends o p = true) :
    ∃ t, o = .next t ∧ p t = true := by
  cases o with
  | next t => exact ⟨t, rfl, h⟩
  | fault r => cases h
  | refused r => cases h

/-- Devices A, B, C of spec/95 section 5, and the bad ROM of V5.5. -/
def addrA : Address := 0x78000B1FCD10E828
def addrB : Address := 0x100008AC85700028
def addrC : Address := 0x7B06050403020110
def addrBad : Address := 0x78000B1FCD10EA28

/-- An enumeration of all devices just begun. -/
def fresh (as : List LineAnswer) : State := { answered as with sHalt := false }

/-! ## One step each: spec/95 -/

theorem test_reset_presence : -- V3.1
    ends (exec .reset (answered (frame false))) (fun t => t.status == 0x08 && t.oe == false &&
      t.trace == [.sample true, .driveLow, .delay .rstl, .release, .delay .pds, .sample false, .delay .rstr]) = true := by
  decide +kernel

theorem test_reset_empty_line : -- V3.2
    ends (exec .reset (answered (frame true))) (fun t => t.status == 0x00) = true := by decide +kernel

theorem test_writeBit_1 : -- V3.5
    ends (exec (.writeBit true) (answered (works 2 true))) (fun t => t.status == 0x00 &&
      t.trace == [.driveLow, .delay .w1l, .release, .delay .w1r]) = true := by decide +kernel

theorem test_writeBit_release_fails : -- V3.10
    ends (exec (.writeBit false) (answered [.works true, .fails driving])) (fun t => t.status == 0x01 &&
      t.trace == [.driveLow, .delay .w0l, .failed .release]) = true := by decide +kernel

theorem test_readBit_idle_line : -- V3.8
    ends (exec .readBit (answered (slot true))) (fun t => t.status == 0x00 && t.data == 0x01) = true := by
  decide +kernel

theorem test_readBit_sample_fails : -- V3.9
    ends (exec .readBit (answered [.works true, .works true, .fails driving])) (fun t => t.status == 0x01 &&
      t.data == 0x5A && t.oe == false &&
      t.trace == [.driveLow, .delay .rdl, .release, .delay .rds, .failed .sample]) = true := by decide +kernel

theorem test_writeByte_A5 : -- V4.1: 1,0,1,0,0,1,0,1
    ends (exec (.writeByte 0xA5) (answered (works 16 true))) (fun t => t.trace ==
      [.driveLow, .delay .w1l, .release, .delay .w1r, .driveLow, .delay .w0l, .release, .delay .w0r,
       .driveLow, .delay .w1l, .release, .delay .w1r, .driveLow, .delay .w0l, .release, .delay .w0r,
       .driveLow, .delay .w0l, .release, .delay .w0r, .driveLow, .delay .w1l, .release, .delay .w1r,
       .driveLow, .delay .w0l, .release, .delay .w0r, .driveLow, .delay .w1l, .release, .delay .w1r]) = true := by
  decide +kernel

theorem test_writeByte_third_release_fails : -- V4.11: 11 actions
    ends (exec (.writeByte 0xA5) (answered (works 5 true ++ [.fails .released]))) (fun t => t.status == 0x01 &&
      t.trace.length == 11) = true := by decide +kernel

theorem test_readByte_A5 : -- V4.5: samples 1,0,1,0,0,1,0,1
    ends (exec .readByte (answered ([true, false, true, false, false, true, false, true].flatMap slot)))
      (fun t => t.data == 0xA5 && t.trace.length == 48) = true := by decide +kernel

theorem test_readByte_first_bit_is_bit_0 : -- V4.6
    ends (exec .readByte (answered ([true, false, false, false, false, false, false, false].flatMap slot)))
      (fun t => t.data == 0x01) = true := by decide +kernel

theorem test_writeBytes_2 : -- V4.9: bits 0,1,1,1,0,0,1,0 then 1,1,1,1,1,1,1,0
    ends (exec (.writeBytes 2) { answered (works 32 true) with buf := [(0, 0x4E), (1, 0x7F)] }) (fun t =>
      t.trace == [false, true, true, true, false, false, true, false,
        true, true, true, true, true, true, true, false].flatMap writeSlot && t.trace.length == 64) = true := by
  decide +kernel

theorem test_writeBytes_0 : -- V4.8
    ends (exec (.writeBytes 0) idle) (fun t => t.status == 0x00 && t.trace == []) = true := by decide +kernel

theorem test_readBytes_sample_fails : -- V4.10
    ends (exec (.readBytes 3) { answered (byteSlots 0xAA ++ slot true ++ slot true ++
        [.works true, .works true, .fails driving]) with buf := [(0, 0x11), (1, 0x22), (2, 0x33)] }) (fun t =>
      t.status == 0x01 && [t.bufByte 0, t.bufByte 1, t.bufByte 2] == [0xAA, 0x22, 0x33]) = true := by decide +kernel

theorem test_readBytes_in_order :
    ends (exec (.readBytes 2) (answered (byteSlots 0x50 ++ byteSlots 0x05))) (fun t => -- P1, step 3
      t.status == 0x00 && t.bufByte 0 == 0x50 && t.bufByte 1 == 0x05) = true := by decide +kernel

theorem test_select_B : -- V5.7
    ends (exec .select { answered (frame false ++ works 144 true) with addr := addrB }) (fun t => t.status == 0x08 &&
      t.trace == resetFrame 0 false ++ ([0x55, 0x28, 0x00, 0x70, 0x85, 0xAC, 0x08, 0x00, 0x10] : List Byte).flatMap
        writeByteEvents) = true := by decide +kernel

theorem test_select_empty_line : -- V5.8
    ends (exec .select { answered (frame true) with addr := 1 }) (fun t => t.status == 0x03 && t.addr == 1 &&
      t.trace.length == 7) = true := by decide +kernel

theorem test_skipSelect : -- V5.1: 0,0,1,1,0,0,1,1
    ends (exec .skipSelect (answered (frame false ++ works 16 true))) (fun t => t.status == 0x08 &&
      t.trace == resetFrame 0 false ++ [false, false, true, true, false, false, true, true].flatMap writeSlot) = true := by
  decide +kernel

theorem test_skipSelect_empty_line : -- V5.2
    ends (exec .skipSelect (answered (frame true))) (fun t => t.status == 0x03 && t.trace.length == 7) = true := by
  decide +kernel

/-- The answers of a `READ_ROM` whose 64 read slots give `a`. -/
def romAnswers (a : Address) : List LineAnswer :=
  frame false ++ works 16 true ++ (List.range 64).flatMap fun i => slot (a.getLsbD i)

theorem test_readRom_A : -- V5.3
    ends (exec .readRom { answered (romAnswers addrA) with addr := 0 }) (fun t => t.status == 0x08 && t.addr == addrA) = true := by decide +kernel

theorem test_readRom_A_and_B : -- V5.4: the AND of the two
    ends (exec .readRom { answered (romAnswers 0x1000080C85100028) with addr := 0 }) (fun t => t.status == 0x0D &&
      t.addr == 0) = true := by decide +kernel

theorem test_searchInit : -- P4, step 1
    ends (exec (.searchInit true) { idle with sLd := 12, sFirst := false, status := 0x18 }) (fun t =>
      t.status == 0x08 && t.sAlarm == true && t.sHalt == false && t.sFirst == true && t.sLd == 0 &&
      t.trace == []) = true := by decide +kernel

/-- Bits 1 to 64 of V6.1 pass 1, round 1 at bit 0. -/
def idPass1 : BitVec 64 := 0b0111101100000110000001010000010000000011000000100000000100010000
def cmpPass1 : BitVec 64 := 0b1000010011111001111110101111101111111100111111011111111011100111

theorem test_searchNext_first_pass : -- V6.1, pass 1
    ends (exec .searchNext (fresh (pass idPass1 cmpPass1))) (fun t => t.status == 0x18 && t.addr == addrC &&
      t.sAddr == addrC && t.sLd == 4 && t.sFirst == false) = true := by decide +kernel

/-- Bits 1 to 64 of V6.1 pass 2, round 1 at bit 0. -/
def idPass2 : BitVec 64 := 0b0001000000000000000010001010110010000101011100000000000000100000
def cmpPass2 : BitVec 64 := 0b1110111111111111111101110101001101111010100011111111011111010111

theorem test_searchNext_second_pass : -- V6.1, pass 2: all three arms of R165
    ends (exec .searchNext { fresh (pass idPass2 cmpPass2) with sAddr := addrC, sLd := 4, sFirst := false }) (fun t =>
      t.status == 0x18 && t.addr == addrB && t.sLd == 12) = true := by decide +kernel

theorem test_crc8_payload : -- V7.7
    ends (exec (.crc8 9) { idle with buf := [(0, 0x50), (1, 0x05), (2, 0x4B), (3, 0x46), (4, 0x7F), (5, 0xFF), (6, 0x0C),
      (7, 0x10), (8, 0x1C)] }) (fun t => t.data == 0x00 && t.status == 0x00) = true := by decide +kernel

theorem test_crc8_check_value : -- V2.14
    crc8 [0x31, 0x32, 0x33, 0x34, 0x35, 0x36, 0x37, 0x38, 0x39] = 0xA1 := by decide +kernel

theorem test_crc8_steps : -- R105
    ([[0x02], [0x02, 0x1C], [0x02, 0x1C, 0xB8], [0x02, 0x1C, 0xB8, 0x01], [0x02, 0x1C, 0xB8, 0x01, 0x00],
      [0x02, 0x1C, 0xB8, 0x01, 0x00, 0x00], [0x02, 0x1C, 0xB8, 0x01, 0x00, 0x00, 0x00]].map crc8) =
      [0xBC, 0xAF, 0x1E, 0xDC, 0xF4, 0x15, 0xA2] := by decide +kernel

theorem test_reserved : -- V7.1
    [Instr.reserved0, .reservedE, .reservedF].all (fun i =>
      ends (exec i { idle with status := 0x18 }) (fun t => t == { idle with status := 0x1E })) = true := by decide +kernel

theorem test_romRead : -- R142, V5.3
    ends (exec .romRead { answered (romAnswers addrA) with addr := 0 }) (fun t => t.addr == addrA) = true := by
  decide +kernel

theorem test_romMatch : -- R143, V5.7
    ends (exec .romMatch { answered (frame false ++ works 144 true) with addr := addrB }) (fun t =>
      t.status == 0x08 && t.addr == addrB) = true := by decide +kernel

theorem test_romSkip : -- R144, V5.1
    ends (exec .romSkip (answered (frame false ++ works 16 true))) (fun t => t.trace.length == 39) = true := by
  decide +kernel

theorem test_romSearch : -- R145, R171, V6.1 pass 1: the whole frame, nothing of the Search State written
    ends (exec .romSearch (fresh (pass idPass1 cmpPass1))) (fun t => t.sAddr == 0 && t.sLd == 0 && t.sFirst &&
      t.addr == addrA && t.status == 0x08) = true := by
  decide +kernel

theorem test_romAlarmSearch_nobody : -- R146, V6.5: 51 actions, command bits 0,0,1,1,0,1,1,1
    ends (exec .romAlarmSearch (fresh (frame false ++ works 22 true))) (fun t => t.status == 0x0C && t.sHalt == false &&
      t.sFirst == true && t.trace.length == 51 && (t.trace.drop 7).take 32 ==
        [false, false, true, true, false, true, true, true].flatMap writeSlot) = true := by decide +kernel

/-! ## The step, and what comes between operations -/

theorem test_step_runs_first_word :
    ends (step (State.reset.withFetchWord 16 0x000)) (fun t => t.status == 0x06) = true := by decide +kernel

theorem test_step_refuses_other_rom_bytes :
    step ({ idle with inputs := [.command (.rom 0xBE)] }) = .refused (.notARomCommand 0xBE) := by rfl

theorem test_buf_write_keeps_form :
    Memory.write (Memory.write [(3, 0x11), (7, 0x22)] 5 0x33) 3 0x44 = [(3, 0x44), (5, 0x33), (7, 0x22)] := by decide

theorem test_ok_clears_oe : -- R21, R38, R221: `OE` is 0 after `OK`, the output drives on
    ends (exec (.crc8 0) { idle with oe := true, outputLow := true }) (fun t => t.oe == false && t.outputLow &&
      t.trace == []) = true := by decide +kernel

theorem test_operation_starts_with_oe_zero : -- R73, R221, R227: `OE` settles, the command waiting; then only `CODE` changes
    ends (step { idle with oe := true, outputLow := true, status := 0x01, inputs := [.command (.host 0x000)] })
      (fun t => t == { idle with outputLow := true, status := 0x01, inputs := [.command (.host 0x000)] } &&
        ends (step t) (fun u => u == { idle with outputLow := true, status := 0x06 })) = true := by decide +kernel

theorem test_release_fault_leaves_both_values : -- R221, U2: `OE` and the real output at either value, each apart
    [false, true].all (fun b => [false, true].all fun l =>
      ends (exec (.writeBit true) (answered [.works true, .fails ⟨b, l⟩])) fun t => t.oe == b && t.outputLow == l) = true := by
  decide +kernel

theorem test_platform_recovers : -- R221
    ends (step { idle with oe := true, outputLow := true, status := 0x01, inputs := [.platformRecovers] })
      (fun t => t.oe == false && t.outputLow == false && t.status == 0x01 && t.trace == []) = true := by decide +kernel

theorem test_reset_search_next : -- V6.10
    ends (exec .searchNext State.reset) (fun t => t.status == 0x00 && t.trace == []) = true := by decide +kernel

theorem test_cut_operation : -- R250: three actions, then the registers of R37
    ends (step { answered (works 16 true) with inputs := [.commandCut (.host 0x4A5) 3] }) (fun t => t.status == 0x00 &&
      t.trace == [.driveLow, .delay .w1l, .release] && t.answers.length == 14 && t.resets == 1) = true := by
  decide +kernel

theorem test_default_durations : -- R262
    [resetFrame 0 false, lowSamples 125, writeSlot true, writeSlot false, readSlot true, writeByteEvents 0xA5].map
      (traceMicros TimingProfile.standard) = [960, 250, 70, 70, 70, 560] := by decide +kernel

/-! ## Witnesses: for each statement with hypotheses, a state and operands that meet them, at the ends of their ranges -/

/-! ### Lists of answers -/

theorem answered_works (n : Nat) (l : Bool) (as : List LineAnswer) : (answered (works n l ++ as)).Works n := by
  intro k hk
  simp [State.answer, answered, works, List.getElem?_append, hk, LineAnswer.ok]

theorem answered_at (n : Nat) (l : Bool) (a : LineAnswer) (as : List LineAnswer) :
    (answered (works n l ++ a :: as)).answer n = a := by
  simp [State.answer, answered, works]

theorem answered_level (n k : Nat) (l : Bool) (as : List LineAnswer) (hk : k < n) :
    (answered (works n l ++ as)).level k = l := by
  simp [State.level, State.answer, answered, works, List.getElem?_append, hk, LineAnswer.level]

theorem works_append (m n : Nat) (l : Bool) (as : List LineAnswer) :
    works m l ++ (works n l ++ as) = works (m + n) l ++ as := by
  simp only [works, ← List.append_assoc, List.replicate_append_replicate]

/-- A reset frame with `j` low samples first and presence at level `p`, then `n` more actions at level `b`. -/
def lowFrame (j : Nat) (p b : Bool) (n : Nat) : List LineAnswer := works j false ++ (frame p ++ works n b)

theorem lowFrame_answer (j n k : Nat) (p b : Bool) (hk : k < j + (n + 4)) :
    (answered (lowFrame j p b n)).answer k =
      if k < j then .works false else if k < j + 3 then .works true else if k = j + 3 then .works p else .works b := by
  by_cases h1 : k < j
  · simp [State.answer, answered, lowFrame, works, List.getElem?_append, h1]
  · obtain ⟨m, rfl⟩ : ∃ m, k = j + m := ⟨k - j, by omega⟩
    rcases (by omega : m = 0 ∨ m = 1 ∨ m = 2 ∨ m = 3 ∨ 4 ≤ m) with rfl | rfl | rfl | rfl | h
    · simp [State.answer, answered, lowFrame, frame, works]
    · simp [State.answer, answered, lowFrame, frame, works]
    · simp [State.answer, answered, lowFrame, frame, works]
    · simp [State.answer, answered, lowFrame, frame, works]
    · rw [if_neg h1, if_neg (by omega), if_neg (by omega)]
      obtain ⟨m, rfl⟩ : ∃ q, m = q + 4 := ⟨m - 4, by omega⟩
      simp [State.answer, answered, lowFrame, frame, works, (by omega : m < n)]

theorem lowFrame_works (j n : Nat) (p b : Bool) : (answered (lowFrame j p b n)).Works (j + (n + 4)) := by
  intro k hk
  rw [lowFrame_answer j n k p b hk]
  repeat' split
  all_goals rfl

theorem lowFrame_low (j n k : Nat) (p b : Bool) (hk : k < j) : (answered (lowFrame j p b n)).level k = false := by
  rw [State.level, lowFrame_answer j n k p b (by omega), if_pos hk]
  rfl

theorem lowFrame_high (j n : Nat) (p b : Bool) : (answered (lowFrame j p b n)).level j = true := by
  rw [State.level, lowFrame_answer j n j p b (by omega), if_neg (by omega), if_pos (by omega)]
  rfl

theorem lowFrame_presence (j n : Nat) (p b : Bool) : (answered (lowFrame j p b n)).level (j + 3) = p := by
  rw [State.level, lowFrame_answer j n _ p b (by omega), if_neg (by omega), if_neg (by omega), if_pos rfl]
  rfl

theorem lowFrame_ready (j n : Nat) (b : Bool) (hj : j < Config.nWh) :
    (answered (lowFrame j false b (16 + n))).RomReady j n :=
  ⟨⟨rfl, rfl⟩, hj, (lowFrame_works j (16 + n) false b).mono (by omega), fun k hk => lowFrame_low j _ k false b hk,
    lowFrame_high j _ false b, lowFrame_presence j _ false b⟩

/-- The two ends of the range `0 ≤ j < N_WH` of the low samples. -/
theorem witness_low_samples : 0 < Config.nWh ∧ Config.nWh - 1 < Config.nWh := by
  have := Config.nWh_pos
  omega

/-! ### Encoding and step -/

theorem witness_DecodeAfterEncode :
    (Instr.writeBytes 0).WellFormed = true ∧ (Instr.writeBytes 255).WellFormed = true ∧
      Instr.romAlarmSearch.WellFormed = true := by decide

theorem witness_HostWordsDecodeByTableRow :
    ([0x0FF, 0x1FF, 0x2FF, 0x3FF, 0x4FF, 0x5FF, 0x6FF, 0x7FF, 0x8FF, 0x9FF, 0xAFF, 0xBFF, 0xCFF, 0xDFF, 0xEFF, 0xFFF] :
        List (BitVec 12)).map (· &&& 0xF00) =
      [0x000, 0x100, 0x200, 0x300, 0x400, 0x500, 0x600, 0x700, 0x800, 0x900, 0xA00, 0xB00, 0xC00, 0xD00, 0xE00, 0xF00] := by
  decide

/-- A state in the middle of an enumeration, with the line left driven by a failed `Release`: no premise of the
invariant is empty in it. -/
def busy : State :=
  { fresh (works 2 true) with
    oe := true, outputLow := true, addr := addrC, status := 0x19, buf := [(0, 0x4E), (255, 0x7F)], sAddr := addrC, sLd := 4, sFirst := false
    trace := [.driveLow, .delay .w1l, .failed .release] }

theorem witness_StepRunsDecodedCommand :
    (∃ (s : State) (w : CommandWord) (rest : List HostInput) (i : Instr),
      s.inputs = .command w :: rest ∧ s.oe = false ∧ decode w = .ok i) ∧
    (∃ (s : State) (c : Byte) (rest : List HostInput),
      s.inputs = .command (.rom c) :: rest ∧ s.oe = false ∧ decode (.rom c) = .error (.notARomCommand c)) ∧
    (∃ (s : State) (w : CommandWord) (rest : List HostInput), s.inputs = .command w :: rest ∧ s.oe = true) ∧
    (∃ s : State, s.inputs = []) :=
  ⟨⟨{ idle with inputs := [.command (.host 0x4CC)] }, _, [], .writeByte 0xCC, rfl, rfl, rfl⟩,
    ⟨{ idle with inputs := [.command (.rom 0xBE)] }, 0xBE, [], rfl, rfl, rfl⟩,
    ⟨{ busy with inputs := [.command (.host 0x000)] }, _, [], rfl, rfl⟩, ⟨idle, rfl⟩⟩

theorem witness_HostWritesAddrAndBuf :
    (∃ (s : State) (a : Address) (rest : List HostInput), s.inputs = .writeAddr a :: rest) ∧
    (∃ (s : State) (rest : List HostInput), s.inputs = .writeBuf 0x00 0xAA :: rest) ∧
    (∃ (s : State) (rest : List HostInput), s.inputs = .writeBuf 0xFF 0xAA :: rest) :=
  ⟨⟨{ idle with inputs := [.writeAddr addrB] }, _, [], rfl⟩, ⟨{ idle with inputs := [.writeBuf 0x00 0xAA] }, [], rfl⟩,
    ⟨{ idle with inputs := [.writeBuf 0xFF 0xAA] }, [], rfl⟩⟩

theorem witness_HardwareResetValues : ∃ (s : State) (rest : List HostInput), s.inputs = .hardReset :: rest :=
  ⟨{ idle with inputs := [.hardReset] }, [], rfl⟩

/-- A cut before the first action, and one past the last; and one of an operation that waits for `OE`. -/
theorem witness_ResetAbandonsOperation :
    (∀ k ∈ [0, 100], ∃ (s : State) (w : CommandWord) (rest : List HostInput) (i : Instr) (u : State),
      s.inputs = .commandCut w k :: rest ∧ s.oe = false ∧ decode w = .ok i ∧
        exec i { s with inputs := rest } = .next u) ∧
    (∃ (s : State) (w : CommandWord) (rest : List HostInput), s.inputs = .commandCut w 0 :: rest ∧ s.oe = true) :=
  ⟨fun k _ => ⟨{ answered (works 2 true) with inputs := [.commandCut (.host 0x201) k] }, _, [], .writeBit true, _,
    rfl, rfl, rfl, exec_eq _ _ rfl⟩, { busy with inputs := [.commandCut (.host 0x201) 0] }, _, [], rfl, rfl⟩

/-! ### Invariant -/

theorem idle_inv : idle.Inv :=
  { ld_le := by decide
    status_reserved := by decide
    status_code := by decide
    buf_wf := ⟨List.Pairwise.nil, fun c h => by cases h⟩
    found_valid := fun h => by cases h
    enum_valid := fun h => by cases h
    steer_zero := fun h => by cases h
    driven_after_fault := fun h => by cases h
    oe_set_after_fault := fun h => by cases h
    oe_after_fault := fun _ => rfl }

theorem busy_inv : busy.Inv :=
  { ld_le := by decide
    status_reserved := by decide
    status_code := by decide
    buf_wf := by decide
    found_valid := fun _ => by decide +kernel
    enum_valid := fun _ _ => by decide +kernel
    steer_zero := fun _ _ _ => by decide
    driven_after_fault := fun _ => ⟨.failed .release, by decide, rfl⟩
    oe_set_after_fault := fun _ => ⟨.failed .release, by decide, rfl⟩
    oe_after_fault := fun h => absurd rfl h }

/-- `busy` with a command waiting and `OE` at either value. -/
def busyWaiting (b : Bool) : State := { busy with oe := b, inputs := [.command (.host 0x201)] }

theorem busyWaiting_inv (b : Bool) : (busyWaiting b).Inv :=
  ⟨busy_inv.1, busy_inv.2, busy_inv.3, busy_inv.4, busy_inv.5, busy_inv.6, busy_inv.7, busy_inv.8,
    fun _ => busy_inv.9 rfl, fun h => (h (show statusCode busy.status = 1 by decide)).elim⟩

theorem witness_StepKeepsInvariant :
    ∀ b : Bool, ∃ s t : State, s.Inv ∧ step s = .next t ∧ s.oe = b ∧ s.outputLow = true ∧ statusFound s.status = true ∧
      s.sHalt = false ∧ s.sFirst = false ∧ 0 < s.sLd.toNat ∧ s.inputs ≠ [] := by
  intro b
  cases b
  · exact ⟨busyWaiting false, _, busyWaiting_inv _, exec_eq (.writeBit true) { busy with oe := false } rfl, rfl, rfl,
      by decide, rfl, rfl, by decide, by decide⟩
  · exact ⟨busyWaiting true, busyWaiting false, busyWaiting_inv _, rfl, rfl, rfl, by decide, rfl, rfl, by decide,
      by decide⟩

/-! ### Checksum -/

theorem witness_ChecksumOfSelfCheckedSequenceIsZero : addressValid addrA = true := by decide +kernel -- V2.11

theorem witness_ChecksumOperation : 0 ≤ 255 ∧ 255 ≤ 255 := by decide

/-! ### Reset frames -/

theorem witness_ResetCompletes (j : Nat) (hj : j < Config.nWh) :
    ∃ s : State, s.Released ∧ j < Config.nWh ∧ s.Works (j + 4) ∧ (∀ k < j, s.level k = false) ∧ s.level j = true :=
  ⟨answered (lowFrame j false true 0), ⟨rfl, rfl⟩, hj, lowFrame_works j 0 false true, fun k hk => lowFrame_low j 0 k _ _ hk,
    lowFrame_high j 0 _ _⟩

/-- Held low by others, and by OWM's own output with `OE` at either value; `SEARCH_NEXT` runs a pass in each. -/
theorem witness_StuckLowLineEndsInBusNotHigh :
    (∃ s : State, s.Released ∧ s.Works Config.nWh ∧ (∀ k < Config.nWh, s.lineLevel (s.level k) = false) ∧
      RunsPass s false) ∧
    (∀ b : Bool, ∃ s : State, s.oe = b ∧ s.outputLow = true ∧ s.Works Config.nWh ∧
      (∀ k < Config.nWh, s.lineLevel (s.level k) = false) ∧ RunsPass s true) := by
  have hw : ∀ l, (answered (works Config.nWh l)).Works Config.nWh := fun l => by
    have := answered_works Config.nWh l []
    rwa [List.append_nil] at this
  have hl : ∀ k < Config.nWh, (answered (works Config.nWh false)).level k = false := fun k hk => by
    have := answered_level Config.nWh k false [] hk
    rwa [List.append_nil] at this
  exact ⟨⟨fresh (works Config.nWh false), ⟨rfl, rfl⟩, hw false, fun k hk => by
      have : (fresh (works Config.nWh false)).level k = false := hl k hk
      simp [this, State.lineLevel], ⟨rfl, rfl, rfl⟩⟩,
    fun b => ⟨{ fresh (works Config.nWh true) with oe := b, outputLow := true, sAlarm := true }, rfl, rfl, hw true,
      fun k _ => State.lineLevel_of_low rfl _, ⟨rfl, rfl, rfl⟩⟩⟩

/-- `RESET` with and without an error; a `SELECT` whose reset frame is whole, its sample of either level, and one that
ends at its first action. -/
theorem witness_ResetNeverReportsNoPresence :
    (∃ s t : State, exec .reset s = .next t ∧ statusCode t.status = 0) ∧
    (∃ s t : State, exec .reset s = .next t ∧ statusCode t.status ≠ 0) ∧
    (∀ p : Bool, ∃ s t : State, exec .select s = .next t ∧ resetFrame 0 p <+: s.newEvents t) ∧
    (∃ s t : State, exec .select s = .next t ∧
      ∀ lows level, lows < Config.nWh → ¬resetFrame lows level <+: s.newEvents t) := by
  refine ⟨⟨answered (frame true), _, exec_eq .reset _ rfl, by decide +kernel⟩,
    ⟨answered [.fails .released], _, exec_eq .reset _ rfl, by decide +kernel⟩,
    fun p => ⟨answered (frame p ++ [.fails driving]), _, exec_eq .select _ rfl, ?_⟩,
    ⟨answered [.fails driving], _, exec_eq .select _ rfl, fun lows level _ h => ?_⟩⟩
  · cases p <;> decide +kernel
  · have h' : resetFrame lows level <+: [.failed .sample] := h
    cases lows <;> simp [resetFrame, lowSamples] at h'

/-! ### Slots, bytes, blocks -/

theorem witness_WriteBitSendsOneSlot :
    (answered (works 2 true)).Works 2 ∧ (answered [.fails driving]).answer 0 = .fails driving ∧
      (answered [.works true, .fails .released]).Works 1 ∧ (answered [.works true, .fails .released]).answer 1 = .fails .released := by
  decide

theorem witness_ReadBitSamplesOneSlot :
    (answered (slot false)).Works 3 ∧ (answered [.fails driving]).answer 0 = .fails driving ∧
      (answered [.works true, .fails .released]).Works 1 ∧ (answered [.works true, .fails .released]).answer 1 = .fails .released ∧
      (answered [.works true, .works true, .fails driving]).Works 2 ∧
      (answered [.works true, .works true, .fails driving]).answer 2 = .fails driving := by decide

/-- `k` actions that work and then one that fails. -/
theorem witness_failing_action (k : Nat) (o : FaultedOutput) :
    ∃ s : State, s.Works k ∧ s.answer k = .fails o :=
  ⟨answered (works k true ++ [.fails o]), answered_works k true _, answered_at k true _ _⟩

theorem witness_WriteByteSendsBitsInOrder :
    (answered (works 16 true)).Works 16 ∧
      ∀ k ∈ [0, 15], k < 16 ∧ ∃ s : State, s.Works k ∧ s.answer k = .fails .released :=
  ⟨by decide, fun k hk => ⟨by simp only [List.mem_cons, List.mem_nil_iff, or_false] at hk; omega,
    witness_failing_action k .released⟩⟩

theorem witness_ReadByteAssemblesBitsInOrder :
    ((answered (byteSlots 0xA5)).Works 24 ∧
      ∀ i < 8, (0xA5 : Byte).getLsbD i = (answered (byteSlots 0xA5)).level (3 * i + 2)) ∧
      ∀ k ∈ [0, 23], k < 24 ∧ ∃ s : State, s.Works k ∧ s.answer k = .fails driving :=
  ⟨by decide, fun k hk => ⟨by simp only [List.mem_cons, List.mem_nil_iff, or_false] at hk; omega,
    witness_failing_action k driving⟩⟩

theorem witness_WriteBytesSendsBlock :
    (∀ n ∈ [1, 255], n ≤ 255 ∧ 0 < n ∧ ∃ s : State, s.Works (16 * n)) ∧
      ∀ n ∈ [1, 255], ∀ k ∈ [0, 16 * n - 1], k < 16 * n ∧ ∃ s : State, s.Works k ∧ s.answer k = .fails driving := by
  refine ⟨fun n hn => ?_, fun n hn k hk => ?_⟩
  · refine ⟨?_, ?_, answered (works (16 * n) true ++ []), answered_works _ _ _⟩ <;>
      (simp only [List.mem_cons, List.mem_nil_iff, or_false] at hn; omega)
  · refine ⟨?_, witness_failing_action k driving⟩
    simp only [List.mem_cons, List.mem_nil_iff, or_false] at hn hk
    omega

theorem witness_ReadBytesFillsBlock :
    ∀ n ∈ [1, 255], n ≤ 255 ∧ 0 < n ∧ ∃ s : State, s.Works (24 * n) := by
  intro n hn
  refine ⟨?_, ?_, answered (works (24 * n) true ++ []), answered_works _ _ _⟩ <;>
    (simp only [List.mem_cons, List.mem_nil_iff, or_false] at hn; omega)

/-- The first action of a block, and the last of the longest one. -/
theorem witness_FailedBlockReadKeepsCompletedBytes :
    ∀ p ∈ [(1, 0), (3, 32), (255, 24 * 255 - 1)], p.1 ≤ 255 ∧ p.2 < 24 * p.1 ∧
      ∃ s : State, s.Works p.2 ∧ s.answer p.2 = .fails driving := by
  intro p hp
  refine ⟨?_, ?_, witness_failing_action _ _⟩ <;>
    (simp only [List.mem_cons, List.mem_nil_iff, or_false] at hp; rcases hp with rfl | rfl | rfl <;> decide)

/-! ### ROM commands -/

theorem witness_SkipSelectCompletes (j : Nat) (hj : j < Config.nWh) : ∃ s : State, s.RomReady j 0 :=
  ⟨_, lowFrame_ready j 0 true hj⟩

theorem witness_SelectSendsAddress (j : Nat) (hj : j < Config.nWh) : ∃ s : State, s.RomReady j 128 :=
  ⟨_, lowFrame_ready j 128 true hj⟩

/-- A list in which every action works. -/
theorem all_works (s : State) (h : s.answers.all LineAnswer.ok = true) : s.Works s.answers.length := by
  intro k hk
  have hk' : s.answers[k]? = some s.answers[k] := List.getElem?_eq_getElem hk
  simp only [State.answer, hk']
  exact List.all_eq_true.1 h _ (List.getElem_mem hk)

/-- A reset frame that sees the line high at once, with presence, and `n` more actions, from a list. -/
def readyList (s : State) (n : Nat) : Bool :=
  !s.oe && !s.outputLow && s.answers.all LineAnswer.ok && decide (20 + n ≤ s.answers.length) && s.level 0 && !s.level 3

theorem ready_of_list {s : State} {n : Nat} (h : readyList s n = true) : s.RomReady 0 n := by
  simp only [readyList, Bool.and_eq_true, Bool.not_eq_true', decide_eq_true_eq] at h
  obtain ⟨⟨⟨⟨⟨h1, h1'⟩, h2⟩, h3⟩, h4⟩, h5⟩ := h
  exact ⟨⟨h1, h1'⟩, Config.nWh_pos, (all_works s h2).mono (by omega), fun k hk => absurd hk (Nat.not_lt_zero k), h4, h5⟩

theorem below (n : Nat) (p : Nat → Bool) (h : (List.range n).all p = true) : ∀ k < n, p k = true :=
  fun k hk => List.all_eq_true.1 h k (List.mem_range.2 hk)

/-- Equal groups in a row: how many entries they have, and where an entry of one of them stands. -/
theorem length_groups {α : Type} (f : Nat → List α) (c n : Nat) (hf : ∀ i, (f i).length = c) :
    ((List.range n).flatMap f).length = c * n := by
  induction n with
  | zero => rfl
  | succ n ih => simp [List.range_succ, ih, hf, Nat.mul_succ]

theorem getElem?_groups {α : Type} (f : Nat → List α) (c n : Nat) (hf : ∀ i, (f i).length = c) (i r : Nat) (hi : i < n)
    (hr : r < c) (rest : List α) : ((List.range n).flatMap f ++ rest)[c * i + r]? = (f i)[r]? := by
  have hlen := fun n => length_groups f c n hf
  have hsplit : List.range n = List.range i ++ i :: List.range' (i + 1) (n - i - 1) := by
    have h := List.range'_append_1 (s := 0) (m := i) (n := n - i - 1 + 1)
    rw [Nat.zero_add, List.range'_succ, show i + (n - i - 1 + 1) = n by omega] at h
    rw [List.range_eq_range', List.range_eq_range', h]
  rw [hsplit, List.flatMap_append, List.flatMap_cons, List.append_assoc, List.append_assoc,
    List.getElem?_append_right (by rw [hlen]; omega), hlen, Nat.add_sub_cancel_left,
    List.getElem?_append_left (by rw [hf]; exact hr)]

theorem romAnswers_level (a : Address) (b : Nat) (hb : b < 64) :
    (answered (romAnswers a)).level (20 + (3 * b + 2)) = a.getLsbD b := by
  have h : (romAnswers a)[20 + (3 * b + 2)]? = some (.works (a.getLsbD b)) := by
    have hg := getElem?_groups (fun i => slot (a.getLsbD i)) 3 64 (fun _ => rfl) b 2 hb (by decide) []
    rw [List.append_nil] at hg
    rw [romAnswers, List.getElem?_append_right (by simp [frame, works])]
    have hl : (frame false ++ works 16 true).length = 20 := by decide
    rw [hl, Nat.add_sub_cancel_left, hg]
    rfl
  simp [State.level, State.answer, answered, h, LineAnswer.level]

theorem romAnswers_meet (a : Address) (h : readyList (answered (romAnswers a)) 192 = true) :
    (answered (romAnswers a)).RomReady 0 192 ∧
      ∀ b < 64, a.getLsbD b = (answered (romAnswers a)).level (0 + 20 + 3 * b + 2) :=
  ⟨ready_of_list h, fun b hb => by rw [Nat.zero_add, Nat.add_assoc, romAnswers_level a b hb]⟩

/-- A valid address (V5.3) and an invalid one (V5.5). -/
theorem witness_ReadRomStoresValidAddress :
    (readyList (answered (romAnswers addrA)) 192 = true ∧ addressValid addrA = true) ∧
      readyList (answered (romAnswers addrBad)) 192 = true ∧ addressValid addrBad = false := by decide +kernel

theorem witness_NoPresenceEndsRomCommands (j : Nat) (hj : j < Config.nWh) :
    ∃ s : State, s.Released ∧ j < Config.nWh ∧ s.Works (j + 4) ∧ (∀ k < j, s.level k = false) ∧ s.level j = true ∧
      s.level (j + 3) = true ∧ RunsPass s false :=
  ⟨fresh (lowFrame j true true 0), ⟨rfl, rfl⟩, hj, lowFrame_works j 0 true true, fun k hk => lowFrame_low j 0 k true true hk,
    lowFrame_high j 0 true true, lowFrame_presence j 0 true true, ⟨rfl, rfl, rfl⟩⟩

/-! ### Search -/

/-- The levels of the read slots of a pass: `id_bit` is the third answer of a round, `cmp_bit` the sixth. -/
def passLevel (id cmp : BitVec 64) (k : Nat) : Bool := if k % 8 = 2 then id.getLsbD (k / 8) else cmp.getLsbD (k / 8)

theorem pass_level {s : State} {id cmp : BitVec 64} {rest : List LineAnswer} (h : s.answers = pass id cmp ++ rest)
    (i : Nat) (hi : i < 64) : s.passLevels 0 (8 * i + 2) = id.getLsbD i ∧ s.passLevels 0 (8 * i + 5) = cmp.getLsbD i := by
  have hg : ∀ r < 8, s.answers[20 + (8 * i + r)]? =
      (slot (id.getLsbD i) ++ slot (cmp.getLsbD i) ++ works 2 true)[r]? := fun r hr => by
    have hl : (frame false ++ works 16 true).length = 20 := by decide
    rw [h, pass, List.append_assoc, List.getElem?_append_right (by rw [hl]; omega), hl, Nat.add_sub_cancel_left]
    exact getElem?_groups (fun i => slot (id.getLsbD i) ++ slot (cmp.getLsbD i) ++ works 2 true) 8 64 (fun _ => rfl) i r hi
      hr rest
  have h2 := hg 2 (by decide)
  have h5 := hg 5 (by decide)
  simp only [slot, List.cons_append, List.nil_append, List.getElem?_cons_succ, List.getElem?_cons_zero] at h2 h5
  constructor <;> simp [State.passLevels, State.level, State.answer, LineAnswer.level, h2, h5]

theorem passLevel_agrees {s : State} {id cmp : BitVec 64} {rest : List LineAnswer} (h : s.answers = pass id cmp ++ rest) :
    ∀ i < 64, s.passLevels 0 (8 * i + 2) = passLevel id cmp (8 * i + 2) ∧
      s.passLevels 0 (8 * i + 5) = passLevel id cmp (8 * i + 5) := by
  intro i hi
  have := pass_level h i hi
  have e2 : (8 * i + 2) % 8 = 2 := by omega
  have e5 : (8 * i + 5) % 8 = 5 := by omega
  have d2 : (8 * i + 2) / 8 = i := by omega
  have d5 : (8 * i + 5) / 8 = i := by omega
  simpa [passLevel, e2, e5, d2, d5] using this

theorem pass_length (id cmp : BitVec 64) : (pass id cmp).length = 532 := by
  rw [pass, List.length_append, show (frame false ++ works 16 true).length = 20 by decide, rounds,
    length_groups _ 8 64 fun _ => rfl]

theorem pass_ready {s : State} {id cmp : BitVec 64} {rest : List LineAnswer} (h : s.answers = pass id cmp ++ rest)
    (hoe : s.Released) : s.RomReady 0 512 := by
  have hall : (pass id cmp).all LineAnswer.ok = true := by
    rw [pass, rounds, List.all_append, List.all_flatMap]
    simp only [Bool.and_eq_true]
    exact ⟨by decide, List.all_eq_true.2 fun i _ => rfl⟩
  have hw : s.Works 532 := by
    intro k hk
    rw [← pass_length id cmp] at hk
    have hk' : (pass id cmp)[k]? = some (pass id cmp)[k] := List.getElem?_eq_getElem hk
    have : s.answers[k]? = some (pass id cmp)[k] := by rw [h, List.getElem?_append_left hk, hk']
    simp only [State.answer, this]
    exact List.all_eq_true.1 hall _ (List.getElem_mem _)
  have hstart : ∀ k < 20, s.answers[k]? = (frame false ++ works 16 true)[k]? := fun k hk => by
    rw [h, pass, List.append_assoc, List.getElem?_append_left (by
      rw [show (frame false ++ works 16 true).length = 20 by decide]; exact hk)]
  have h0 : s.answers[0]? = some (.works true) := hstart 0 (by decide)
  have h3 : s.answers[0 + 3]? = some (.works false) := hstart 3 (by decide)
  refine ⟨hoe, Config.nWh_pos, hw, fun k hk => absurd hk (Nat.not_lt_zero k), ?_, ?_⟩
  · simp only [State.level, State.answer, h0, LineAnswer.level]
  · simp only [State.level, State.answer, h3, LineAnswer.level]

/-- The address a single device answers with: no discrepancy. -/
def alone (a : Address) : List LineAnswer := pass a (~~~a)

/-- The second pass of V6.1: round 4 steered, round 12 new. -/
def second : State := { fresh (pass idPass2 cmpPass2) with sAddr := addrC, sLd := 4, sFirst := false }

/-- What a pass needs to end with address `a` and last discrepancy `lz`. -/
def passMeets (s : State) (id cmp : BitVec 64) (a : Address) (lz : Nat) : Bool :=
  id &&& cmp == 0 && (passCandidate s.steerPosition s.sAddr (passLevel id cmp) 64 == { a := a, lastZero := lz })

theorem pass_of_meets {s : State} {id cmp : BitVec 64} {a : Address} {lz : Nat} {rest : List LineAnswer}
    (hs : s.answers = pass id cmp ++ rest) (hoe : s.Released) (h : passMeets s id cmp a lz = true) :
    s.RomReady 0 512 ∧ (∀ n, 1 ≤ n → n ≤ 64 → (s.idBit 0 n && s.cmpBit 0 n) = false) ∧
      (∀ n, 1 ≤ n → n ≤ 64 → a.getLsbD (n - 1) = s.branch 0 n) ∧ lz ≤ 64 ∧ (0 < lz → s.zeroBranchAt 0 lz) ∧
      ∀ n, lz < n → n ≤ 64 → ¬s.zeroBranchAt 0 n := by
  simp only [passMeets, Bool.and_eq_true, beq_iff_eq] at h
  rw [← passCandidate_congr _ _ 64 (passLevel_agrees hs)] at h
  obtain ⟨h0, hc⟩ := h
  have hz := passCandidate_lastZero s.steerPosition s.sAddr (s.passLevels 0) 64
  have hat := passCandidate_lastZero_at s.steerPosition s.sAddr (s.passLevels 0) 64
  have hbit := fun n => getLsbD_passCandidate s.steerPosition s.sAddr (s.passLevels 0) 64 n
  rw [hc] at hz hat hbit
  refine ⟨pass_ready hs hoe, fun n n1 n2 => ?_, fun n n1 n2 => ?_, hz.1, fun h => ?_, fun n hn n2 hzero => ?_⟩
  · have hl := pass_level hs (n - 1) (by omega)
    have hbits : (id &&& cmp).getLsbD (n - 1) = false := by rw [h0]; exact BitVec.getLsbD_zero
    rw [BitVec.getLsbD_and] at hbits
    rw [← hl.1, ← hl.2] at hbits
    simpa [State.passLevels, State.idBit, State.cmpBit, Nat.add_assoc] using hbits
  · rw [hbit (n - 1) (by omega), if_pos (by omega), passDir_eq_branch, Nat.sub_add_cancel n1]
  · have := hat h
    rw [passDir_eq_branch] at this
    simpa [State.passLevels, State.zeroBranchAt, State.idBit, State.cmpBit, Nat.add_assoc] using this
  · refine hz.2.2 n hn n2 ?_
    rw [passDir_eq_branch]
    simpa [State.passLevels, State.zeroBranchAt, State.idBit, State.cmpBit, Nat.add_assoc] using hzero

/-- `last_zero` 0 (V6.3), 4 and 12 (V6.1), and 64 (V6.9, every round a discrepancy). -/
theorem witness_SearchPassDiscovers :
    passMeets (fresh (alone addrA)) addrA (~~~addrA) addrA 0 = true ∧
    passMeets (fresh (pass idPass1 cmpPass1)) idPass1 cmpPass1 addrC 4 = true ∧
    passMeets second idPass2 cmpPass2 addrB 12 = true ∧ passMeets (fresh (pass 0 0)) 0 0 0 64 = true ∧
    addressValid addrA = true ∧ addressValid addrB = true ∧ addressValid addrC = true ∧ addressValid 0 = true ∧
    RunsPass (fresh (alone addrA)) false ∧ RunsPass second false :=
  ⟨by decide +kernel, by decide +kernel, by decide +kernel, by decide +kernel, by decide +kernel, by decide +kernel,
    by decide +kernel, by decide +kernel, ⟨rfl, rfl, by decide⟩, ⟨rfl, rfl, by decide⟩⟩

theorem witness_SearchPassDropsInvalidAddress : -- V6.7
    passMeets (fresh (alone addrBad)) addrBad (~~~addrBad) addrBad 0 = true ∧ addressValid addrBad = false ∧
      RunsPass (fresh (alone addrBad)) false :=
  ⟨by decide +kernel, by decide +kernel, ⟨rfl, rfl, by decide⟩⟩

/-- Absence in the first round (V6.5), and in the last, every earlier round being a discrepancy. -/
theorem witness_UnexpectedAbsenceAbortsSearch :
    (∃ s : State, s.RomReady 0 6 ∧ (s.idBit 0 1 && s.cmpBit 0 1) = true ∧ RunsPass s false) ∧
    (∃ s : State, s.RomReady 0 (8 * 63 + 6) ∧ (∀ n, 1 ≤ n → n < 64 → (s.idBit 0 n && s.cmpBit 0 n) = false) ∧
      (s.idBit 0 64 && s.cmpBit 0 64) = true ∧ RunsPass s false) := by
  refine ⟨⟨fresh (frame false ++ works 22 true), ready_of_list (by decide +kernel), by decide +kernel,
    ⟨rfl, rfl, by decide⟩⟩, fresh (pass (1#64 <<< 63) (1#64 <<< 63)), ?_, fun n h1 h2 => ?_, ?_,
    ⟨rfl, rfl, by decide⟩⟩
  · have hr := pass_ready (s := fresh (pass (1#64 <<< 63) (1#64 <<< 63))) (rest := []) (List.append_nil _).symm ⟨rfl, rfl⟩
    exact ⟨hr.1, hr.2.1, hr.2.2.1.mono (by omega), hr.2.2.2⟩
  · have hl := pass_level (s := fresh (pass (1#64 <<< 63) (1#64 <<< 63))) (rest := []) (List.append_nil _).symm (n - 1)
      (by omega)
    have hb : (1#64 <<< 63).getLsbD (n - 1) = false :=
      Bool.not_eq_true' _ ▸ below 63 (fun k => !(1#64 <<< 63).getLsbD k) (by decide) (n - 1) (by omega)
    have hid : (fresh (pass (1#64 <<< 63) (1#64 <<< 63))).idBit 0 n = false := by
      rw [← hb, ← hl.1]
      simp [State.passLevels, State.idBit, Nat.add_assoc]
    rw [hid]
    rfl
  · have hl := pass_level (s := fresh (pass (1#64 <<< 63) (1#64 <<< 63))) (rest := []) (List.append_nil _).symm 63
      (by omega)
    have hid : (fresh (pass (1#64 <<< 63) (1#64 <<< 63))).idBit 0 64 = true := hl.1
    have hcmp : (fresh (pass (1#64 <<< 63) (1#64 <<< 63))).cmpBit 0 64 = true := hl.2
    rw [hid, hcmp]
    rfl

theorem witness_EndedSearchYieldsNothing :
    (∃ s : State, s.sHalt = true) ∧ (∃ s : State, s.sHalt = false ∧ s.sFirst = false ∧ s.sLd = 0) :=
  ⟨⟨idle, rfl⟩, ⟨{ idle with sHalt := false, sFirst := false }, rfl, rfl, rfl⟩⟩

theorem witness_SearchErrorHaltsIterator :
    ∃ s t : State, exec .searchNext s = .next t ∧ statusCode t.status ≠ 0 :=
  ⟨fresh [.fails .released], _, exec_eq .searchNext _ rfl, by decide +kernel⟩

theorem witness_FoundAddressIsValid :
    ∃ s t : State, exec .searchNext s = .next t ∧ statusFound t.status = true := by
  obtain ⟨t, h, ht⟩ := next_of_ends test_searchNext_first_pass
  refine ⟨_, t, h, ?_⟩
  simp only [Bool.and_eq_true, beq_iff_eq] at ht
  rw [ht.1.1.1.1]
  decide

/-! ### Populations -/

/-- A `SEARCH_NEXT` whose pass meets no error: the state after it, and the actions it performs. -/
theorem searchNext_meets {s : State} {id cmp : BitVec 64} {a : Address} {lz : Nat} {rest : List LineAnswer}
    (hs : s.answers = pass id cmp ++ rest) (hoe : s.Released) (hh : s.sHalt = false) (hc : s.searchComplete = false)
    (h : passMeets s id cmp a lz = true) (hv : addressValid a = true) :
    s.nextSearch.answers = rest ∧ s.nextSearch.Released ∧ s.nextSearch.sHalt = false ∧
      s.nextSearch.sFirst = false ∧ s.nextSearch.sLd = BitVec.ofNat 7 lz ∧ s.nextSearch.sAddr = a ∧
      s.nextSearch.sAlarm = s.sAlarm ∧ s.nextSearch.trace = s.trace ++ (romStartEvents 0 (searchCode s.sAlarm) ++
        passEvents s.steerPosition s.sAddr (passLevel id cmp) 64) := by
  have hmeets := pass_of_meets hs hoe h
  simp only [passMeets, Bool.and_eq_true, beq_iff_eq] at h
  have hcand : passCandidate s.steerPosition s.sAddr ((s.setFound false).passLevels 0) 64 = { a := a, lastZero := lz } := by
    rw [← h.2]
    exact passCandidate_congr _ _ 64 (passLevel_agrees (s := s.setFound false) hs)
  have hp := searchPass_works (s := s.setFound false) hmeets.1 s.steerPosition s.sAddr s.sAlarm fun i hi =>
    hmeets.2.1 (i + 1) (by omega) (by omega)
  rw [passEvents_congr _ _ 64 (passLevel_agrees (s := s.setFound false) hs)] at hp
  simp only [hcand, hv, if_true] at hp
  have hlen := pass_length id cmp
  have hdrop : s.answers.drop 532 = rest := by rw [hs, List.drop_append_of_le_length (by omega), ← hlen,
    List.drop_length, List.nil_append]
  rw [State.nextSearch, (RunsPass.mk hh hc rfl).exec_eq, nextPassBody_done hp]
  exact ⟨hdrop, ⟨rfl, rfl⟩, hh, rfl, rfl, rfl, rfl, rfl⟩

/-- Devices B (alarmed) and C, which differ first in round 4 (V6.1). -/
def population : List Device := [⟨addrB, true⟩, ⟨addrC, false⟩]

/-- `id_bit` and `cmp_bit` of their second pass, in which only round 4 is a discrepancy. -/
def idB : BitVec 64 := addrB &&& ~~~0x8
def cmpB : BitVec 64 := ~~~addrB &&& ~~~0x8

/-- Their enumeration, as `SEARCH_INIT` leaves it: pass 1 is that of V6.1. -/
def enum0 : State := fresh (pass idPass1 cmpPass1 ++ pass idB cmpB)

theorem enum1_meets : enum0.nextSearch.answers = pass idB cmpB ∧ enum0.nextSearch.Released ∧
    enum0.nextSearch.sHalt = false ∧ enum0.nextSearch.sFirst = false ∧ enum0.nextSearch.sLd = 4 ∧
    enum0.nextSearch.sAddr = addrC ∧ enum0.nextSearch.sAlarm = false ∧ enum0.nextSearch.trace =
      [] ++ (romStartEvents 0 0xF0 ++ passEvents 0 0 (passLevel idPass1 cmpPass1) 64) :=
  searchNext_meets (s := enum0) (id := idPass1) (cmp := cmpPass1) (a := addrC) (lz := 4) rfl ⟨rfl, rfl⟩ rfl rfl (by decide +kernel)
    (by decide +kernel)

theorem enum2_trace : enum0.nextSearch.nextSearch.trace =
    [] ++ (romStartEvents 0 0xF0 ++ passEvents 0 0 (passLevel idPass1 cmpPass1) 64) ++
      (romStartEvents 0 0xF0 ++ passEvents 4 addrC (passLevel idB cmpB) 64) := by
  obtain ⟨h1, h2, h3, h4, h5, h6, h7, h8⟩ := enum1_meets
  have hsteer : enum0.nextSearch.steerPosition = 4 := by
    rw [State.steerPosition, h4, h5]
    rfl
  have hmeets : passMeets enum0.nextSearch idB cmpB addrB 0 = true := by
    rw [passMeets, hsteer, h6]
    decide +kernel
  have hopen : enum0.nextSearch.searchComplete = false := by
    rw [State.searchComplete, h4, h5]
    rfl
  have h := (searchNext_meets (rest := []) (by rw [h1, List.append_nil]) h2 h3 hopen hmeets
    (by decide +kernel)).2.2.2.2.2.2.2
  rw [h, h8, h7, hsteer, h6]
  rfl

theorem witness_EnumerationYieldsPopulation :
    population ≠ [] ∧ (population.map Device.addr).Nodup ∧ (∀ d ∈ population, addressValid d.addr = true) ∧
      exec (.searchInit false) enum0 = .next enum0 ∧
      AgreesWith population enum0 (afterEnumeration population.length enum0) := by
  refine ⟨by decide, by decide, by decide +kernel, ?_, ?_⟩
  · rw [exec_eq _ _ rfl]
    rfl
  · show ((SimLine.start population).run (enum0.nextSearch.nextSearch.trace.drop 0)).isSome = true
    rw [enum2_trace]
    decide +kernel

/-- The alarmed device alone answers (V6.4). -/
def alarm0 : State := { fresh (alone addrB) with sAlarm := true }

theorem alarm1_trace : alarm0.nextSearch.trace =
    [] ++ (romStartEvents 0 0xEC ++ passEvents 0 0 (passLevel addrB (~~~addrB)) 64) :=
  (searchNext_meets (s := alarm0) (id := addrB) (cmp := ~~~addrB) (a := addrB) (lz := 0) (rest := [])
    (List.append_nil _).symm ⟨rfl, rfl⟩ rfl rfl (by decide +kernel) (by decide +kernel)).2.2.2.2.2.2.2

theorem witness_AlarmEnumerationYieldsAlarmedDevices :
    population.filter Device.alarmed ≠ [] ∧ (population.map Device.addr).Nodup ∧
      (∀ d ∈ population, addressValid d.addr = true) ∧ exec (.searchInit true) alarm0 = .next alarm0 ∧
      AgreesWith population alarm0 (afterEnumeration (population.filter Device.alarmed).length alarm0) := by
  refine ⟨by decide, by decide, by decide +kernel, ?_, ?_⟩
  · rw [exec_eq _ _ rfl]
    rfl
  · show ((SimLine.start population).run (alarm0.nextSearch.trace.drop 0)).isSome = true
    rw [alarm1_trace]
    decide +kernel

/-- The state a `READ_ROM` leaves, and the actions it performs, when the read slots give `a`. -/
theorem readRom_works {a : Address} (h : readyList (answered (romAnswers a)) 192 = true) :
    ∃ t, exec .readRom (answered (romAnswers a)) = .next t ∧
      t.trace = romStartEvents 0 0x33 ++ (List.range 64).flatMap fun b => readSlot (a.getLsbD b) := by
  have hf := readRomFrame_works (romAnswers_meet a h).1 a (romAnswers_meet a h).2
  refine ⟨_, exec_eq .readRom _ rfl, ?_⟩
  show (endOperation (readRomBody _)).trace = _
  cases hv : addressValid a
  · rw [hv] at hf
    rw [readRomBody, Proc.andThen_raised hf]
    rfl
  · rw [hv] at hf
    rw [readRomBody, Proc.andThen_done hf]
    rfl

/-- One device, whose address is read (V5.3), and two, whose AND fails the checksum (V5.4). -/
theorem witness_ReadRomReadsWiredAnd :
    (∃ (s t : State), exec .readRom s = .next t ∧ AgreesWith [⟨addrA, false⟩] s t) ∧ addressValid addrA = true ∧
    (∃ (s t : State), exec .readRom s = .next t ∧ AgreesWith [⟨addrA, false⟩, ⟨addrB, false⟩] s t) ∧
    addressValid (addrA &&& addrB) = false ∧
    ∀ b < 64, (addrA &&& addrB).getLsbD b = [Device.mk addrA false, ⟨addrB, false⟩].all fun d => d.addr.getLsbD b := by
  refine ⟨?_, by decide +kernel, ?_, by decide +kernel, fun b hb => by simp⟩
  · obtain ⟨t, h, ht⟩ := readRom_works (a := addrA) (by decide +kernel)
    refine ⟨_, t, h, ?_⟩
    show ((SimLine.start _).run (t.trace.drop 0)).isSome = true
    rw [ht]
    decide +kernel
  · obtain ⟨t, h, ht⟩ := readRom_works (a := addrA &&& addrB) (by decide +kernel)
    refine ⟨_, t, h, ?_⟩
    show ((SimLine.start _).run (t.trace.drop 0)).isSome = true
    rw [ht]
    decide +kernel

/-- The state a `SELECT` of B leaves, and the actions it performs. -/
theorem select_works : ∃ (s t : State), s.addr = addrB ∧ s.trace = [] ∧ exec .select s = .next t ∧
    t.trace = romStartEvents 0 0x55 ++ (List.range 64).flatMap fun b => writeSlot (addrB.getLsbD b) := by
  have hr := lowFrame_ready 0 128 true Config.nWh_pos
  generalize ha : answered (lowFrame 0 false true (16 + 128)) = u at hr
  have ht : u.trace = [] := by rw [← ha]; rfl
  have hf := matchRomFrame_works (s := { u with addr := addrB }) hr addrB
  refine ⟨{ u with addr := addrB }, _, rfl, ht, exec_eq .select _ rfl, ?_⟩
  show (endOperation (matchRomFrame addrB _)).trace = _
  rw [hf]
  show u.trace ++ _ = _
  rw [ht]
  rfl

/-- `SELECT` of B with A, B, C on the line (V5.7): only B still participates. -/
theorem witness_SelectLeavesAddressedDevice :
    ∃ (s t : State) (l : SimLine), exec .select s = .next t ∧
      (SimLine.start [⟨addrA, false⟩, ⟨addrB, false⟩, ⟨addrC, false⟩]).run (s.newEvents t) = some l ∧
      l.active = [⟨addrB, false⟩] := by
  obtain ⟨s, t, _, hs, h, ht⟩ := select_works
  refine ⟨s, t, SimLine.mk [⟨addrA, false⟩, ⟨addrB, false⟩, ⟨addrC, false⟩] [⟨addrB, false⟩] .traffic .none, h, ?_, rfl⟩
  rw [State.newEvents, hs, ht]
  decide +kernel

/-! ### Errors, frames and the line as a whole -/

theorem witness_UnencodableCountStops : 255 < 256 := by decide

theorem witness_LineFaultEndsOperationAtOnce :
    (∃ s t : State, exec (.writeBit true) s = .next t ∧ statusCode t.status = 1) ∧
    (∃ s t : State, exec (.writeBit true) s = .next t ∧ statusCode t.status ≠ 1) :=
  ⟨⟨answered [.fails driving], _, exec_eq _ _ rfl, by decide⟩, ⟨answered (works 2 true), _, exec_eq _ _ rfl, by decide⟩⟩

/-- No fault from `OE = 0` and from `OE = 1`, `ILLEGAL_OP` too, and from a released line; a fault that leaves the line
driven. -/
theorem witness_LineReleasedUnlessFault :
    (∃ s t : State, s.oe = false ∧ exec (.crc8 0) s = .next t ∧ statusCode t.status ≠ 1) ∧
    (∃ s t : State, s.oe = true ∧ exec (.crc8 0) s = .next t ∧ statusCode t.status ≠ 1 ∧ statusCode t.status ≠ 6) ∧
    (∃ s t : State, s.oe = true ∧ exec .reserved0 s = .next t ∧ statusCode t.status = 6) ∧
    (∃ s t : State, s.Released ∧ exec (.writeBit true) s = .next t ∧ statusCode t.status ≠ 1) ∧
    (∃ s t : State, s.Released ∧ exec (.writeBit true) s = .next t ∧ ¬t.Released) :=
  ⟨⟨idle, _, rfl, exec_eq _ _ rfl, by decide⟩, ⟨busy, _, rfl, exec_eq _ _ rfl, by decide, by decide⟩,
    ⟨busy, _, rfl, exec_eq _ _ rfl, by decide⟩, ⟨answered (works 2 true), _, ⟨rfl, rfl⟩, exec_eq _ _ rfl, by decide⟩,
    ⟨answered [.works true, .fails stuck], _, ⟨rfl, rfl⟩, exec_eq _ _ rfl, by decide⟩⟩

theorem witness_DrivenLineDefeatsEveryReset :
    (∃ s : State, s.outputLow = true ∧
      (∀ i ∈ [Instr.reset, .select, .skipSelect, .readRom, .romRead, .romMatch, .romSkip, .romSearch, .romAlarmSearch],
        ∃ t, exec i s = .next t) ∧ RunsPass s false ∧ ∃ t, exec .searchNext s = .next t) ∧
    (∃ s t : State, s.outputLow = true ∧ exec (.crc8 0) s = .next t ∧ t.trace = s.trace) :=
  ⟨⟨{ fresh [] with outputLow := true }, rfl, fun i hi => ⟨_, exec_eq i _ (by revert i; decide)⟩, ⟨rfl, rfl, rfl⟩, _,
    exec_eq .searchNext _ rfl⟩, busy, _, rfl, exec_eq _ _ rfl, rfl⟩

/-- Every well-formed instruction answers a next state, so the frames have something to say of each. -/
theorem witness_frames :
    ∀ i ∈ [Instr.writeBit true, .writeByte 0xFF, .writeBytes 255, .readBytes 0, .readBytes 255, .crc8 255, .reserved0,
      .reservedE, .reservedF, .reset, .select, .skipSelect, .romMatch, .romSkip, .readBit, .readByte, .readRom, .romRead,
      .searchInit true, .searchNext, .romSearch, .romAlarmSearch], ∀ s : State, ∃ t, exec i s = .next t :=
  fun i hi s => ⟨_, exec_eq i s (by revert i; decide)⟩

/-- Results that are not written: an operation of each kind that ends in an error. -/
theorem witness_ResultOperationsFrame :
    (∃ s t : State, exec .readByte s = .next t ∧ statusCode t.status ≠ 0) ∧
    (∃ s t : State, exec .readRom s = .next t ∧ statusCode t.status ≠ 0) :=
  ⟨⟨answered [.fails driving], _, exec_eq _ _ rfl, by decide⟩,
    ⟨answered [.fails driving], _, exec_eq _ _ rfl, by decide +kernel⟩⟩

theorem witness_SearchOperationsFrame :
    (∃ s t : State, s.sHalt = true ∧ exec .searchNext s = .next t) ∧
    (∃ s t : State, exec .searchNext s = .next t ∧ statusCode t.status ≠ 0) :=
  ⟨⟨idle, _, rfl, exec_eq _ _ rfl⟩, ⟨fresh [.fails driving], _, exec_eq _ _ rfl, by decide +kernel⟩⟩

theorem witness_OtherOperationsIgnoreSearchState :
    ∃ (i : Instr) (s t : State), (∀ alarm, i ≠ .searchInit alarm) ∧ i ≠ .searchNext ∧ i ≠ .romSearch ∧
      i ≠ .romAlarmSearch ∧ exec i s = .next t :=
  ⟨.readByte, idle, endOperation (bodyOf .readByte idle), (fun _ h => by cases h), by decide, by decide, by decide,
    exec_eq _ _ rfl⟩

/-- An operation that ends in whole shapes, and one cut in the middle of a slot. -/
theorem witness_LineCarriesOnlyItsShapes :
    (∃ s t : State, exec .readBit s = .next t ∧ statusCode t.status ≠ 1) ∧
    (∃ s t : State, exec .readBit s = .next t ∧ statusCode t.status = 1 ∧ t.trace.length = 5) :=
  ⟨⟨answered (slot true), _, exec_eq _ _ rfl, by decide⟩,
    ⟨answered [.works true, .works true, .fails driving], _, exec_eq _ _ rfl, by decide, by decide⟩⟩

theorem witness_TraceOnlyGrows :
    (∃ s t : State, core.run 0 s = .next t) ∧ (∃ s t : State, core.run 3 s = .next t) :=
  ⟨⟨idle, idle, rfl⟩, ⟨idle, idle, rfl⟩⟩

theorem witness_OperationsAreBounded : ∃ (i : Instr) (s t : State), exec i s = .next t :=
  ⟨.readBytes 255, idle, _, exec_eq _ _ rfl⟩

theorem witness_PlatformRecoveryReleasesLine :
    ∃ (s : State) (rest : List HostInput), s.inputs = .platformRecovers :: rest ∧ s.oe = true :=
  ⟨{ busy with inputs := [.platformRecovers] }, [], rfl, rfl⟩

theorem witness_BitWriteSequencerFollowsItsRule :
    (answered (works 2 true)).Works 2 ∧ (∃ u, driveLow (answered (works 2 true)) = .done () u) ∧
      ((answered [.fails driving]).answer 0).ok = false ∧ (answered [.works true, .fails .released]).Works 1 ∧
      ((answered [.works true, .fails .released]).answer 1).ok = false :=
  ⟨by decide, ⟨_, rfl⟩, by decide, by decide, by decide⟩

theorem witness_BitReadSequencerFollowsItsRule :
    (answered (slot false)).Works 3 ∧ (∃ u, driveLow (answered (slot false)) = .done () u) ∧
      ((answered [.fails driving]).answer 0).ok = false ∧ (answered [.works true, .fails .released]).Works 1 ∧
      ((answered [.works true, .fails .released]).answer 1).ok = false ∧
      (answered [.works true, .works true, .fails driving]).Works 2 ∧
      ((answered [.works true, .works true, .fails driving]).answer 2).ok = false :=
  ⟨by decide, ⟨_, rfl⟩, by decide, by decide, by decide, by decide, by decide⟩

/-- A complete search and a halted one, under a search frame at the sequencer's own port and `SEARCH_NEXT`. -/
theorem witness_EndedSearchStaysEnded :
    ∀ i ∈ [Instr.romSearch, Instr.searchNext], (∀ alarm, i ≠ .searchInit alarm) ∧
      (∃ s t : State, exec i s = .next t ∧ s.searchComplete = true ∧ s.sHalt = false) ∧
      (∃ s t : State, exec i s = .next t ∧ s.sHalt = true) :=
  fun i hi => ⟨fun alarm h => by subst h; simp at hi,
    ⟨{ idle with sHalt := false, sFirst := false }, _, exec_eq i _ (by revert i; decide), by decide, rfl⟩,
    ⟨idle, _, exec_eq i _ (by revert i; decide), rfl⟩⟩

end Sys2Proof.Tests
end

section
/-! PROOFS of the statements of spec/00_scope.md: what one step takes (O5), the line trace as a record that only grows
(O53), and the sums of durations (O55). -/

namespace Sys2Proof.Machine

open Proc

/-! ## What a step does with the next input (R190, R221, R231) -/

theorem step_idle {s : State} (h : s.inputs = []) : step s = .next s := by
  rw [step, takeInput, h]

theorem step_input {s : State} {x : HostInput} {rest : List HostInput} (h : s.inputs = x :: rest) :
    step s = if x.startsOperation && s.oe then .next s.settleOutput else acceptInput x (s.setInputs rest) := by
  rw [step, takeInput, h]

/-- Where a fault left `OE` at 1, the step before an operation settles it (log 3). -/
theorem step_settles {s : State} {x : HostInput} {rest : List HostInput} (h : s.inputs = x :: rest)
    (hx : x.startsOperation = true) (ho : s.oe = true) : step s = .next (s.setOe false) := by
  rw [step_input h, hx, ho]
  rfl

/-- An input is taken at once when it starts no operation or `OE` is 0. -/
theorem step_accepts {s : State} {x : HostInput} {rest : List HostInput} (h : s.inputs = x :: rest)
    (hx : (x.startsOperation && s.oe) = false) : step s = acceptInput x (s.setInputs rest) := by
  rw [step_input h, hx]
  rfl

theorem acceptCommand_decoded {w : CommandWord} {i : Instr} (h : decode w = .ok i) (s : State) :
    acceptCommand w s = exec i s := by
  rw [acceptCommand, h]

theorem acceptCommand_unknown {w : CommandWord} {c : Byte} (h : decode w = .error (.notARomCommand c)) (s : State) :
    acceptCommand w s = .refused (.notARomCommand c) := by
  rw [acceptCommand, h]

/-- With `OE` 0 a waiting command word is taken off the queue and accepted. -/
theorem step_command {s : State} {w : CommandWord} {rest : List HostInput} (h : s.inputs = .command w :: rest)
    (ho : s.oe = false) : step s = acceptCommand w (s.setInputs rest) :=
  step_accepts h (by rw [ho, Bool.and_false])

/-- Settles O5: the step takes the input `step_input` says, and a command is its decoded operation. -/
theorem stepRunsDecodedCommand : Obligations.StepRunsDecodedCommand := by
  refine ⟨fun s w rest i h ho hd => ?_, fun s c rest h ho hd => ?_, fun s w rest h ho => ?_, fun s h => step_idle h⟩
  · exact (step_command h ho).trans (acceptCommand_decoded hd _)
  · exact (step_command h ho).trans (acceptCommand_unknown hd _)
  · exact step_settles h rfl ho

/-! ## The trace only grows (R12, R59) -/

/-- The trace of `s` is a beginning of the trace of `t`. -/
def TraceGrows (s t : State) : Prop := s.trace <+: t.trace

theorem TraceGrows.of_eq {s t : State} (h : t.trace = s.trace) : TraceGrows s t := by
  rw [TraceGrows, h]

theorem TraceGrows.refl (s : State) : TraceGrows s s := List.prefix_rfl

theorem TraceGrows.trans (s t u : State) (h1 : TraceGrows s t) (h2 : TraceGrows t u) : TraceGrows s u :=
  List.IsPrefix.trans h1 h2

theorem LineRun.traceGrows {s t : State} (h : LineRun s t) : TraceGrows s t := by
  obtain ⟨b, l, es, rfl⟩ := h
  exact List.prefix_append s.trace es

theorem ResetRun.traceGrows {s t : State} (h : ResetRun s t) : TraceGrows s t := by
  obtain ⟨st, -, hl⟩ := h
  exact LineRun.traceGrows (s := s.setStatus st) hl

section
variable {α : Type} {p : Proc α}

theorem keeps_traceGrows_of_lineRun (h : Keeps LineRun p) : Keeps TraceGrows p := fun s => (h s).traceGrows

theorem keeps_traceGrows_of_resetRun (h : Keeps ResetRun p) : Keeps TraceGrows p := fun s => (h s).traceGrows

theorem keeps_traceGrows_update {g : State → State} (h : ∀ s, (g s).trace = s.trace) :
    Keeps TraceGrows (Proc.update g) := fun s => .of_eq (h s)

/-- Registers written from the result of a procedure add nothing to the trace. -/
theorem keeps_traceGrows_store (hp : Keeps TraceGrows p) {g : α → State → State}
    (hg : ∀ a s, (g a s).trace = s.trace) : Keeps TraceGrows (p.andThen fun a => Proc.update (g a)) :=
  keeps_andThen TraceGrows.trans hp fun a => keeps_traceGrows_update (hg a)

end

theorem keeps_traceGrows_readBlock (n : Nat) : Keeps TraceGrows (readBlock n) :=
  keeps_forEach TraceGrows.refl TraceGrows.trans fun _ _ =>
    keeps_traceGrows_store (keeps_traceGrows_of_lineRun keeps_readByte) fun _ _ => rfl

theorem keeps_traceGrows_searchNextBody : Keeps TraceGrows searchNextBody := by
  intro s
  cases h : s.sHalt || s.searchComplete with
  | true =>
    rw [searchNextBody_ended h]
    exact .of_eq rfl
  | false =>
    rw [searchNextBody_runs h]
    rcases nextPassBody_cases s.sAlarm s with ⟨c, t, -, hr, -, he⟩ | ⟨e, t, -, hr, he⟩
    · rw [he]
      exact hr.traceGrows
    · rw [he]
      exact hr.traceGrows

/-- Every operation's body only adds to the trace, however it ends. -/
theorem keeps_traceGrows_bodyOf (i : Instr) : Keeps TraceGrows (bodyOf i) := by
  cases i with
  | reset =>
    exact keeps_traceGrows_of_resetRun (ResetRun.andThen keeps_resetSequence fun _ => keeps_pure ResetRun.refl ())
  | writeBit b => exact keeps_traceGrows_of_lineRun (keeps_writeBit b)
  | readBit => exact keeps_traceGrows_store (keeps_traceGrows_of_lineRun keeps_readBit) fun _ _ => rfl
  | writeByte v => exact keeps_traceGrows_of_lineRun (keeps_writeByte v)
  | readByte => exact keeps_traceGrows_store (keeps_traceGrows_of_lineRun keeps_readByte) fun _ _ => rfl
  | writeBytes n => exact keeps_traceGrows_of_lineRun (keeps_writeBlock n)
  | readBytes n => exact keeps_traceGrows_readBlock n
  | select | romMatch => exact fun s => (keeps_matchRomFrame s.addr s).traceGrows
  | skipSelect | romSkip => exact keeps_traceGrows_of_resetRun (keeps_romStart _)
  | readRom | romRead => exact keeps_traceGrows_store (keeps_traceGrows_of_resetRun keeps_readRomFrame) fun _ _ => rfl
  | searchInit alarm => exact keeps_traceGrows_update fun _ => rfl
  | searchNext => exact keeps_traceGrows_searchNextBody
  | crc8 n => exact keeps_traceGrows_update fun _ => rfl
  | reserved0 | reservedE | reservedF => exact keeps_raise TraceGrows.refl _
  | romSearch => exact keeps_traceGrows_of_resetRun (keeps_searchFrameBody false)
  | romAlarmSearch => exact keeps_traceGrows_of_resetRun (keeps_searchFrameBody true)

@[simp] theorem endOperation_trace (r : Res Unit) : (endOperation r).trace = r.state.trace := by
  rcases endOperation_eq r with ⟨s, rfl, he⟩ | ⟨e, s, rfl, -, he⟩ | ⟨e, s, rfl, -, -, -, -, he⟩ <;> rw [he] <;> rfl

theorem exec_traceGrows {i : Instr} {s t : State} (h : exec i s = .next t) : TraceGrows s t := by
  obtain ⟨-, rfl⟩ := exec_next h
  rw [TraceGrows, endOperation_trace]
  exact keeps_traceGrows_bodyOf i s

/-- An operation abandoned by a hardware reset leaves what the line saw of it in the trace (R250, log 14). -/
theorem State.cutAfter_traceGrows (s t : State) (k : Nat) : TraceGrows s (s.cutAfter t k) :=
  List.prefix_append s.trace _

theorem step_traceGrows {s t : State} (h : step s = .next t) : TraceGrows s t := by
  rcases step_cases h with ⟨-, rfl⟩ | ⟨-, rfl⟩ | ⟨w, rest, i, -, -, -, he⟩ | ⟨a, rest, -, rfl⟩ | ⟨i, v, rest, -, rfl⟩ |
    ⟨rest, -, rfl⟩ | ⟨w, k, rest, i, u, -, -, -, -, rfl⟩ | ⟨rest, -, rfl⟩
  case inr.inr.inl => exact exec_traceGrows (s := s.setInputs rest) he
  case inr.inr.inr.inr.inr.inr.inl => exact State.cutAfter_traceGrows (s.setInputs rest) u k
  all_goals exact .of_eq rfl

section
variable {M : Host.Core}

/-- A run of one step more that answers a next state takes a step and then runs on from there. -/
theorem run_succ_next {n : Nat} {s t : M.State} (h : M.run (n + 1) s = .next t) :
    ∃ u, M.step s = .next u ∧ M.run n u = .next t := by
  unfold Host.Core.run at h
  split at h
  next u hs => exact ⟨u, hs, h⟩
  next => cases h
  next => cases h

/-- A reflexive and transitive relation that every step keeps holds between the ends of every run. -/
theorem run_keeps {R : M.State → M.State → Prop} (refl : ∀ s, R s s) (trans : ∀ s t u, R s t → R t u → R s u)
    (hstep : ∀ s t, M.step s = .next t → R s t) (n : Nat) (s t : M.State) (h : M.run n s = .next t) : R s t := by
  induction n generalizing s with
  | zero => exact Host.Outcome.next.inj h ▸ refl s
  | succ n ih =>
    obtain ⟨u, hs, hr⟩ := run_succ_next h
    exact trans s u t (hstep s u hs) (ih u hr)

end

/-- Settles O53: every step keeps `TraceGrows`, hence every run does. -/
theorem traceOnlyGrows : Obligations.TraceOnlyGrows :=
  run_keeps (M := core) TraceGrows.refl TraceGrows.trans fun _ _ h => step_traceGrows h

/-! ## Sums of durations (R115, R262) -/

section
variable (p : TimingProfile)

@[simp] theorem traceMicros_nil : traceMicros p [] = 0 := rfl

@[simp] theorem traceMicros_cons (e : LineEvent) (es : List LineEvent) :
    traceMicros p (e :: es) = eventMicros p e + traceMicros p es := List.sum_cons

theorem traceMicros_append (es fs : List LineEvent) :
    traceMicros p (es ++ fs) = traceMicros p es + traceMicros p fs := by
  simp only [traceMicros, List.map_append, List.sum_append]

theorem traceMicros_lowSamples (j : Nat) : traceMicros p (lowSamples j) = j * p.whp := by
  induction j with
  | zero => simp [lowSamples]
  | succ j ih =>
    simp only [lowSamples, traceMicros_cons, ih, eventMicros, TimingProfile.micros, Nat.succ_mul]
    omega

theorem traceMicros_resetPulseEvents (level : Bool) :
    traceMicros p (resetPulseEvents level) = p.rstl + p.pds + p.rstr := by
  simp [resetPulseEvents, eventMicros, TimingProfile.micros, Nat.add_assoc]

theorem traceMicros_resetFrame (j : Nat) (level : Bool) :
    traceMicros p (resetFrame j level) = j * p.whp + (p.rstl + p.pds + p.rstr) := by
  simp [resetFrame, traceMicros_append, traceMicros_lowSamples, traceMicros_resetPulseEvents, eventMicros]

theorem traceMicros_writeSlot (b : Bool) :
    traceMicros p (writeSlot b) = if b then p.w1l + p.w1r else p.w0l + p.w0r := by
  cases b <;> simp [writeSlot, eventMicros, TimingProfile.micros]

theorem traceMicros_readSlot (level : Bool) : traceMicros p (readSlot level) = p.rdl + p.rds + p.rdr := by
  simp [readSlot, eventMicros, TimingProfile.micros, Nat.add_assoc]

end

/-- Settles O55: each shape's duration is the sum of its delays, the low samples by induction on their number. -/
theorem durationsFollowProfile : Obligations.DurationsFollowProfile := fun p j level b =>
  ⟨traceMicros_resetFrame p j level, traceMicros_lowSamples p j, traceMicros_writeSlot p b,
    traceMicros_readSlot p level⟩

end Sys2Proof.Machine
end

section
/-! PROOFS of the statements of spec/10_state.md, the shared part: what a slot does whatever the platform answers, and
procedures made of slots and Resets, with the rule for all their properties. -/

namespace Sys2Proof.Machine
open Proc

/-! ## Slots, whatever the platform answers (R113, R114) -/

theorem State.Works.succ {s : State} {n : Nat} {l : Bool} (h : s.Works n) (hn : s.answer n = .works l) :
    s.Works (n + 1) := fun k hk => by
  rcases Nat.lt_succ_iff_lt_or_eq.1 hk with hk | rfl
  · exact h k hk
  · rw [hn]
    rfl

theorem State.works_zero (s : State) : s.Works 0 := fun k hk => absurd hk (Nat.not_lt_zero k)

/-- A write slot is whole and leaves the line released, or ends in the `DriveLow` or `Release` that failed. -/
theorem writeBit_cases (b : Bool) (s : State) :
    (∃ u, writeBit b s = .done () u ∧ u.Released ∧ u.trace = s.trace ++ writeSlot b) ∨
    (∃ es u, writeBit b s = .raised .lineFault u ∧ u.trace = s.trace ++ es ∧ EndsInOutputFault es) := by
  cases h0 : s.answer 0 with
  | fails o => exact .inr ⟨[.failed .driveLow], _, writeBit_fails_drive h0 b, rfl, .inl rfl⟩
  | works l0 =>
    have hw := s.works_zero.succ h0
    cases h1 : s.answer 1 with
    | fails o =>
      exact .inr ⟨(writeSlot b).take 2 ++ [.failed .release], _, writeBit_fails_release hw h1 b, by simp,
        .inr List.getLast?_concat⟩
    | works l1 => exact .inl ⟨_, writeBit_works (hw.succ h1) b, ⟨rfl, rfl⟩, rfl⟩

/-- A read slot is whole and leaves the line released, or ends in the action that failed. -/
theorem readBit_cases (s : State) :
    (∃ level u, readBit s = .done level u ∧ u.Released ∧ u.trace = s.trace ++ readSlot level) ∨
    (∃ es a u, readBit s = .raised .lineFault u ∧ u.trace = s.trace ++ es ∧ es.getLast? = some (.failed a) ∧
      (¬u.Released → EndsInOutputFault es)) := by
  cases h0 : s.answer 0 with
  | fails o =>
    exact .inr ⟨[.failed .driveLow], .driveLow, _, readBit_fails_drive h0, rfl, rfl, fun _ => .inl rfl⟩
  | works l0 =>
    have hw := s.works_zero.succ h0
    cases h1 : s.answer 1 with
    | fails o => exact .inr ⟨_, .release, _, readBit_fails_release hw h1, rfl, rfl, fun _ => .inr rfl⟩
    | works l1 =>
      have hw := hw.succ h1
      cases h2 : s.answer 2 with
      | fails o => exact .inr ⟨_, .sample, _, readBit_fails_sample hw h2, rfl, rfl, fun h => absurd ⟨rfl, rfl⟩ h⟩
      | works l2 => exact .inl ⟨_, _, readBit_works (hw.succ h2), ⟨rfl, rfl⟩, rfl⟩

/-! ## Procedures made of slots and Resets (R75, R130, R140, R160) -/

/-- The procedures above the line primitives: slots and Resets in a row, and raises other than `LINE_FAULT`, which only a
line action raises (R110). -/
inductive SlotProc : {α : Type} → Proc α → Prop
  | writeBit (b : Bool) : SlotProc (Machine.writeBit b)
  | readBit : SlotProc Machine.readBit
  | reset : SlotProc resetSequence
  | pure {α : Type} (a : α) : SlotProc (Proc.pure a)
  | raise {α : Type} {e : ErrorKind} (he : e ≠ .lineFault) : SlotProc (Proc.raise (α := α) e)
  | andThen {α β : Type} {p : Proc α} {f : α → Proc β} (hp : SlotProc p) (hf : ∀ a, SlotProc (f a)) :
      SlotProc (p.andThen f)

section
variable {α β ι : Type}

theorem SlotProc.fold {f : β → ι → Proc β} (hf : ∀ b x, SlotProc (f b x)) (b : β) (xs : List ι) :
    SlotProc (Proc.fold f b xs) := by
  induction xs generalizing b with
  | nil => exact .pure b
  | cons x xs ih => exact .andThen (hf b x) ih

theorem SlotProc.forEach {f : ι → Proc Unit} (hf : ∀ x, SlotProc (f x)) (xs : List ι) :
    SlotProc (Proc.forEach f xs) := by
  rw [forEach_eq_fold]
  exact .fold (fun _ x => hf x) () xs

end

theorem slotProc_writeByte (v : Byte) : SlotProc (writeByte v) := .forEach (fun i => .writeBit (v.getLsbD i)) _

theorem slotProc_readByte : SlotProc readByte :=
  .fold (fun v i => .andThen .readBit fun b => .pure (setBit v i b)) _ _

theorem slotProc_romStart (code : Byte) : SlotProc (romStart code) := by
  refine .andThen .reset fun p => ?_
  cases p
  · exact .raise (by decide)
  · exact slotProc_writeByte code

theorem slotProc_writeAddress (a : Address) : SlotProc (writeAddress a) :=
  .forEach (fun k => slotProc_writeByte (addrByte a k)) _

theorem slotProc_readAddress : SlotProc readAddress :=
  .fold (fun a k => .andThen slotProc_readByte fun v => .pure (setAddrByte a k v)) _ _

theorem slotProc_checkAddress (a : Address) : SlotProc (checkAddress a) := by
  unfold checkAddress
  split
  · exact .pure ()
  · exact .raise (by decide)

theorem slotProc_matchRomFrame (a : Address) : SlotProc (matchRomFrame a) :=
  .andThen (slotProc_romStart _) fun _ => slotProc_writeAddress a

theorem slotProc_readRomFrame : SlotProc readRomFrame :=
  .andThen (slotProc_romStart _) fun _ => .andThen slotProc_readAddress fun a =>
    .andThen (slotProc_checkAddress a) fun _ => .pure a

/-- What a round does with its two sampled bits: the direction is chosen and written (R164 to R167). -/
def roundChoice (ld : Nat) (prev : Address) (c : Candidate) (n : Nat) (idBit cmpBit : Bool) : Proc Candidate :=
  if idBit && cmpBit then Proc.raise .unexpectedAbsence
  else
    (Machine.writeBit (roundDir ld prev n idBit cmpBit)).andThen fun _ =>
    Proc.pure
      { a := setBit c.a (n - 1) (roundDir ld prev n idBit cmpBit)
        lastZero := roundLastZero c.lastZero n idBit cmpBit (roundDir ld prev n idBit cmpBit) }

theorem searchRound_eq (ld : Nat) (prev : Address) (c : Candidate) (n : Nat) :
    searchRound ld prev c n = readBit.andThen fun i => readBit.andThen fun k => roundChoice ld prev c n i k := rfl

theorem slotProc_roundChoice (ld : Nat) (prev : Address) (c : Candidate) (n : Nat) (i k : Bool) :
    SlotProc (roundChoice ld prev c n i k) := by
  unfold roundChoice
  split
  · exact .raise (by decide)
  · exact .andThen (.writeBit _) fun _ => .pure _

theorem slotProc_searchRound (ld : Nat) (prev : Address) (c : Candidate) (n : Nat) :
    SlotProc (searchRound ld prev c n) :=
  .andThen .readBit fun i => .andThen .readBit fun k => slotProc_roundChoice ld prev c n i k

theorem slotProc_searchRounds (ld : Nat) (prev : Address) : SlotProc (searchRounds ld prev) :=
  .fold (slotProc_searchRound ld prev) _ _

theorem slotProc_searchPass (ld : Nat) (prev : Address) (alarm : Bool) : SlotProc (searchPass ld prev alarm) :=
  .andThen (slotProc_romStart _) fun _ => .andThen (slotProc_searchRounds ld prev) fun c =>
    .andThen (slotProc_checkAddress c.a) fun _ => .pure c

/-- All that slots and Resets keep or end in `E`, and no other error breaks, the procedures made of them do. -/
theorem SlotProc.spec {I : State → Prop} {E : ErrorKind → State → Prop}
    (hwrite : ∀ b, Spec I (Machine.writeBit b) (fun _ => I) E) (hread : Spec I Machine.readBit (fun _ => I) E)
    (hreset : Spec I resetSequence (fun _ => I) E) (hraise : ∀ e s, e ≠ .lineFault → I s → E e s)
    {α : Type} {p : Proc α} (hp : SlotProc p) : Spec I p (fun _ => I) E := by
  induction hp with
  | writeBit b => exact hwrite b
  | readBit => exact hread
  | reset => exact hreset
  | pure a => exact spec_pure (Q := fun _ => I) a
  | raise he => exact fun s hs => hraise _ s he hs
  | andThen _ _ ihp ihf => exact spec_andThen ihp ihf

/-! ## The rule for operations -/

/-- A property of the line output and the record of the line alone. -/
def LineOnly (I : State → Prop) : Prop :=
  ∀ s t : State, t.oe = s.oe → t.outputLow = s.outputLow → t.trace = s.trace → I s → I t

section
variable {I : State → Prop} {E : ErrorKind → State → Prop} {α ι : Type}

theorem spec_register (hI : LineOnly I) {g : State → State}
    (hg : ∀ s, (g s).oe = s.oe ∧ (g s).outputLow = s.outputLow ∧ (g s).trace = s.trace) :
    Spec I (Proc.update g) (fun _ => I) E := fun s hs =>
  hI s _ (hg s).1 (hg s).2.1 (hg s).2.2 hs

/-- Registers written from the result of a procedure do not touch the line. -/
theorem spec_store (hI : LineOnly I) {p : Proc α} (hp : Spec I p (fun _ => I) E) {g : α → State → State}
    (hg : ∀ a s, (g a s).oe = s.oe ∧ (g a s).outputLow = s.outputLow ∧ (g a s).trace = s.trace) :
    Spec I (p.andThen fun a => Proc.update (g a)) (fun _ => I) E :=
  spec_andThen hp fun a => spec_register hI (hg a)

theorem spec_searchNextBody (hI : LineOnly I) (hE : ∀ e, LineOnly (E e))
    (hp : ∀ {β : Type} (p : Proc β), SlotProc p → Spec I p (fun _ => I) E) :
    Spec I searchNextBody (fun _ => I) E := by
  intro s hs
  cases h : s.sHalt || s.searchComplete with
  | true =>
    rw [searchNextBody_ended h]
    exact hI s (s.setFound false) rfl rfl rfl hs
  | false =>
    rw [searchNextBody_runs h]
    have hpass := hp _ (slotProc_searchPass s.steerPosition s.sAddr s.sAlarm) (s.setFound false)
      (hI s (s.setFound false) rfl rfl rfl hs)
    rcases nextPassBody_cases s.sAlarm s with ⟨c, t, hr, -, -, he⟩ | ⟨e, t, hr, -, he⟩
    · rw [hr] at hpass
      rw [he]
      exact hI t (((t.commitPass c).setAddr c.a).setFound true) rfl rfl rfl hpass
    · rw [hr] at hpass
      rw [he]
      exact hE e t (t.setHalt true) rfl rfl rfl hpass

/-- What the procedures made of slots and Resets keep of the line, every operation keeps: the other steps of an operation
write registers only. -/
theorem spec_bodyOf (hI : LineOnly I) (hE : ∀ e, LineOnly (E e))
    (hp : ∀ {β : Type} (p : Proc β), SlotProc p → Spec I p (fun _ => I) E) (i : Instr) :
    Spec I (bodyOf i) (fun _ => I) E := by
  cases i with
  | reset => exact hp _ (.andThen .reset fun _ => .pure ())
  | writeBit b => exact hp _ (.writeBit b)
  | readBit => exact spec_store hI (hp _ .readBit) fun _ _ => ⟨rfl, rfl, rfl⟩
  | writeByte v => exact hp _ (slotProc_writeByte v)
  | readByte => exact spec_store hI (hp _ slotProc_readByte) fun _ _ => ⟨rfl, rfl, rfl⟩
  | writeBytes n => exact spec_forEach fun k _ s => hp _ (slotProc_writeByte (s.bufByte k)) s
  | readBytes n => exact spec_forEach fun k _ => spec_store hI (hp _ slotProc_readByte) fun _ _ => ⟨rfl, rfl, rfl⟩
  | select | romMatch => exact fun s => hp _ (slotProc_matchRomFrame s.addr) s
  | skipSelect | romSkip => exact hp _ (slotProc_romStart _)
  | readRom | romRead => exact spec_store hI (hp _ slotProc_readRomFrame) fun _ _ => ⟨rfl, rfl, rfl⟩
  | searchInit alarm => exact spec_register hI fun _ => ⟨rfl, rfl, rfl⟩
  | searchNext => exact spec_searchNextBody hI hE hp
  | crc8 n => exact spec_register hI fun _ => ⟨rfl, rfl, rfl⟩
  | reserved0 | reservedE | reservedF => exact hp _ (.raise (by decide))
  | romSearch | romAlarmSearch =>
    exact fun s => hp _ (.andThen (slotProc_searchPass s.steerPosition s.sAddr _) fun _ => .pure ()) s

end

end Sys2Proof.Machine
end

section
/-! PROOFS of the statements of spec/10_state.md about the line output: when an operation leaves the line released
(O43), and what a driven line does to a Reset (O44). -/

namespace Sys2Proof.Machine
open Proc

/-! ## A released line stays released but for a failed `DriveLow` or `Release` (R221, R227) -/

/-- The line is released, `pre` being the record when the operation began. -/
def ReleasedSince (pre : List LineEvent) (s : State) : Prop := s.Released ∧ pre <+: s.trace

/-- What an error leaves: a line that is not released was left so by the last action, and the error is `LINE_FAULT`. -/
def ReleasedUnlessFault (pre : List LineEvent) (e : ErrorKind) (s : State) : Prop :=
  ¬s.Released → e = .lineFault ∧ EndsInOutputFault (s.trace.drop pre.length)

theorem lineOnly_releasedSince (pre : List LineEvent) : LineOnly (ReleasedSince pre) := by
  intro s t ho hl ht h
  rwa [ReleasedSince, State.Released, ho, hl, ht]

theorem lineOnly_releasedUnlessFault (pre : List LineEvent) (e : ErrorKind) : LineOnly (ReleasedUnlessFault pre e) := by
  intro s t ho hl ht h
  rwa [ReleasedUnlessFault, State.Released, ho, hl, ht]

/-- The record `es` added last ends in an output fault: so does all that was added since `pre`. -/
theorem ReleasedUnlessFault.of_added {pre es : List LineEvent} {s u : State} {e : ErrorKind} (hs : ReleasedSince pre s)
    (ht : u.trace = s.trace ++ es) (h : ¬u.Released → e = .lineFault ∧ EndsInOutputFault es) :
    ReleasedUnlessFault pre e u := by
  intro hu
  obtain ⟨-, fs, hfs⟩ := hs
  refine ⟨(h hu).1, ?_⟩
  rw [ht, ← hfs, List.append_assoc, List.drop_left]
  exact (h hu).2.append fs

theorem ReleasedSince.of_added {pre es : List LineEvent} {s u : State} (hs : ReleasedSince pre s)
    (ht : u.trace = s.trace ++ es) (hu : u.Released) : ReleasedSince pre u :=
  ⟨hu, ht ▸ hs.2.trans (List.prefix_append _ _)⟩

/-- `BUS_NOT_HIGH` comes from `WaitHigh`, which only samples: the line output is as it was (R111, R222). -/
theorem resetSequence_busNotHigh {s u : State} (h : resetSequence s = .raised .busNotHigh u) :
    u.oe = s.oe ∧ u.outputLow = s.outputLow := by
  rw [resetSequence, waitHigh] at h
  rcases waitHighUpTo_cases Config.nWh s with ⟨j, v, -, -, hr, -⟩ | ⟨e, es, v, -, hr, ho, hl, -⟩
  · rw [andThen_done hr] at h
    rcases resetPulse_cases v with ⟨level, w, hp, -⟩ | ⟨es, w, hp, -⟩ <;> rw [hp] at h <;> cases h
  · rw [andThen_raised hr] at h
    cases h
    exact ⟨ho, hl⟩

theorem SlotProc.releasedUnlessFault (pre : List LineEvent) {α : Type} {p : Proc α} (hp : SlotProc p) :
    Spec (ReleasedSince pre) p (fun _ => ReleasedSince pre) (ReleasedUnlessFault pre) := by
  refine hp.spec (fun b s hs => ?_) (fun s hs => ?_) (fun s hs => ?_) fun e s _ hs h => absurd hs.1 h
  · rcases writeBit_cases b s with ⟨u, hr, hu, ht⟩ | ⟨es, u, hr, ht, he⟩ <;> rw [hr]
    · exact hs.of_added ht hu
    · exact .of_added hs ht fun _ => ⟨rfl, he⟩
  · rcases readBit_cases s with ⟨level, u, hr, hu, ht⟩ | ⟨es, a, u, hr, ht, -, he⟩ <;> rw [hr]
    · exact hs.of_added ht hu
    · exact .of_added hs ht fun h => ⟨rfl, he h⟩
  · rcases resetSequence_cases s with ⟨lows, level, u, -, -, hr, hu, -, ht⟩ | ⟨e, es, u, he, hr, -, ht, -, hf, hl⟩ <;>
      rw [hr]
    · exact hs.of_added ht hu
    · refine .of_added hs ht fun h => ⟨he.resolve_right ?_, hf hs.1 h⟩
      rintro rfl
      obtain ⟨ho, hl⟩ := resetSequence_busNotHigh hr
      exact h ⟨ho.trans hs.1.1, hl.trans hs.1.2⟩

/-- From a released line an operation's body ends with the line released, or in `LINE_FAULT` by a failed `DriveLow` or
`Release`. -/
theorem bodyOf_releasedUnlessFault (i : Instr) (pre : List LineEvent) :
    Spec (ReleasedSince pre) (bodyOf i) (fun _ => ReleasedSince pre) (ReleasedUnlessFault pre) :=
  spec_bodyOf (lineOnly_releasedSince pre) (lineOnly_releasedUnlessFault pre)
    (fun _ hp => hp.releasedUnlessFault pre) i

theorem endOperation_released {r : Res Unit} (h : r.state.Released) : (endOperation r).Released := by
  rcases endOperation_eq r with ⟨s, rfl, he⟩ | ⟨e, s, rfl, -, he⟩ | ⟨e, s, rfl, -, -, -, -, he⟩ <;> rw [he]
  · exact ⟨rfl, h.2⟩
  · exact h
  · exact ⟨rfl, h.2⟩

/-- An operation begun on a released line that does not leave it released ended in `LINE_FAULT`, its last action being a
`DriveLow` or a `Release` that failed. -/
theorem exec_not_released {i : Instr} {s t : State} (h : exec i s = .next t) (hs : s.Released) (ht : ¬t.Released) :
    statusCode t.status = 1 ∧ EndsInOutputFault (s.newEvents t) := by
  obtain ⟨-, rfl⟩ := exec_next h
  have hb : ReleasedSince s.trace s := ⟨hs, List.prefix_rfl⟩
  have hu : ¬(bodyOf i s).state.Released := fun hu => ht (endOperation_released hu)
  rw [endOperation_code, State.newEvents, endOperation_trace]
  cases hr : bodyOf i s with
  | done _ u => exact absurd (spec_done (bodyOf_releasedUnlessFault i s.trace) hb hr).1 (by rwa [hr] at hu)
  | raised e u =>
    rw [hr] at hu
    obtain ⟨rfl, hf⟩ := spec_raised (bodyOf_releasedUnlessFault i s.trace) hb hr hu
    exact ⟨rfl, hf⟩

/-! ## `OE` after an operation (R38, R73, R227) -/

/-- `ILLEGAL_OP` comes from a reserved code, which writes `STATUS.CODE` alone (R73, R204). -/
theorem exec_illegal {i : Instr} {s t : State} (h : exec i s = .next t) (hc : statusCode t.status = 6) :
    t = s.setCode ErrorKind.illegalOp.code := by
  obtain ⟨-, rfl⟩ := exec_next h
  rw [endOperation_code] at hc
  cases hr : bodyOf i s with
  | done _ u =>
    rw [hr] at hc
    exact absurd (show okCode = 6 from hc) (by decide)
  | raised e u =>
    rw [hr] at hc
    obtain rfl := ErrorKind.code_injective e .illegalOp hc
    obtain ⟨-, rfl⟩ := bodyOf_illegal hr
    rfl

/-- Begun with `OE = 0`, an operation ends with `OE = 0` but after `LINE_FAULT`. -/
theorem exec_oe {i : Instr} {s t : State} (h : exec i s = .next t) (hs : s.oe = false)
    (hc : statusCode t.status ≠ 1) : t.oe = false := by
  by_cases hi : statusCode t.status = 6
  · rw [exec_illegal h hi]
    exact hs
  · obtain ⟨-, rfl⟩ := exec_next h
    exact endOperation_oe hc hi

/-- Settles O43: `OE` from the end of the operation and `exec_illegal`, the real output from `exec_not_released`. -/
theorem lineReleasedUnlessFault : Obligations.LineReleasedUnlessFault := by
  intro i s t h
  refine ⟨exec_oe h, fun h1 h6 => ?_, fun h6 => ?_, fun hs h1 => ?_, fun hs ht => (exec_not_released h hs ht).2⟩
  · obtain ⟨-, rfl⟩ := exec_next h
    exact endOperation_oe h1 h6
  · rw [exec_illegal h h6]
    rfl
  · by_contra ht
    exact h1 (exec_not_released h hs ht).1

/-! ## A driven line defeats every Reset (R111, R221, R222) -/

/-- Begun with the real output driving the line and `OE` at `b`, `p` raises `LINE_FAULT` or `BUS_NOT_HIGH` and leaves
both. -/
abbrev DefeatedWhileDriven (b : Bool) {α : Type} (p : Proc α) : Prop :=
  Spec (fun s => s.oe = b ∧ s.outputLow = true) p (fun _ _ => False) fun e t =>
    (e = .lineFault ∨ e = .busNotHigh) ∧ t.oe = b ∧ t.outputLow = true

theorem resetSequence_defeated (b : Bool) : DefeatedWhileDriven b resetSequence := by
  rintro s ⟨rfl, hl⟩
  rcases resetSequence_cases s with ⟨lows, level, u, -, ho, -⟩ | ⟨e, es, u, he, hr, -, -, -, -, hd⟩
  · exact absurd (hl.symm.trans ho.2) (by decide)
  · rw [hr]
    exact ⟨he, hd hl⟩

/-- What comes after a defeated procedure is not reached. -/
theorem DefeatedWhileDriven.andThen {b : Bool} {α β : Type} {p : Proc α} (hp : DefeatedWhileDriven b p)
    (f : α → Proc β) : DefeatedWhileDriven b (p.andThen f) := spec_andThen hp fun _ _ h => h.elim

theorem romStart_defeated (b : Bool) (code : Byte) : DefeatedWhileDriven b (romStart code) :=
  (resetSequence_defeated b).andThen _

theorem searchPass_defeated (b : Bool) (ld : Nat) (prev : Address) (alarm : Bool) :
    DefeatedWhileDriven b (searchPass ld prev alarm) :=
  DefeatedWhileDriven.andThen (romStart_defeated b _) _

theorem selectBody_defeated (b : Bool) : DefeatedWhileDriven b selectBody := fun s hs =>
  (romStart_defeated b _).andThen (fun _ => writeAddress s.addr) s hs

theorem readRomBody_defeated (b : Bool) : DefeatedWhileDriven b readRomBody :=
  ((romStart_defeated b _).andThen _).andThen _

theorem searchFrameBody_defeated (b alarm : Bool) : DefeatedWhileDriven b (searchFrameBody alarm) := fun s hs =>
  (searchPass_defeated b s.steerPosition s.sAddr alarm).andThen (fun _ => Proc.pure ()) s hs

theorem nextPassBody_defeated (b alarm : Bool) : DefeatedWhileDriven b (nextPassBody alarm) := by
  intro s hs
  have hpass := searchPass_defeated b s.steerPosition s.sAddr alarm (s.setFound false) hs
  rcases nextPassBody_cases alarm s with ⟨c, t, hr, -⟩ | ⟨e, t, hr, -, he⟩
  · rw [hr] at hpass
    exact hpass.elim
  · rw [hr] at hpass
    rw [he]
    exact hpass

/-- Of the bodies that begin with a Reset, all are defeated. -/
theorem bodyOf_defeated (b : Bool) {i : Instr} (hi : i ∈ [Instr.reset, .select, .skipSelect, .readRom, .romRead,
    .romMatch, .romSkip, .romSearch, .romAlarmSearch]) : DefeatedWhileDriven b (bodyOf i) := by
  cases i with
  | reset => exact (resetSequence_defeated b).andThen _
  | select | romMatch => exact selectBody_defeated b
  | skipSelect | romSkip => exact romStart_defeated b _
  | readRom | romRead => exact readRomBody_defeated b
  | romSearch | romAlarmSearch => exact searchFrameBody_defeated b _
  | _ => simp at hi

/-- How a defeated operation ends: `LINE_FAULT` with `OE` as it was, or `BUS_NOT_HIGH` with `OE = 0` (R221, R227). -/
theorem DefeatedWhileDriven.endOperation {p : Proc Unit} {s : State} (hp : DefeatedWhileDriven s.oe p)
    (hl : s.outputLow = true) :
    ∃ e u, p s = .raised e u ∧ ((statusCode (endOperation (p s)).status = 1 ∧ (endOperation (p s)).oe = s.oe) ∨
        (statusCode (endOperation (p s)).status = 2 ∧ (endOperation (p s)).oe = false)) ∧
      (endOperation (p s)).outputLow = true := by
  have h := hp s ⟨rfl, hl⟩
  cases hr : p s with
  | done a u =>
    rw [hr] at h
    exact h.elim
  | raised e u =>
    rw [hr] at h
    obtain ⟨he, ho, hu⟩ := h
    refine ⟨e, u, rfl, ?_, by rwa [endOperation_outputLow]⟩
    rw [endOperation_code]
    rcases he with rfl | rfl
    · exact .inl ⟨rfl, ho⟩
    · exact .inr ⟨rfl, rfl⟩

/-! ## An operation without line action leaves the real output alone -/

/-- Since the record was `pre`, nothing was recorded, or the output still drives the line. -/
def DrivenUnlessActed (pre : List LineEvent) (s : State) : Prop :=
  ∃ es, s.trace = pre ++ es ∧ (es = [] → s.outputLow = true)

theorem lineOnly_drivenUnlessActed (pre : List LineEvent) : LineOnly (DrivenUnlessActed pre) := by
  intro s t _ hl ht h
  rwa [DrivenUnlessActed, hl, ht]

theorem DrivenUnlessActed.of_added {pre es : List LineEvent} {s u : State} (hs : DrivenUnlessActed pre s)
    (ht : u.trace = s.trace ++ es) (h : es = [] → s.outputLow = true → u.outputLow = true) :
    DrivenUnlessActed pre u := by
  obtain ⟨fs, hfs, hl⟩ := hs
  refine ⟨fs ++ es, by rw [ht, hfs, List.append_assoc], fun hn => ?_⟩
  obtain ⟨rfl, rfl⟩ := List.append_eq_nil_iff.1 hn
  exact h rfl (hl rfl)

theorem SlotProc.drivenUnlessActed (pre : List LineEvent) {α : Type} {p : Proc α} (hp : SlotProc p) :
    Spec (DrivenUnlessActed pre) p (fun _ => DrivenUnlessActed pre) fun _ => DrivenUnlessActed pre := by
  refine hp.spec (fun b s hs => ?_) (fun s hs => ?_) (fun s hs => ?_) fun _ _ _ hs => hs
  · rcases writeBit_cases b s with ⟨u, hr, -, ht⟩ | ⟨es, u, hr, ht, he⟩ <;> rw [hr]
    · exact hs.of_added ht fun hn => absurd hn (by cases b <;> simp [writeSlot])
    · exact hs.of_added ht fun hn => absurd he (by simp [hn, EndsInOutputFault])
  · rcases readBit_cases s with ⟨level, u, hr, -, ht⟩ | ⟨es, a, u, hr, ht, he, -⟩ <;> rw [hr]
    · exact hs.of_added ht fun hn => absurd hn (by simp [readSlot])
    · exact hs.of_added ht fun hn => absurd he (by simp [hn])
  · rcases resetSequence_cases s with ⟨lows, level, u, -, -, hr, -, -, ht⟩ | ⟨e, es, u, -, hr, -, ht, -, -, hl⟩ <;>
      rw [hr]
    · exact hs.of_added ht fun hn => absurd hn (by simp [resetFrame])
    · exact hs.of_added ht fun _ h => (hl h).2

/-- An operation that adds nothing to the trace leaves the real output driving the line. -/
theorem exec_silent_driven {i : Instr} {s t : State} (h : exec i s = .next t) (hs : s.outputLow = true)
    (ht : t.trace = s.trace) : t.outputLow = true := by
  obtain ⟨-, rfl⟩ := exec_next h
  rw [endOperation_trace] at ht
  rw [endOperation_outputLow]
  have hb := spec_bodyOf (lineOnly_drivenUnlessActed s.trace) (fun _ => lineOnly_drivenUnlessActed s.trace)
    (fun _ hp => hp.drivenUnlessActed s.trace) i s ⟨[], (List.append_nil _).symm, fun _ => hs⟩
  have hd : DrivenUnlessActed s.trace (bodyOf i s).state := by
    cases hr : bodyOf i s <;> rwa [hr] at hb
  obtain ⟨es, hes, hl⟩ := hd
  rw [ht, List.self_eq_append_right] at hes
  exact hl hes

/-- Settles O44: the first part of every Reset is defeated, and what comes after it is not reached. -/
theorem drivenLineDefeatsEveryReset : Obligations.DrivenLineDefeatsEveryReset := by
  refine fun s t hl => ⟨fun i hi h => ?_, fun alarm hrun h => ?_, fun i h ht => exec_silent_driven h hl ht⟩
  · obtain ⟨-, rfl⟩ := exec_next h
    obtain ⟨-, -, -, hend⟩ := (bodyOf_defeated s.oe hi).endOperation hl
    exact hend
  · obtain rfl := Host.Outcome.next.inj (hrun.exec_eq.symm.trans h)
    obtain ⟨e, u, hr, hend, hlow⟩ := (nextPassBody_defeated s.oe alarm).endOperation hl
    refine ⟨hend, hlow, ?_⟩
    rcases nextPassBody_cases alarm s with ⟨c, v, -, -, -, he⟩ | ⟨e', v, -, -, he⟩
    · rw [he] at hr
      cases hr
    · rw [he]
      cases e' <;> rfl

end Sys2Proof.Machine
end

section
/-! PROOFS of the statements of spec/10_state.md about frames: what each class of operations leaves as it was (O46, O47,
O48), that an ended search stays ended (O60), and that the other operations do not read the search either (O51). -/

namespace Sys2Proof.Machine
open Proc

/-! ## Frames (R29, R32, R205) -/

/-- What no operation outside the search changes: the Search State, the iterator bits, the inputs, `FOUND` and
`STATUS[7:5]`. -/
structure SearchFrame (s t : State) : Prop where
  sAddr : t.sAddr = s.sAddr
  sLd : t.sLd = s.sLd
  sFirst : t.sFirst = s.sFirst
  sAlarm : t.sAlarm = s.sAlarm
  sHalt : t.sHalt = s.sHalt
  inputs : t.inputs = s.inputs
  resets : t.resets = s.resets
  found : statusFound t.status = statusFound s.status
  reserved : statusReserved t.status = statusReserved s.status

/-- And no register that holds a result changes either. -/
structure RegisterFrame (s t : State) : Prop extends SearchFrame s t where
  addr : t.addr = s.addr
  data : t.data = s.data
  buf : t.buf = s.buf

theorem SearchFrame.refl (s : State) : SearchFrame s s := ⟨rfl, rfl, rfl, rfl, rfl, rfl, rfl, rfl, rfl⟩

theorem SearchFrame.trans (s t u : State) (h1 : SearchFrame s t) (h2 : SearchFrame t u) : SearchFrame s u :=
  ⟨h2.sAddr.trans h1.sAddr, h2.sLd.trans h1.sLd, h2.sFirst.trans h1.sFirst, h2.sAlarm.trans h1.sAlarm,
    h2.sHalt.trans h1.sHalt, h2.inputs.trans h1.inputs, h2.resets.trans h1.resets, h2.found.trans h1.found,
    h2.reserved.trans h1.reserved⟩

theorem searchFrame_setData (s : State) (v : Byte) : SearchFrame s (s.setData v) := by constructor <;> rfl

theorem searchFrame_setAddr (s : State) (a : Address) : SearchFrame s (s.setAddr a) := by constructor <;> rfl

theorem searchFrame_bufWrite (s : State) (i : Nat) (v : Byte) : SearchFrame s (s.bufWrite i v) := by
  constructor <;> rfl

theorem RegisterFrame.trans {s t u : State} (h1 : RegisterFrame s t) (h2 : RegisterFrame t u) : RegisterFrame s u :=
  ⟨SearchFrame.trans s t u h1.toSearchFrame h2.toSearchFrame, h2.addr.trans h1.addr, h2.data.trans h1.data,
    h2.buf.trans h1.buf⟩

theorem RegisterFrame.bufByte {s t : State} (h : RegisterFrame s t) (k : Nat) : t.bufByte k = s.bufByte k :=
  State.bufByte_congr s t h.buf h.resets k

/-- Line activity, a Reset in it or not, is within the frame. -/
theorem ResetRun.registerFrame {s t : State} (h : ResetRun s t) : RegisterFrame s t := by
  obtain ⟨st, hst, b, l, es, rfl⟩ := h
  refine ⟨⟨rfl, rfl, rfl, rfl, rfl, rfl, rfl, ?_, ?_⟩, rfl, rfl, rfl⟩ <;>
    rcases hst with rfl | ⟨p, rfl⟩ <;> simp

theorem LineRun.presence_eq {s t : State} (h : LineRun s t) : statusPresence t.status = statusPresence s.status := by
  rw [h.status_eq]

/-- Ending an operation writes `OE` and `STATUS.CODE`. -/
theorem endOperation_writes (r : Res Unit) : ∃ b c, endOperation r = (r.state.setOe b).setCode c := by
  rcases endOperation_eq r with ⟨s, rfl, he⟩ | ⟨e, s, rfl, -, he⟩ | ⟨e, s, rfl, -, -, -, -, he⟩
  · exact ⟨_, _, he⟩
  · exact ⟨s.oe, _, he⟩
  · exact ⟨_, _, he⟩

theorem endOperation_registerFrame (r : Res Unit) : RegisterFrame r.state (endOperation r) := by
  obtain ⟨b, c, he⟩ := endOperation_writes r
  rw [he]
  exact ⟨⟨rfl, rfl, rfl, rfl, rfl, rfl, rfl, statusFound_withCode _ _, statusReserved_withCode _ _⟩, rfl, rfl, rfl⟩

@[simp] theorem endOperation_presence (r : Res Unit) :
    statusPresence (endOperation r).status = statusPresence r.state.status := by
  obtain ⟨b, c, he⟩ := endOperation_writes r
  rw [he]
  exact statusPresence_withCode _ _

/-- An operation whose body is line activity keeps the frame. -/
theorem exec_registerFrame {i : Instr} {s t : State} (hb : ResetRun s (bodyOf i s).state) (h : exec i s = .next t) :
    RegisterFrame s t := by
  obtain ⟨-, rfl⟩ := exec_next h
  exact hb.registerFrame.trans (endOperation_registerFrame _)

/-- Without a Reset it keeps `PRESENCE` too. -/
theorem exec_presence {i : Instr} {s t : State} (hb : LineRun s (bodyOf i s).state) (h : exec i s = .next t) :
    statusPresence t.status = statusPresence s.status := by
  obtain ⟨-, rfl⟩ := exec_next h
  rw [endOperation_presence, hb.presence_eq]

/-- The operations that store nothing and do not Reset are line activity without a Reset. -/
theorem keeps_writingOps {i : Instr} (hi : (∃ b, i = .writeBit b) ∨ (∃ v, i = .writeByte v) ∨ (∃ n, i = .writeBytes n) ∨
    i ∈ [Instr.reserved0, .reservedE, .reservedF]) : Keeps LineRun (bodyOf i) := by
  rcases hi with ⟨b, rfl⟩ | ⟨v, rfl⟩ | ⟨n, rfl⟩ | hi
  · exact keeps_writeBit b
  · exact keeps_writeByte v
  · exact keeps_writeBlock n
  · cases i with
    | reserved0 | reservedE | reservedF => exact LineRun.raise _
    | _ => simp at hi

/-- Settles O46: line activity without a Reset, then the end of the operation. -/
theorem writingOperationsFrame : Obligations.WritingOperationsFrame := by
  intro s t i hi h
  have hb := keeps_writingOps hi s
  have hf := exec_registerFrame hb.toReset h
  exact ⟨hf.addr, hf.data, hf.bufByte, hf.sAddr, hf.sLd, hf.sFirst, hf.sAlarm, hf.sHalt, hf.inputs, hf.resets,
    exec_presence hb h, hf.found, hf.reserved⟩

/-- The operations that Reset and store nothing are line activity with a Reset. -/
theorem keeps_resettingOps {i : Instr} (hi : i ∈ [Instr.reset, .select, .skipSelect, .romMatch, .romSkip, .romSearch,
    .romAlarmSearch]) : Keeps ResetRun (bodyOf i) := by
  obtain ⟨hreset, hselect, hskip⟩ := resetOps_keep
  cases i with
  | reset => exact hreset
  | select | romMatch => exact hselect
  | skipSelect | romSkip => exact hskip
  | romSearch | romAlarmSearch => exact keeps_searchFrameBody _
  | _ => simp at hi

/-- Settles O47: line activity with a Reset, then the end of the operation. -/
theorem resettingOperationsFrame : Obligations.ResettingOperationsFrame := by
  intro s t i hi h
  have hf := exec_registerFrame (keeps_resettingOps hi s) h
  exact ⟨hf.addr, hf.data, hf.bufByte, hf.sAddr, hf.sLd, hf.sFirst, hf.sAlarm, hf.sHalt, hf.inputs, hf.resets,
    hf.found, hf.reserved⟩

/-! ## Operations with a result (R193, R195, R200, R203) -/

/-- The operations with a result in `DATA`: line activity, then `DATA` is written when it succeeded. -/
theorem dataOp_cases {i : Instr} (hi : i ∈ [Instr.readBit, .readByte] ∨ ∃ n, i = .crc8 n) (s : State) :
    (∃ v u, LineRun s u ∧ bodyOf i s = .done () (u.setData v)) ∨
    (∃ e u, LineRun s u ∧ bodyOf i s = .raised e u) := by
  cases i with
  | readBit =>
    rcases readOps_cases keeps_readBit zextBit s with ⟨b, u, -, hu, hr⟩ | ⟨e, u, -, hu, hr⟩
    · exact .inl ⟨_, u, hu, hr⟩
    · exact .inr ⟨e, u, hu, hr⟩
  | readByte =>
    rcases readOps_cases keeps_readByte id s with ⟨v, u, -, hu, hr⟩ | ⟨e, u, -, hu, hr⟩
    · exact .inl ⟨v, u, hu, hr⟩
    · exact .inr ⟨e, u, hu, hr⟩
  | crc8 n => exact .inl ⟨_, s, LineRun.refl s, rfl⟩
  | _ => simp at hi

/-- Their frame: `DATA` is written only when they end with `OK`, the other registers with a result never. -/
theorem dataOp_frame {i : Instr} (hi : i ∈ [Instr.readBit, .readByte] ∨ ∃ n, i = .crc8 n) {s t : State}
    (h : exec i s = .next t) :
    SearchFrame s t ∧ t.addr = s.addr ∧ t.buf = s.buf ∧ statusPresence t.status = statusPresence s.status ∧
      (statusCode t.status ≠ 0 → t.data = s.data) := by
  obtain ⟨-, rfl⟩ := exec_next h
  have hend := endOperation_registerFrame (bodyOf i s)
  rw [endOperation_presence, endOperation_code]
  rcases dataOp_cases hi s with ⟨v, u, hu, hr⟩ | ⟨e, u, hu, hr⟩ <;> rw [hr] at hend ⊢ <;>
    have hf := hu.toReset.registerFrame
  · exact ⟨(hf.toSearchFrame.trans _ _ _ (searchFrame_setData u v)).trans _ _ _ hend.toSearchFrame,
      hend.addr.trans hf.addr, hend.buf.trans hf.buf, hu.presence_eq, fun hc => absurd rfl hc⟩
  · have ht := hf.trans hend
    exact ⟨ht.toSearchFrame, ht.addr, ht.buf, hu.presence_eq, fun _ => ht.data⟩

theorem bodyOf_readRom {i : Instr} (hi : i ∈ [Instr.readRom, .romRead]) : bodyOf i = readRomBody := by
  cases i with
  | readRom | romRead => rfl
  | _ => simp at hi

/-- The frame of Read ROM: `ADDR` is written only when it ends with `OK`. -/
theorem readRom_frame {i : Instr} (hi : i ∈ [Instr.readRom, .romRead]) {s t : State} (h : exec i s = .next t) :
    SearchFrame s t ∧ t.data = s.data ∧ t.buf = s.buf ∧ (statusCode t.status ≠ 0 → t.addr = s.addr) := by
  obtain ⟨-, rfl⟩ := exec_next h
  have hend := endOperation_registerFrame (bodyOf i s)
  rw [endOperation_code]
  rw [bodyOf_readRom hi] at hend ⊢
  rcases readRomBody_cases s with ⟨a, u, -, hu, hr⟩ | ⟨e, u, hu, hr⟩ <;> rw [hr] at hend ⊢ <;>
    have hf := hu.registerFrame
  · exact ⟨(hf.toSearchFrame.trans _ _ _ (searchFrame_setAddr u a)).trans _ _ _ hend.toSearchFrame,
      hend.data.trans hf.data, hend.buf.trans hf.buf, fun hc => absurd rfl hc⟩
  · have ht := hf.trans hend
    exact ⟨ht.toSearchFrame, ht.data, ht.buf, fun _ => ht.addr⟩

/-- Settles O48: the frames of the operations with a result in `DATA` and of Read ROM. -/
theorem resultOperationsFrame : Obligations.ResultOperationsFrame := by
  refine fun s t => ⟨fun i hi h => ?_, fun i hi h => ?_⟩
  · obtain ⟨hf, ha, hb, hp, hd⟩ := dataOp_frame hi h
    exact ⟨ha, hd, State.bufByte_congr s t hb hf.resets, hf.sAddr, hf.sLd, hf.sFirst, hf.sAlarm, hf.sHalt, hf.inputs,
      hf.resets, hp, hf.found, hf.reserved⟩
  · obtain ⟨hf, hd, hb, ha⟩ := readRom_frame hi h
    exact ⟨ha, hd, State.bufByte_congr s t hb hf.resets, hf.sAddr, hf.sLd, hf.sFirst, hf.sAlarm, hf.sHalt, hf.inputs,
      hf.resets, hf.found, hf.reserved⟩

/-! ## Outside the search the Search State stays (R29) -/

theorem keeps_searchFrame_readBlock (n : Nat) : Keeps SearchFrame (readBlock n) := by
  refine keeps_forEach SearchFrame.refl SearchFrame.trans fun k _ s => ?_
  rcases readBufByte_cases k s with ⟨v, u, hu, hr⟩ | ⟨e, u, hu, hr⟩ <;> rw [hr]
  · exact hu.toReset.registerFrame.toSearchFrame.trans _ _ _ (searchFrame_bufWrite u k v)
  · exact hu.toReset.registerFrame.toSearchFrame

/-- Every operation but `SEARCH_INIT` and `SEARCH_NEXT` leaves the Search State, the iterator bits and `FOUND`, and all but
`READ_BYTES` leave `BUF`. -/
theorem exec_outside_search {i : Instr} {s t : State} (hi : ∀ alarm, i ≠ .searchInit alarm) (hn : i ≠ .searchNext)
    (h : exec i s = .next t) : SearchFrame s t ∧ ((∃ n, i = .readBytes n) ∨ t.buf = s.buf) := by
  have run : ResetRun s (bodyOf i s).state → SearchFrame s t ∧ ((∃ n, i = .readBytes n) ∨ t.buf = s.buf) := fun hb =>
    have hf := exec_registerFrame hb h
    ⟨hf.toSearchFrame, .inr hf.buf⟩
  have data : i ∈ [Instr.readBit, .readByte] ∨ (∃ n, i = .crc8 n) →
      SearchFrame s t ∧ ((∃ n, i = .readBytes n) ∨ t.buf = s.buf) := fun hd =>
    have ⟨hf, _, hb, _⟩ := dataOp_frame hd h
    ⟨hf, .inr hb⟩
  cases i with
  | searchInit alarm => exact absurd rfl (hi alarm)
  | searchNext => exact absurd rfl hn
  | writeBit b => exact run (keeps_writingOps (.inl ⟨b, rfl⟩) s).toReset
  | writeByte v => exact run (keeps_writingOps (.inr (.inl ⟨v, rfl⟩)) s).toReset
  | writeBytes n => exact run (keeps_writingOps (.inr (.inr (.inl ⟨n, rfl⟩))) s).toReset
  | reserved0 | reservedE | reservedF => exact run (keeps_writingOps (.inr (.inr (.inr (by decide)))) s).toReset
  | reset | select | skipSelect | romMatch | romSkip | romSearch | romAlarmSearch =>
    exact run (keeps_resettingOps (by decide) s)
  | readBit | readByte => exact data (.inl (by decide))
  | crc8 n => exact data (.inr ⟨n, rfl⟩)
  | readRom | romRead =>
    obtain ⟨hf, -, hb, -⟩ := readRom_frame (by decide) h
    exact ⟨hf, .inr hb⟩
  | readBytes n =>
    obtain ⟨-, rfl⟩ := exec_next h
    exact ⟨SearchFrame.trans _ _ _ (keeps_searchFrame_readBlock n s) (endOperation_registerFrame _).toSearchFrame,
      .inl ⟨n, rfl⟩⟩

/-- `SEARCH_NEXT` of an ended search writes `FOUND`, `OE` and `CODE` alone (R172, R174). -/
theorem exec_searchNext_ended {s : State} (h : (s.sHalt || s.searchComplete) = true) :
    exec .searchNext s = .next (((s.setFound false).setOe false).setCode okCode) := by
  rw [exec_eq .searchNext s rfl]
  exact congrArg (fun r => Host.Outcome.next (endOperation r)) (searchNextBody_ended h)

/-- Settles O60: `SEARCH_NEXT` does nothing to an ended search, the other operations do not write the Search State. -/
theorem endedSearchStaysEnded : Obligations.EndedSearchStaysEnded := by
  intro i s t hi h
  have hkeep : (s.sHalt || s.searchComplete) = true →
      t.sAddr = s.sAddr ∧ t.sLd = s.sLd ∧ t.sFirst = s.sFirst ∧ t.sHalt = s.sHalt := by
    intro hs
    by_cases hn : i = .searchNext
    · subst hn
      obtain rfl := Host.Outcome.next.inj ((exec_searchNext_ended hs).symm.trans h)
      exact ⟨rfl, rfl, rfl, rfl⟩
    · obtain ⟨hf, -⟩ := exec_outside_search hi hn h
      exact ⟨hf.sAddr, hf.sLd, hf.sFirst, hf.sHalt⟩
  refine ⟨fun hc => ?_, fun hh => ?_⟩
  · obtain ⟨ha, hl, hf, hh⟩ := hkeep (by rw [hc, Bool.or_true])
    exact ⟨by rw [State.searchComplete, hf, hl]; exact hc, ha, hh⟩
  · obtain ⟨ha, hl, hf, hh'⟩ := hkeep (by rw [hh, Bool.true_or])
    exact ⟨hh'.trans hh, ha, hl, hf⟩

end Sys2Proof.Machine
end

section
/-! PROOFS of the statements of spec/10_state.md about isolation: the operations outside the search do not read the
Search State and the iterator bits (O51). -/

namespace Sys2Proof.Machine
open Proc

/-! ## Registers an operation does not read (R29) -/

/-- A change `g` of registers that no action, and no register read or write of an operation outside the search, can
tell. -/
structure Inert (g : State → State) : Prop where
  answer : ∀ s k, (g s).answer k = s.answer k
  lineLevel : ∀ s l, (g s).lineLevel l = s.lineLevel l
  addr : ∀ s, (g s).addr = s.addr
  bufByte : ∀ s k, (g s).bufByte k = s.bufByte k
  consume : ∀ s n, (g s).consume n = g (s.consume n)
  setOutput : ∀ s b l, (g s).setOutput b l = g (s.setOutput b l)
  log : ∀ s e, (g s).log e = g (s.log e)
  setPresence : ∀ s b, (g s).setPresence b = g (s.setPresence b)
  setData : ∀ s v, (g s).setData v = g (s.setData v)
  setAddr : ∀ s a, (g s).setAddr a = g (s.setAddr a)
  bufWrite : ∀ s i v, (g s).bufWrite i v = g (s.bufWrite i v)

/-- The same end of a procedure, its state changed by `g`. -/
def Res.map {α : Type} (g : State → State) : Res α → Res α
  | .done a s => .done a (g s)
  | .raised e s => .raised e (g s)

/-- Run from a state changed by `g`, `p` does the same, and the change passes through. -/
def CommutesWith (g : State → State) {α : Type} (p : Proc α) : Prop := ∀ s, p (g s) = (p s).map g

section
variable {g : State → State} {α β ι : Type}

theorem CommutesWith.pure (a : α) : CommutesWith g (Proc.pure a) := fun _ => rfl

theorem CommutesWith.raise (e : ErrorKind) : CommutesWith g (Proc.raise (α := α) e) := fun _ => rfl

theorem CommutesWith.update {f : State → State} (h : ∀ s, f (g s) = g (f s)) : CommutesWith g (Proc.update f) :=
  fun s => congrArg (Res.done ()) (h s)

theorem CommutesWith.andThen {p : Proc α} {f : α → Proc β} (hp : CommutesWith g p)
    (hf : ∀ a, CommutesWith g (f a)) : CommutesWith g (p.andThen f) := by
  intro s
  have h := hp s
  cases hr : p s with
  | done a t =>
    rw [hr] at h
    rw [andThen_done h, andThen_done hr]
    exact hf a t
  | raised e t =>
    rw [hr] at h
    rw [andThen_raised h, andThen_raised hr]
    rfl

theorem CommutesWith.forEach {f : ι → Proc Unit} (hf : ∀ x, CommutesWith g (f x)) (xs : List ι) :
    CommutesWith g (Proc.forEach f xs) := by
  induction xs with
  | nil => exact .pure ()
  | cons x xs ih => exact .andThen (hf x) fun _ => ih

end

section
variable {g : State → State} (hg : Inert g)
include hg

theorem Inert.driveLow : CommutesWith g driveLow := by
  intro s
  cases h : s.answer 0 with
  | works l =>
    rw [driveLow_works h, driveLow_works ((hg.answer s 0).trans h), hg.consume, hg.setOutput, hg.log]
    rfl
  | fails o =>
    rw [driveLow_fails h, driveLow_fails ((hg.answer s 0).trans h), hg.consume, hg.setOutput, hg.log]
    rfl

theorem Inert.release : CommutesWith g release := by
  intro s
  cases h : s.answer 0 with
  | works l =>
    rw [release_works h, release_works ((hg.answer s 0).trans h), hg.consume, hg.setOutput, hg.log]
    rfl
  | fails o =>
    rw [release_fails h, release_fails ((hg.answer s 0).trans h), hg.consume, hg.setOutput, hg.log]
    rfl

theorem Inert.sample : CommutesWith g sample := by
  intro s
  cases h : s.answer 0 with
  | works l =>
    rw [sample_works h, sample_works ((hg.answer s 0).trans h), hg.lineLevel, hg.consume, hg.log]
    rfl
  | fails o =>
    rw [sample_fails h, sample_fails ((hg.answer s 0).trans h), hg.consume, hg.log]
    rfl

theorem Inert.delay (d : Duration) : CommutesWith g (delay d) := .update fun s => hg.log s (.delay d)

theorem Inert.writeBit (b : Bool) : CommutesWith g (writeBit b) :=
  hg.driveLow.andThen fun _ => (hg.delay _).andThen fun _ => hg.release.andThen fun _ => hg.delay _

theorem Inert.readBit : CommutesWith g readBit :=
  hg.driveLow.andThen fun _ => (hg.delay _).andThen fun _ => hg.release.andThen fun _ => (hg.delay _).andThen fun _ =>
    hg.sample.andThen fun l => (hg.delay _).andThen fun _ => .pure l

theorem Inert.waitHighUpTo (n : Nat) : CommutesWith g (waitHighUpTo n) := by
  induction n with
  | zero => exact .raise _
  | succ n ih =>
    refine hg.sample.andThen fun l => ?_
    cases l
    · exact (hg.delay _).andThen fun _ => ih
    · exact .pure ()

theorem Inert.resetSequence : CommutesWith g resetSequence :=
  (hg.waitHighUpTo _).andThen fun _ => hg.driveLow.andThen fun _ => (hg.delay _).andThen fun _ =>
    hg.release.andThen fun _ => (hg.delay _).andThen fun _ => hg.sample.andThen fun l =>
      (hg.delay _).andThen fun _ => (CommutesWith.update fun s => hg.setPresence s (!l)).andThen fun _ => .pure _

theorem Inert.slotProc {α : Type} {p : Proc α} (hp : SlotProc p) : CommutesWith g p := by
  induction hp with
  | writeBit b => exact hg.writeBit b
  | readBit => exact hg.readBit
  | reset => exact hg.resetSequence
  | pure a => exact .pure a
  | raise _ => exact .raise _
  | andThen _ _ ihp ihf => exact ihp.andThen ihf

theorem Inert.selectBody : CommutesWith g selectBody := fun s => by
  rw [Machine.selectBody, Machine.selectBody, hg.addr]
  exact hg.slotProc (slotProc_matchRomFrame s.addr) s

theorem Inert.writeBufByte (k : Nat) : CommutesWith g (writeBufByte k) := fun s => by
  rw [Machine.writeBufByte, Machine.writeBufByte, hg.bufByte]
  exact hg.slotProc (slotProc_writeByte (s.bufByte k)) s

theorem Inert.crc8Body (n : Nat) : CommutesWith g (crc8Body n) := .update fun s => by
  rw [State.bufBytes, funext (hg.bufByte s)]
  exact hg.setData s _

/-- Every operation outside the search commutes with an inert change. -/
theorem Inert.bodyOf {i : Instr} (hi : ∀ alarm, i ≠ .searchInit alarm) (hn : i ≠ .searchNext) (hs : i ≠ .romSearch)
    (ha : i ≠ .romAlarmSearch) : CommutesWith g (bodyOf i) := by
  cases i with
  | reset => exact hg.resetSequence.andThen fun _ => .pure ()
  | writeBit b => exact hg.writeBit b
  | readBit => exact hg.readBit.andThen fun b => .update fun s => hg.setData s _
  | writeByte v => exact hg.slotProc (slotProc_writeByte v)
  | readByte => exact (hg.slotProc slotProc_readByte).andThen fun v => .update fun s => hg.setData s v
  | writeBytes n => exact .forEach hg.writeBufByte _
  | readBytes n =>
    exact .forEach (fun k => (hg.slotProc slotProc_readByte).andThen fun v => .update fun s => hg.bufWrite s k v) _
  | select | romMatch => exact hg.selectBody
  | skipSelect | romSkip => exact hg.slotProc (slotProc_romStart _)
  | readRom | romRead =>
    exact (hg.slotProc slotProc_readRomFrame).andThen fun a => .update fun s => hg.setAddr s a
  | searchInit alarm => exact absurd rfl (hi alarm)
  | searchNext => exact absurd rfl hn
  | crc8 n => exact hg.crc8Body n
  | reserved0 | reservedE | reservedF => exact .raise _
  | romSearch => exact absurd rfl hs
  | romAlarmSearch => exact absurd rfl ha

end

/-- Another Search State and other iterator bits. -/
def State.withSearch (a : Address) (ld : BitVec 7) (f al h : Bool) (s : State) : State :=
  { s with sAddr := a, sLd := ld, sFirst := f, sAlarm := al, sHalt := h }

theorem inert_withSearch (a : Address) (ld : BitVec 7) (f al h : Bool) : Inert (State.withSearch a ld f al h) := by
  constructor <;> intros <;> rfl

theorem endOperation_withSearch (a : Address) (ld : BitVec 7) (f al h : Bool) (r : Res Unit) :
    endOperation (r.map (State.withSearch a ld f al h)) = (endOperation r).withSearch a ld f al h := by
  cases r with
  | done _ s => rfl
  | raised e s => cases e <;> rfl

/-- Settles O51: writing the Search State is inert for every operation outside the search. -/
theorem otherOperationsIgnoreSearchState : Obligations.OtherOperationsIgnoreSearchState := by
  intro i s t a ld f al h hi hn hs ha he
  obtain ⟨hwf, rfl⟩ := exec_next he
  show exec i (s.withSearch a ld f al h) = .next ((endOperation (bodyOf i s)).withSearch a ld f al h)
  rw [exec_eq i _ hwf, (inert_withSearch a ld f al h).bodyOf hi hn hs ha s, endOperation_withSearch]

end Sys2Proof.Machine
end

section
/-! PROOFS of the statements of spec/10_state.md about the registers the host writes and hardware reset (O6, O7, O8, O9),
address validity (O13), what `SEARCH_NEXT` finds (O35), and the invariant (O10, O11). -/

namespace Sys2Proof.Machine
open Proc

/-! ## The host's writes and hardware reset (R22, R26, R37, R250) -/

/-- Settles O6: the step takes the write at once, and `BUF` reads after a write as the laws of memory say. -/
theorem hostWritesAddrAndBuf : Obligations.HostWritesAddrAndBuf := by
  refine ⟨fun s a rest h => step_accepts h rfl, fun s i v rest h => ?_⟩
  exact ⟨(s.setInputs rest).bufWrite i.toNat v, step_accepts h rfl, State.bufByte_bufWrite_same _ _ _,
    fun k hk => State.bufByte_bufWrite_other (s.setInputs rest) _ _ v hk, rfl⟩

theorem resetSLd_le (n : Nat) : (BitVec.ofNat 7 (Config.resetSLd n).val).toNat ≤ 64 := by
  have h := (Config.resetSLd n).isLt
  rw [BitVec.toNat_ofNat]
  omega

/-- Settles O7: the step leaves `hardReset` of the state. -/
theorem hardwareResetValues : Obligations.HardwareResetValues := fun s rest h =>
  ⟨(s.setInputs rest).hardReset, step_accepts h rfl, ⟨rfl, rfl⟩, rfl, rfl, resetSLd_le (s.resets + 1), rfl, rfl, rfl,
    rfl⟩

/-- A command word waiting to be cut is accepted and its operation abandoned. -/
theorem acceptCut_next {w : CommandWord} {i : Instr} {k : Nat} {s u : State} (hd : decode w = .ok i)
    (h : exec i s = .next u) : acceptCut w k s = .next (s.cutAfter u k) := by
  rw [acceptCut, acceptCommand_decoded hd, h]

/-- An abandoned operation leaves a beginning of its actions in the trace (R250, log 14). -/
theorem State.cutAfter_trace {s u : State} {es : List LineEvent} (h : u.trace = s.trace ++ es) (k : Nat) :
    (s.cutAfter u k).trace = s.trace ++ es.take k := by
  have : (s.cutAfter u k).trace = s.trace ++ (u.trace.drop s.trace.length).take k := rfl
  rw [this, h, List.drop_left]

/-- Settles O8: the cut keeps a beginning of what `exec_traceGrows` says was added. -/
theorem resetAbandonsOperation : Obligations.ResetAbandonsOperation := by
  refine fun s w k rest i u h => ⟨fun ho hd hu => ?_, step_settles h rfl⟩
  obtain ⟨es, hes⟩ : s.trace <+: u.trace := exec_traceGrows (s := s.setInputs rest) hu
  refine ⟨(s.setInputs rest).cutAfter u k, ?_, ⟨rfl, rfl⟩, rfl, rfl, rfl, es, hes.symm,
    State.cutAfter_trace (s := s.setInputs rest) hes.symm k⟩
  exact (step_accepts h (by rw [ho, Bool.and_false])).trans (acceptCut_next hd hu)

/-- Settles O9: hardware reset leaves the iterator halted. -/
theorem searchBeforeInitYieldsNothing : Obligations.SearchBeforeInitYieldsNothing := fun _ =>
  ⟨_, exec_searchNext_ended rfl, show withCode (withFound 0x00 false) okCode = 0x00 by decide, rfl, rfl, rfl⟩

/-- Settles O13: the update with byte 7 gives 0 exactly when it is the checksum of the bytes before it (R104). -/
theorem addressValidIffChecksumZero : Obligations.AddressValidIffChecksumZero := by
  refine ⟨fun a => ?_, by decide +kernel⟩
  rw [addressValid_iff, addrBytes_eight, crc8_concat, crc8Byte_eq_zero_iff]

/-! ## `last_zero` (R166) -/

/-- `last_zero` after `n` rounds: one of them, in which the 0-branch was taken, or 0. -/
def Candidate.LastZeroOk (c : Candidate) (n : Nat) : Prop :=
  c.lastZero ≤ n ∧ (0 < c.lastZero → c.a.getLsbD (c.lastZero - 1) = false)

theorem Candidate.LastZeroOk.round {c : Candidate} {n : Nat} (h : c.LastZeroOk n) (hn : n < 64) (i k d : Bool) :
    Candidate.LastZeroOk { a := setBit c.a n d, lastZero := roundLastZero c.lastZero (n + 1) i k d } (n + 1) := by
  obtain ⟨hle, hz⟩ := h
  simp only [LastZeroOk, roundLastZero]
  split
  · rename_i hd
    simp only [Bool.and_eq_true, Bool.not_eq_true'] at hd
    exact ⟨Nat.le_refl _, fun _ => (getLsbD_setBit_self _ _ _ hn).trans hd.2⟩
  · refine ⟨by omega, fun hpos => ?_⟩
    rw [getLsbD_setBit_of_ne _ _ _ _ (by omega)]
    exact hz hpos

section
variable {α : Type}

/-- Of `p` nothing is said. -/
theorem spec_any (p : Proc α) : Spec (fun _ => True) p (fun _ _ => True) fun _ _ => True := fun s _ => by
  cases p s <;> trivial

/-- `p` ends, if at all, with a result of which `Q` holds, whatever the states. -/
abbrev Yields (p : Proc α) (Q : α → Prop) : Prop := Spec (fun _ => True) p (fun a _ => Q a) fun _ _ => True

theorem Yields.pure {Q : α → Prop} {a : α} (h : Q a) : Yields (Proc.pure a) Q := fun _ _ => h

end

theorem searchRound_lastZero {c : Candidate} {n : Nat} (h : c.LastZeroOk n) (hn : n < 64) (ld : Nat) (prev : Address) :
    Yields (searchRound ld prev c (n + 1)) fun c' => c'.LastZeroOk (n + 1) := by
  refine spec_andThen (spec_any _) fun i => spec_andThen (spec_any _) fun k => ?_
  split
  · exact fun _ _ => trivial
  · exact spec_andThen (spec_any _) fun _ => Yields.pure (h.round hn _ _ _)

theorem searchRounds_lastZero (ld : Nat) (prev : Address) (n : Nat) (hn : n ≤ 64) :
    Yields (fold (searchRound ld prev) { a := 0, lastZero := 0 } (List.range' 1 n)) fun c => c.LastZeroOk n := by
  induction n with
  | zero => exact .pure ⟨Nat.le_refl 0, fun h => absurd h (Nat.lt_irrefl 0)⟩
  | succ n ih =>
    rw [List.range'_concat, fold_append, Nat.one_mul, Nat.add_comm 1 n]
    refine spec_andThen (ih (by omega)) fun c s hc => ?_
    exact spec_andThen (searchRound_lastZero hc (by omega) ld prev) (fun c' t ht => ht)
      s trivial

/-- A pass that ends with a candidate leaves its `last_zero` at a round in which the 0-branch was taken, or 0. -/
theorem searchPass_lastZero {ld : Nat} {prev : Address} {alarm : Bool} {s t : State} {c : Candidate}
    (h : searchPass ld prev alarm s = .done c t) : c.LastZeroOk 64 := by
  have hpass : Yields (searchPass ld prev alarm) fun c => c.LastZeroOk 64 := by
    refine spec_andThen (spec_any _) fun _ => spec_andThen (searchRounds_lastZero ld prev 64 (Nat.le_refl _)) fun c => ?_
    intro s hc
    exact spec_andThen (spec_any (checkAddress c.a)) (fun _ => Yields.pure (Q := (Candidate.LastZeroOk · 64)) hc) s trivial
  exact spec_done hpass trivial h

/-! ## What `SEARCH_NEXT` can do (R172, R202) -/

/-- `SEARCH_NEXT` does nothing to an ended search; otherwise its pass is committed and yielded, or halts the iterator. -/
theorem exec_searchNext_cases {s t : State} (h : exec .searchNext s = .next t) :
    (s.sHalt || s.searchComplete) = true ∧ t = ((s.setFound false).setOe false).setCode okCode ∨
    (∃ c u, (s.sHalt || s.searchComplete) = false ∧
      searchPass s.steerPosition s.sAddr s.sAlarm (s.setFound false) = .done c u ∧ ResetRun (s.setFound false) u ∧
      t = endOperation (.done () (((u.commitPass c).setAddr c.a).setFound true))) ∨
    (∃ e u, (s.sHalt || s.searchComplete) = false ∧
      searchPass s.steerPosition s.sAddr s.sAlarm (s.setFound false) = .raised e u ∧ ResetRun (s.setFound false) u ∧
      t = endOperation (.raised e (u.setHalt true))) := by
  cases hs : s.sHalt || s.searchComplete with
  | true => exact .inl ⟨rfl, (Host.Outcome.next.inj ((exec_searchNext_ended hs).symm.trans h)).symm⟩
  | false =>
    obtain ⟨-, rfl⟩ := exec_next h
    have hb : bodyOf .searchNext s = nextPassBody s.sAlarm s := searchNextBody_runs hs
    rw [hb]
    rcases nextPassBody_cases s.sAlarm s with ⟨c, u, hp, hu, -, he⟩ | ⟨e, u, hp, hu, he⟩ <;> rw [he]
    · exact .inr (.inl ⟨c, u, rfl, hp, hu, rfl⟩)
    · exact .inr (.inr ⟨e, u, rfl, hp, hu, rfl⟩)

/-- After a pass that halts the iterator `FOUND` is 0, as it was cleared first. -/
theorem found_of_raised {s u : State} (hu : ResetRun (s.setFound false) u) (e : ErrorKind) :
    statusFound (endOperation (.raised e (u.setHalt true))).status = false :=
  (endOperation_registerFrame _).found.trans (hu.registerFrame.found.trans (statusFound_withFound _ _))

theorem Candidate.LastZeroOk.toNat {c : Candidate} (h : c.LastZeroOk 64) :
    (BitVec.ofNat 7 c.lastZero).toNat = c.lastZero := by
  have := h.1
  rw [BitVec.toNat_ofNat]
  omega

/-- Settles O35: only a pass that ended with a candidate sets `FOUND`. -/
theorem foundAddressIsValid : Obligations.FoundAddressIsValid := by
  intro s t h hf
  rcases exec_searchNext_cases h with ⟨-, rfl⟩ | ⟨c, u, -, hp, -, rfl⟩ | ⟨e, u, -, -, hu, rfl⟩
  · simp at hf
  · have hz := searchPass_lastZero hp
    exact ⟨endOperation_code _, rfl, searchPass_done_valid hp, rfl, hz.toNat.trans_le hz.1⟩
  · rw [found_of_raised hu] at hf
    cases hf

/-! ## The invariant (R38) -/

/-- The part of the invariant that speaks of the Search State, `FOUND` and `STATUS[7:5]`. -/
structure State.SearchInv (s : State) : Prop where
  ld_le : s.sLd.toNat ≤ 64
  status_reserved : statusReserved s.status = 0
  found_valid : statusFound s.status = true → addressValid s.sAddr = true ∧ s.sFirst = false
  enum_valid : s.sHalt = false → s.sFirst = false → addressValid s.sAddr = true
  steer_zero : s.sHalt = false → s.sFirst = false → 0 < s.sLd.toNat → s.sAddr.getLsbD (s.sLd.toNat - 1) = false

theorem State.Inv.searchInv {s : State} (h : s.Inv) : s.SearchInv :=
  ⟨h.ld_le, h.status_reserved, h.found_valid, h.enum_valid, h.steer_zero⟩

theorem State.SearchInv.of_frame {s t : State} (h : s.SearchInv) (hf : SearchFrame s t) : t.SearchInv := by
  constructor
  · rw [hf.sLd]
    exact h.ld_le
  · rw [hf.reserved]
    exact h.status_reserved
  · rw [hf.found, hf.sAddr, hf.sFirst]
    exact h.found_valid
  · rw [hf.sHalt, hf.sFirst, hf.sAddr]
    exact h.enum_valid
  · rw [hf.sHalt, hf.sFirst, hf.sLd, hf.sAddr]
    exact h.steer_zero

/-- `FOUND <- 0` asks less of the Search State. -/
theorem State.SearchInv.setFound_false {s : State} (h : s.SearchInv) : (s.setFound false).SearchInv :=
  ⟨h.ld_le, (statusReserved_withFound _ _).trans h.status_reserved, fun hf => by simp at hf, h.enum_valid,
    h.steer_zero⟩

/-- A committed pass starts from a valid address whose bit at the steering position is 0 (R166, R169, R170). -/
theorem State.SearchInv.committed {u : State} {c : Candidate} (hr : statusReserved u.status = 0)
    (hv : addressValid c.a = true) (hz : c.LastZeroOk 64) :
    (((u.commitPass c).setAddr c.a).setFound true).SearchInv := by
  have hld : ((u.commitPass c).setAddr c.a).sLd.toNat = c.lastZero := hz.toNat
  refine ⟨hld.trans_le hz.1, (statusReserved_withFound _ _).trans hr, fun _ => ⟨hv, rfl⟩, fun _ _ => hv, fun _ _ h0 => ?_⟩
  show c.a.getLsbD (((u.commitPass c).setAddr c.a).sLd.toNat - 1) = false
  rw [hld]
  exact hz.2 (hld ▸ h0)

/-- A halted iterator asks nothing of the Search State but its range, as `FOUND` is 0. -/
theorem State.SearchInv.setHalt_true {s : State} (h : s.SearchInv) : (s.setHalt true).SearchInv :=
  ⟨h.ld_le, h.status_reserved, h.found_valid, nofun, nofun⟩

theorem searchInit_searchInv {s : State} (h : s.SearchInv) (alarm : Bool) :
    ((s.searchInit alarm).setFound false).SearchInv :=
  ⟨Nat.zero_le _, (statusReserved_withFound _ _).trans h.status_reserved, fun hf => by simp at hf,
    nofun, nofun⟩

theorem exec_searchInv {i : Instr} {s t : State} (hs : s.SearchInv) (h : exec i s = .next t) : t.SearchInv := by
  by_cases hi : ∃ alarm, i = .searchInit alarm
  · obtain ⟨alarm, rfl⟩ := hi
    obtain ⟨-, rfl⟩ := exec_next h
    exact (searchInit_searchInv hs alarm).of_frame
      (endOperation_registerFrame (bodyOf (.searchInit alarm) s)).toSearchFrame
  by_cases hn : i = .searchNext
  · subst hn
    rcases exec_searchNext_cases h with ⟨-, rfl⟩ | ⟨c, u, -, hp, hu, rfl⟩ | ⟨e, u, -, -, hu, rfl⟩
    · exact hs.setFound_false.of_frame (endOperation_registerFrame (.done () (s.setFound false))).toSearchFrame
    · have hr := hu.registerFrame.reserved.trans hs.setFound_false.status_reserved
      exact (State.SearchInv.committed hr (searchPass_done_valid hp) (searchPass_lastZero hp)).of_frame
        (endOperation_registerFrame (.done () _)).toSearchFrame
    · exact (hs.setFound_false.of_frame hu.registerFrame.toSearchFrame).setHalt_true.of_frame
        (endOperation_registerFrame (.raised e _)).toSearchFrame
  · exact hs.of_frame (exec_outside_search (fun alarm h => hi ⟨alarm, h⟩) hn h).1

/-- Every write of a byte of a block read keeps the canonical form of `BUF` (R50). -/
theorem keeps_wf_readBlock {n : Nat} (hn : n ≤ 255) : Keeps (fun s t => s.buf.wf → t.buf.wf) (readBlock n) := by
  refine keeps_forEach (fun _ h => h) (fun _ _ _ h1 h2 h => h2 (h1 h)) fun k hk s hs => ?_
  rw [List.mem_range] at hk
  rcases readBufByte_cases k s with ⟨v, u, hu, hr⟩ | ⟨e, u, hu, hr⟩ <;> rw [hr] <;>
    have hb := hu.toReset.registerFrame.buf
  · exact Memory.wf_write u.buf k v (hb ▸ hs) (by omega)
  · exact (show u.buf.wf from hb ▸ hs)

theorem exec_buf_wf {i : Instr} {s t : State} (hs : s.buf.wf) (h : exec i s = .next t) : t.buf.wf := by
  obtain ⟨hwf, ht⟩ := exec_next h
  have hend : t.buf = (bodyOf i s).state.buf := ht ▸ (endOperation_registerFrame _).buf
  by_cases hi : ∃ alarm, i = .searchInit alarm
  · obtain ⟨alarm, rfl⟩ := hi
    rwa [hend]
  by_cases hn : i = .searchNext
  · subst hn
    rcases exec_searchNext_cases h with ⟨-, rfl⟩ | ⟨c, u, -, -, hu, rfl⟩ | ⟨e, u, -, -, hu, rfl⟩
    · exact hs
    all_goals
      rw [(endOperation_registerFrame _).buf]
      exact (show u.buf.wf from hu.registerFrame.buf ▸ hs)
  rcases (exec_outside_search (fun alarm h => hi ⟨alarm, h⟩) hn h).2 with ⟨n, rfl⟩ | hb
  · rw [hend]
    exact keeps_wf_readBlock (of_decide_eq_true hwf) s hs
  · rwa [hb]

theorem exec_code_ne_seven {i : Instr} {s t : State} (h : exec i s = .next t) : statusCode t.status ≠ 7 := by
  obtain ⟨-, rfl⟩ := exec_next h
  rw [endOperation_code]
  cases bodyOf i s with
  | done a u => exact show okCode ≠ 7 by decide
  | raised e u => exact e.code_ne_seven

theorem EndsInOutputFault.exists_mem {es : List LineEvent} (h : EndsInOutputFault es) :
    ∃ e ∈ es, e.isOutputFault = true := by
  rcases h with h | h
  · exact ⟨_, List.mem_of_getLast? h, rfl⟩
  · exact ⟨_, List.mem_of_getLast? h, rfl⟩

/-- A line that is not released after an operation was left so by a fault of this operation or an earlier one (R221). -/
theorem exec_fault_of_not_released {i : Instr} {s t : State} (hoe : s.oe = false)
    (hlow : s.outputLow = true → ∃ e ∈ s.trace, e.isOutputFault = true) (h : exec i s = .next t) (ht : ¬t.Released) :
    ∃ e ∈ t.trace, e.isOutputFault = true := by
  cases hl : s.outputLow with
  | true =>
    obtain ⟨e, he, hf⟩ := hlow hl
    exact ⟨e, (exec_traceGrows h).subset he, hf⟩
  | false =>
    obtain ⟨e, he, hf⟩ := (exec_not_released h ⟨hoe, hl⟩ ht).2.exists_mem
    exact ⟨e, List.mem_of_mem_drop he, hf⟩

/-- An operation taken with `OE = 0` keeps the invariant. -/
theorem exec_inv {i : Instr} {s t : State} (hs : s.Inv) (hoe : s.oe = false) (h : exec i s = .next t) : t.Inv := by
  obtain ⟨hld, hres, hfound, henum, hsteer⟩ := exec_searchInv hs.searchInv h
  have hfault := exec_fault_of_not_released hoe hs.driven_after_fault h
  exact ⟨hld, hres, exec_code_ne_seven h, exec_buf_wf hs.buf_wf h, hfound, henum, hsteer,
    fun hl => hfault fun hr => absurd (hl.symm.trans hr.2) (by decide),
    fun ho => hfault fun hr => absurd (ho.symm.trans hr.1) (by decide), exec_oe h hoe⟩

theorem State.Inv.setInputs {s : State} (h : s.Inv) (is : List HostInput) : (s.setInputs is).Inv :=
  ⟨h.ld_le, h.status_reserved, h.status_code, h.buf_wf, h.found_valid, h.enum_valid, h.steer_zero,
    h.driven_after_fault, h.oe_set_after_fault, h.oe_after_fault⟩

theorem State.Inv.setAddr {s : State} (h : s.Inv) (a : Address) : (s.setAddr a).Inv :=
  ⟨h.ld_le, h.status_reserved, h.status_code, h.buf_wf, h.found_valid, h.enum_valid, h.steer_zero,
    h.driven_after_fault, h.oe_set_after_fault, h.oe_after_fault⟩

theorem State.Inv.bufWrite {s : State} (h : s.Inv) {i : Nat} (hi : i < 256) (v : Byte) : (s.bufWrite i v).Inv :=
  ⟨h.ld_le, h.status_reserved, h.status_code, Memory.wf_write _ _ _ h.buf_wf hi, h.found_valid, h.enum_valid,
    h.steer_zero, h.driven_after_fault, h.oe_set_after_fault, h.oe_after_fault⟩

theorem State.Inv.setOe_false {s : State} (h : s.Inv) : (s.setOe false).Inv :=
  ⟨h.ld_le, h.status_reserved, h.status_code, h.buf_wf, h.found_valid, h.enum_valid, h.steer_zero,
    h.driven_after_fault, nofun, fun _ => rfl⟩

theorem State.Inv.platformRecovers {s : State} (h : s.Inv) : s.platformRecovers.Inv :=
  ⟨h.ld_le, h.status_reserved, h.status_code, h.buf_wf, h.found_valid, h.enum_valid, h.steer_zero,
    nofun, nofun, fun _ => rfl⟩

/-- The reset values of R37 meet the invariant. -/
theorem inv_of_reset_values {s : State} (n : Nat) (hld : s.sLd = BitVec.ofNat 7 (Config.resetSLd n).val)
    (hst : s.status = 0x00) (hbuf : s.buf = []) (hh : s.sHalt = true) (hr : s.Released) : s.Inv := by
  refine ⟨hld ▸ resetSLd_le n, by rw [hst]; decide, by rw [hst]; decide, ?_, fun hf => ?_, fun h => ?_, fun h => ?_,
    fun hl => ?_, fun ho => ?_, fun _ => hr.1⟩
  · rw [hbuf]
    exact ⟨List.Pairwise.nil, fun c hc => absurd hc List.not_mem_nil⟩
  · rw [hst] at hf
    exact absurd hf (by decide)
  · rw [hh] at h
    cases h
  · rw [hh] at h
    cases h
  · rw [hr.2] at hl
    cases hl
  · rw [hr.1] at ho
    cases ho

theorem hardReset_inv (s : State) : s.hardReset.Inv := inv_of_reset_values (s.resets + 1) rfl rfl rfl rfl ⟨rfl, rfl⟩

/-- Settles O11: both are states with the reset values. -/
theorem resetMeetsInvariant : Obligations.ResetMeetsInvariant :=
  ⟨inv_of_reset_values 0 rfl rfl rfl rfl ⟨rfl, rfl⟩, hardReset_inv⟩

/-- Settles O10, by the cases of a step: a command keeps the invariant as `exec_inv` says, a hardware reset, within an
operation or not, establishes it, and the other inputs write one register. -/
theorem stepKeepsInvariant : Obligations.StepKeepsInvariant := by
  intro s t hs h
  rcases step_cases h with ⟨-, rfl⟩ | ⟨-, rfl⟩ | ⟨w, rest, i, -, ho, -, he⟩ | ⟨a, rest, -, rfl⟩ | ⟨i, v, rest, -, rfl⟩ |
    ⟨rest, -, rfl⟩ | ⟨w, k, rest, i, u, -, -, -, -, rfl⟩ | ⟨rest, -, rfl⟩
  · exact hs
  · exact hs.setOe_false
  · exact exec_inv (hs.setInputs rest) ho he
  · exact (hs.setInputs rest).setAddr a
  · exact (hs.setInputs rest).bufWrite i.isLt v
  · exact hardReset_inv _
  · exact hardReset_inv _
  · exact (hs.setInputs rest).platformRecovers

end Sys2Proof.Machine
end

section
/-! PROOFS of the statements of spec/10_state.md about the simulated line: rules for what a procedure whose record is that
line's ends with, and the device that SELECT leaves participating (O39). -/

namespace Sys2Proof.Machine
open Proc

/-! ## Records on the simulated line (spec/95 section 0, log 17) -/

theorem SimLine.run_append {l m : SimLine} {es fs : List LineEvent} (h : l.run (es ++ fs) = some m) :
    ∃ k, l.run es = some k ∧ k.run fs = some m := by
  induction es generalizing l with
  | nil => exact ⟨l, rfl, h⟩
  | cons e es ih =>
    simp only [List.cons_append, SimLine.run] at h ⊢
    cases hl : l.act e with
    | none =>
      rw [hl] at h
      cases h
    | some l' =>
      rw [hl] at h
      exact ih h

theorem SimLine.run_singleton {l m : SimLine} {e : LineEvent} (h : l.run [e] = some m) : l.act e = some m := by
  simp only [SimLine.run] at h
  cases hl : l.act e with
  | none =>
    rw [hl] at h
    cases h
  | some l' =>
    rw [hl] at h
    exact h

theorem State.newEvents_of_added {s t : State} {es : List LineEvent} (h : t.trace = s.trace ++ es) :
    s.newEvents t = es := by
  rw [State.newEvents, h, List.drop_left]

@[simp] theorem State.newEvents_self (s : State) : s.newEvents s = [] := State.newEvents_of_added (by simp)

theorem State.newEvents_append {s t u : State} (h1 : TraceGrows s t) (h2 : TraceGrows t u) :
    s.newEvents u = s.newEvents t ++ t.newEvents u := by
  obtain ⟨es, hes⟩ := h1
  obtain ⟨fs, hfs⟩ := h2
  rw [State.newEvents_of_added hes.symm, State.newEvents_of_added hfs.symm]
  exact State.newEvents_of_added (by rw [← hfs, ← hes, List.append_assoc])

theorem SlotProc.traceGrows {α : Type} {p : Proc α} (hp : SlotProc p) : Keeps TraceGrows p := by
  induction hp with
  | writeBit b => exact keeps_traceGrows_of_lineRun (keeps_writeBit b)
  | readBit => exact keeps_traceGrows_of_lineRun keeps_readBit
  | reset => exact keeps_traceGrows_of_resetRun keeps_resetSequence
  | pure a => exact keeps_pure TraceGrows.refl a
  | raise _ => exact keeps_raise TraceGrows.refl _
  | andThen _ _ ihp ihf => exact keeps_andThen TraceGrows.trans ihp ihf

/-- If what `p` records is what the line `l` shows, then `p` ends with a result, and `Q` holds of it and of the line as it
then is. -/
def OnLine {α : Type} (l : SimLine) (p : Proc α) (Q : α → SimLine → Prop) : Prop :=
  ∀ (s : State) (m : SimLine), l.run (s.newEvents (p s).state) = some m → ∃ a t, p s = .done a t ∧ Q a m

section
variable {α β : Type} {l : SimLine} {Q : α → SimLine → Prop} {R : β → SimLine → Prop}

theorem OnLine.mono {Q' : α → SimLine → Prop} {p : Proc α} (h : OnLine l p Q) (hq : ∀ a m, Q a m → Q' a m) :
    OnLine l p Q' := fun s m hr =>
  have ⟨a, t, hp, ha⟩ := h s m hr
  ⟨a, t, hp, hq a m ha⟩

theorem OnLine.pure {a : α} (h : Q a l) : OnLine l (Proc.pure a) Q := fun s m hr => by
  rw [pure_apply, Res.state_done, State.newEvents_self] at hr
  obtain rfl := Option.some.inj hr
  exact ⟨a, s, rfl, h⟩

theorem OnLine.andThen {p : Proc α} {f : α → Proc β} (hp : Keeps TraceGrows p) (hf : ∀ a, Keeps TraceGrows (f a))
    (h : OnLine l p fun a m => OnLine m (f a) R) : OnLine l (p.andThen f) R := by
  intro s m hrun
  have hgrow := hp s
  cases hr : p s with
  | raised e t =>
    rw [andThen_raised hr] at hrun
    obtain ⟨a, t', hd, -⟩ := h s m (by rwa [hr])
    rw [hr] at hd
    cases hd
  | done a t =>
    rw [hr] at hgrow
    rw [andThen_done hr] at hrun ⊢
    rw [State.newEvents_append hgrow (hf a t)] at hrun
    obtain ⟨k, hk, hm⟩ := SimLine.run_append hrun
    obtain ⟨a', t', hd, ha⟩ := h s k (by rwa [hr])
    rw [hr] at hd
    cases hd
    exact ha t m hm

/-- The same for procedures made of slots and Resets. -/
theorem OnLine.slots {p : Proc α} {f : α → Proc β} (hp : SlotProc p) (hf : ∀ a, SlotProc (f a))
    (h : OnLine l p fun a m => OnLine m (f a) R) : OnLine l (p.andThen f) R :=
  .andThen hp.traceGrows (fun a => (hf a).traceGrows) h

/-- A loop over `a..a+n-1` of which pass `k` leads from `I k` to `I (k+1)`. -/
theorem OnLine.fold_range' {I : Nat → β → SimLine → Prop} {f : β → Nat → Proc β} {a n : Nat}
    (hp : ∀ b x, SlotProc (f b x)) (hf : ∀ k < n, ∀ b l, I k b l → OnLine l (f b (a + k)) (I (k + 1))) {b : β}
    (h0 : I 0 b l) : OnLine l (Proc.fold f b (List.range' a n)) (I n) := by
  induction n with
  | zero => exact .pure h0
  | succ n ih =>
    rw [List.range'_concat, fold_append, Nat.one_mul]
    refine .slots (.fold hp _ _) (fun b' => .fold hp _ _) ((ih fun k hk => hf k (by omega)).mono fun b' m hm => ?_)
    exact .slots (hp _ _) (fun c => .pure c) ((hf n (Nat.lt_succ_self n) b' m hm).mono fun c m' hm' => .pure hm')

end

/-! ## Slots and Resets on the simulated line -/

/-- No action fails on the simulated line. -/
theorem SimLine.run_failed {es : List LineEvent} {a : LineAction} (h : es.getLast? = some (.failed a)) (l m : SimLine) :
    l.run es ≠ some m := by
  intro hr
  obtain ⟨fs, rfl⟩ := List.getLast?_eq_some_iff.1 h
  obtain ⟨k, -, hk⟩ := SimLine.run_append hr
  cases hk

theorem SimLine.run_writeSlot (l : SimLine) (b : Bool) : l.run (writeSlot b) = some (l.receiveBit b) := by
  cases b <;> rfl

theorem onLine_writeBit {l : SimLine} {Q : Unit → SimLine → Prop} {b : Bool} (h : Q () (l.receiveBit b)) :
    OnLine l (writeBit b) Q := by
  intro s m hr
  rcases writeBit_cases b s with ⟨u, hw, -, ht⟩ | ⟨es, u, hw, ht, he⟩ <;>
    simp only [hw, Res.state_done, Res.state_raised, State.newEvents_of_added ht] at hr
  · rw [SimLine.run_writeSlot] at hr
    obtain rfl := Option.some.inj hr
    exact ⟨(), u, hw, h⟩
  · rcases he with he | he
    · exact absurd hr (SimLine.run_failed he l m)
    · exact absurd hr (SimLine.run_failed he l m)

theorem SimLine.run_readSlot {l m : SimLine} {level : Bool} (h : l.run (readSlot level) = some m) :
    ({ l with pending := .none } : SimLine).answerBit level = some m := by
  obtain ⟨k, hk, hm⟩ := SimLine.run_append (es := [.driveLow, .delay .rdl, .release, .delay .rds, .sample level]) h
  obtain ⟨k', hk', hs⟩ := SimLine.run_append (es := [.driveLow, .delay .rdl, .release, .delay .rds]) hk
  obtain rfl := Option.some.inj hm
  obtain rfl := Option.some.inj hk'
  exact SimLine.run_singleton hs

theorem onLine_readBit {l : SimLine} {Q : Bool → SimLine → Prop}
    (h : ∀ level m, ({ l with pending := .none } : SimLine).answerBit level = some m → Q level m) :
    OnLine l readBit Q := by
  intro s m hr
  rcases readBit_cases s with ⟨level, u, hw, -, ht⟩ | ⟨es, a, u, hw, ht, he, -⟩ <;>
    simp only [hw, Res.state_done, Res.state_raised, State.newEvents_of_added ht] at hr
  · exact ⟨level, u, hw, h level m (SimLine.run_readSlot hr)⟩
  · exact absurd hr (SimLine.run_failed he l m)

/-- `WaitHigh` sees the idle line high at once (R111). -/
theorem onLine_waitHigh {l : SimLine} (hl : l.pending = .none) : OnLine l waitHigh fun _ m => m = l := by
  intro s m hr
  rw [show waitHigh = waitHighUpTo (Config.extraSamples + 1) from rfl, waitHighUpTo] at hr ⊢
  cases ha : s.answer 0 with
  | fails o =>
    rw [andThen_raised (sample_fails ha)] at hr
    exact absurd hr (SimLine.run_failed (a := .sample) (by rw [State.newEvents_of_added rfl]; rfl) l m)
  | works x =>
    rw [andThen_done (sample_works ha)] at hr ⊢
    cases hx : s.lineLevel x with
    | true =>
      rw [hx] at hr
      rw [State.newEvents_of_added (es := [.sample true]) rfl] at hr
      simp only [SimLine.run, SimLine.act, hl] at hr
      exact ⟨(), _, rfl, (Option.some.inj hr).symm⟩
    | false =>
      rw [hx] at hr
      have hgrow := keeps_traceGrows_of_lineRun (LineRun.andThen (keeps_delay .whp)
        fun _ => keeps_waitHighUpTo Config.extraSamples) ((s.consume 1).log (.sample false))
      obtain ⟨fs, hfs⟩ := hgrow
      rw [State.newEvents_of_added (es := .sample false :: fs) (by rw [List.append_cons]; exact hfs.symm)] at hr
      simp [SimLine.run, SimLine.act, hl] at hr

/-- The drive and presence steps of a Reset that raise end with the action that failed. -/
theorem resetPulse_raised {s u : State} {e : ErrorKind} (h : resetPulse s = .raised e u) :
    ∃ a, (s.newEvents u).getLast? = some (.failed a) := by
  cases h0 : s.answer 0 with
  | fails o =>
    rw [resetPulse, andThen_raised (driveLow_fails h0)] at h
    cases h
    exact ⟨.driveLow, by rw [State.newEvents_of_added rfl]; rfl⟩
  | works l0 =>
    have hw := s.works_zero.succ h0
    cases h1 : s.answer 1 with
    | fails o =>
      rw [resetPulse, andThen_done (driveLow_works h0), andThen_done (delay_apply _ _),
        andThen_raised (release_fails (o := o) (by simpa using h1))] at h
      cases h
      exact ⟨.release, by rw [State.newEvents_of_added (by simp [State.log]; rfl)]; rfl⟩
    | works l1 =>
      have hw := hw.succ h1
      cases h2 : s.answer 2 with
      | fails o =>
        rw [resetPulse, andThen_done (driveLow_works h0), andThen_done (delay_apply _ _),
          andThen_done (release_works (l := l1) (by simpa using h1)), andThen_done (delay_apply _ _),
          andThen_raised (sample_fails (o := o) (by simpa using h2))] at h
        cases h
        exact ⟨.sample, by rw [State.newEvents_of_added (by simp [State.log]; rfl)]; rfl⟩
      | works l2 =>
        rw [resetPulse_works (hw.succ h2)] at h
        cases h

/-- The line after a Reset: every device participates and expects a command byte. -/
def SimLine.afterReset (l : SimLine) : SimLine :=
  { l with active := l.population, phase := .command [], pending := .none }

theorem SimLine.run_resetPulseEvents {l m : SimLine} {level : Bool} (h : l.run (resetPulseEvents level) = some m) :
    level = l.population.isEmpty ∧ m = l.afterReset := by
  simp only [resetPulseEvents, SimLine.run, SimLine.act] at h
  by_cases hl : level = l.population.isEmpty
  · rw [if_pos hl] at h
    exact ⟨hl, (Option.some.inj h).symm⟩
  · rw [if_neg hl] at h
    cases h

theorem onLine_resetPulse (l : SimLine) :
    OnLine l resetPulse fun p m => p = !l.population.isEmpty ∧ m = l.afterReset := by
  intro s m hr
  rcases resetPulse_cases s with ⟨level, u, hw, -, -, ht⟩ | ⟨es, u, hw, -, ht, -, -⟩
  · rw [hw, Res.state_done, State.newEvents_of_added ht] at hr
    obtain ⟨rfl, rfl⟩ := SimLine.run_resetPulseEvents hr
    exact ⟨_, u, hw, rfl, rfl⟩
  · obtain ⟨a, ha⟩ := resetPulse_raised hw
    rw [hw] at hr
    exact absurd hr (SimLine.run_failed ha l m)

theorem onLine_resetSequence {l : SimLine} (hl : l.pending = .none) :
    OnLine l resetSequence fun p m => p = !l.population.isEmpty ∧ m = l.afterReset := by
  refine .andThen (keeps_traceGrows_of_lineRun (keeps_waitHighUpTo _))
    (fun _ => keeps_traceGrows_of_resetRun keeps_resetPulse) ((onLine_waitHigh hl).mono ?_)
  rintro - m rfl
  exact onLine_resetPulse m

/-! ## Bytes and commands on the simulated line -/

theorem onLine_writeBits (bits : List Bool) (l : SimLine) :
    OnLine l (forEach writeBit bits) fun _ m => m = bits.foldl SimLine.receiveBit l := by
  induction bits generalizing l with
  | nil => exact .pure rfl
  | cons b bits ih => exact .slots (.writeBit b) (fun _ => .forEach .writeBit bits) (onLine_writeBit (ih _))

/-- The slaves act on the command byte after a Reset when they have all of its bits. -/
theorem SimLine.receive_command {l : SimLine} (h : l.phase = .command []) (v : Byte) :
    (byteBits v).foldl receiveBit l = l.runCommand (byteBits v) := by
  have hv : byteBits v = [v.getLsbD 0, v.getLsbD 1, v.getLsbD 2, v.getLsbD 3, v.getLsbD 4, v.getLsbD 5, v.getLsbD 6,
    v.getLsbD 7] := rfl
  rw [hv]
  simp [receiveBit, h, runCommand]

theorem onLine_romStart {l : SimLine} (hl : l.pending = .none) (hp : l.population ≠ []) (code : Byte) :
    OnLine l (romStart code) fun _ m => m = l.afterReset.runCommand (byteBits code) := by
  refine .slots .reset (fun p => ?_) ((onLine_resetSequence hl).mono ?_)
  · cases p
    · exact .raise (by decide)
    · exact slotProc_writeByte code
  · rintro p m ⟨rfl, rfl⟩
    have : l.population.isEmpty = false := by simpa using hp
    rw [this, writeByte_eq_bits]
    refine (onLine_writeBits (byteBits code) l.afterReset).mono ?_
    rintro - m rfl
    exact SimLine.receive_command rfl code

/-! ## SELECT on the simulated line (R143) -/

/-- The addresses agree on bits `0..k-1`, the first `k` that cross the line. -/
abbrev SameBelow (k : Nat) (a b : Address) : Prop := ∀ j < k, a.getLsbD j = b.getLsbD j

theorem sameBelow_succ {k : Nat} {a b : Address} :
    SameBelow (k + 1) a b ↔ SameBelow k a b ∧ a.getLsbD k = b.getLsbD k := Nat.forall_lt_succ_right

theorem eq_of_sameBelow {a b : Address} (h : SameBelow 64 a b) : a = b := BitVec.eq_of_getLsbD_eq h

/-- A loop of loops is a loop over the rows of the inner ones. -/
theorem forEach_flatMap {ι κ : Type} (f : κ → Proc Unit) (g : ι → List κ) (xs : List ι) :
    forEach (fun x => forEach f (g x)) xs = forEach f (xs.flatMap g) := by
  induction xs with
  | nil => rfl
  | cons x xs ih =>
    rw [List.flatMap_cons, forEach_append, ← ih]
    rfl

theorem byteBits_addrByte (a : Address) (k : Nat) :
    byteBits (addrByte a k) = (List.range 8).map fun i => a.getLsbD (8 * k + i) := by
  refine List.map_congr_left fun i hi => ?_
  rw [getLsbD_addrByte, decide_eq_true (List.mem_range.1 hi), Bool.true_and]

/-- The write slots of an address, bit by bit (R143). -/
theorem writeAddress_eq_bits (a : Address) : writeAddress a = forEach writeBit ((List.range 64).map a.getLsbD) := by
  have hbits : (List.range 8).flatMap (fun k => byteBits (addrByte a k)) = (List.range 64).map a.getLsbD := by
    simp only [byteBits_addrByte]
    rfl
  rw [← hbits, ← forEach_flatMap]
  rfl

/-- After `n` bits of a Match ROM the devices that agree with them still participate. -/
theorem SimLine.receive_address {l : SimLine} (h : l.phase = .compareAddress 0) (a : Address) (n : Nat) (hn : n ≤ 64) :
    (((List.range n).map a.getLsbD).foldl receiveBit l).active = l.active.filter (fun d => SameBelow n d.addr a) ∧
    (n < 64 → (((List.range n).map a.getLsbD).foldl receiveBit l).phase = .compareAddress n) := by
  induction n with
  | zero =>
    exact ⟨(List.filter_eq_self.2 fun d _ => decide_eq_true fun j hj => absurd hj (Nat.not_lt_zero j)).symm, fun _ => h⟩
  | succ n ih =>
    obtain ⟨hact, hph⟩ := ih (by omega)
    have hph := hph (by omega)
    rw [List.range_succ, List.map_append, List.foldl_append]
    simp only [List.map_cons, List.map_nil, List.foldl_cons, List.foldl_nil, receiveBit, hph, keepBit, hact,
      List.filter_filter]
    refine ⟨List.filter_congr fun d _ => ?_, fun h63 => by rw [if_pos (by omega)]⟩
    rw [Bool.eq_iff_iff, Bool.and_eq_true, beq_iff_eq, decide_eq_true_eq, decide_eq_true_eq, sameBelow_succ, and_comm]

theorem SimLine.runCommand_matchRom (l : SimLine) :
    l.runCommand (byteBits Config.romCodes.matchRom) = { l with phase := .compareAddress 0 } := by
  rw [runCommand, if_neg (by decide), if_neg (by decide), if_neg (by decide), if_pos rfl]

theorem onLine_matchRomFrame {l : SimLine} (hl : l.pending = .none) (hp : l.population ≠ []) (a : Address) :
    OnLine l (matchRomFrame a) fun _ m => m.active = l.population.filter fun d => d.addr == a := by
  refine .slots (slotProc_romStart _) (fun _ => slotProc_writeAddress a) ((onLine_romStart hl hp _).mono ?_)
  rintro - m rfl
  rw [writeAddress_eq_bits, SimLine.runCommand_matchRom]
  refine (onLine_writeBits _ _).mono ?_
  rintro - m rfl
  rw [(SimLine.receive_address rfl a 64 (Nat.le_refl _)).1]
  refine List.filter_congr fun d _ => ?_
  rw [Bool.eq_iff_iff, decide_eq_true_eq, beq_iff_eq]
  exact ⟨eq_of_sameBelow, fun h j _ => by rw [h]⟩

/-- Settles O39: on the simulated line the Match ROM frame ends, and its 64 bits leave the devices with that address. -/
theorem selectLeavesAddressedDevice : Obligations.SelectLeavesAddressedDevice := by
  intro population s t l hp h hrun
  obtain ⟨-, rfl⟩ := exec_next h
  rw [State.newEvents, endOperation_trace] at hrun
  obtain ⟨a, u, hdone, hact⟩ := onLine_matchRomFrame (l := SimLine.start population) rfl hp s.addr s l hrun
  have hbody : bodyOf .select s = .done a u := hdone
  rw [endOperation_code, hbody]
  exact ⟨rfl, hact⟩

end Sys2Proof.Machine
end

section
/-! PROOFS of the statements of spec/10_state.md about enumerations on the simulated line: the order in which a search
meets addresses, what a pass leaves of a set of addresses, the line during a pass, and the whole enumeration (O37). -/

namespace Sys2Proof.Machine
open Proc

/-! ## The order of bit strings (R176) -/

theorem lineBefore_irrefl (a : Address) : ¬lineBefore a a := by
  rintro ⟨k, -, -, h0, h1⟩
  rw [h0] at h1
  cases h1

theorem lineBefore_trans {a b c : Address} (hab : lineBefore a b) (hbc : lineBefore b c) : lineBefore a c := by
  obtain ⟨k, hk, hlow, ha, hb⟩ := hab
  obtain ⟨m, hm, hlow', hb', hc⟩ := hbc
  rcases Nat.lt_trichotomy k m with h | rfl | h
  · exact ⟨k, hk, fun j hj => (hlow j hj).trans (hlow' j (hj.trans h)), ha, (hlow' k h).symm.trans hb⟩
  · rw [hb] at hb'
    cases hb'
  · exact ⟨m, hm, fun j hj => (hlow j (hj.trans h)).trans (hlow' j hj), (hlow m h).trans hb', hc⟩

/-- Different addresses differ first at some bit. -/
theorem exists_first_difference {a b : Address} (h : a ≠ b) :
    ∃ k < 64, SameBelow k a b ∧ a.getLsbD k ≠ b.getLsbD k := by
  by_contra hno
  push Not at hno
  refine h (eq_of_sameBelow fun j hj => ?_)
  induction j using Nat.strong_induction_on with
  | _ j ih => exact hno j hj fun i hi => ih i hi (hi.trans hj)

/-! ## What a pass leaves of the addresses it meets (R164 to R166) -/

/-- Some address of `M` that agrees with `a` below bit `j` takes the other branch there. -/
def OtherBranch (M : List Address) (a : Address) (j : Nat) : Prop :=
  ∃ q ∈ M, SameBelow j a q ∧ q.getLsbD j ≠ a.getLsbD j

/-- Bit `j` of `a` is a discrepancy of `M` resolved to 0. -/
def ZeroBranch (M : List Address) (a : Address) (j : Nat) : Prop := a.getLsbD j = false ∧ OtherBranch M a j

/-- `ld` is the last of the rounds `1..k` of `a` at which a discrepancy is resolved to 0, or 0 (R166). -/
structure LastZeroOf (M : List Address) (a : Address) (ld k : Nat) : Prop where
  le : ld ≤ k
  zero : 0 < ld → ZeroBranch M a (ld - 1)
  none_after : ∀ j < k, ld ≤ j → ¬ZeroBranch M a j

/-- `k` rounds steered by `ld` and `prev` among the addresses `M` lead to the candidate `c`. -/
structure Traced (M : List Address) (ld : Nat) (prev : Address) (c : Candidate) (k : Nat) : Prop where
  met : ∃ q ∈ M, SameBelow k c.a q
  steered : ∀ j < k, OtherBranch M c.a j → c.a.getLsbD j = discrepancyDir ld prev (j + 1)
  lastZero : LastZeroOf M c.a c.lastZero k

section
variable {M : List Address} {a p q : Address} {ld : Nat} {c : Candidate}

theorem ZeroBranch.exists_after {j : Nat} (h : ZeroBranch M a j) (hj : j < 64) : ∃ q ∈ M, lineBefore a q := by
  obtain ⟨h0, q, hq, hlow, hne⟩ := h
  exact ⟨q, hq, j, hj, hlow, h0, by simpa [h0] using hne⟩

theorem zeroBranch_of_before (hq : q ∈ M) (h : lineBefore a q) :
    ∃ j < 64, ZeroBranch M a j ∧ SameBelow j a q ∧ q.getLsbD j = true := by
  obtain ⟨j, hj, hlow, h0, h1⟩ := h
  exact ⟨j, hj, ⟨h0, q, hq, hlow, by simp [h0, h1]⟩, hlow, h1⟩

/-- With no discrepancy left at 0, no address comes after. -/
theorem LastZeroOf.not_before (h : LastZeroOf M a 0 64) (hq : q ∈ M) : ¬lineBefore a q := fun hb =>
  have ⟨j, hj, hz, _⟩ := zeroBranch_of_before hq hb
  h.none_after j hj (Nat.zero_le j) hz

/-- With one left, some address does. -/
theorem LastZeroOf.exists_after (h : LastZeroOf M a ld 64) (hpos : 0 < ld) : ∃ q ∈ M, lineBefore a q :=
  (h.zero hpos).exists_after (by have := h.le; omega)

/-- A whole pass leads to one of the addresses. -/
theorem Traced.mem (h : Traced M ld p c 64) : c.a ∈ M := by
  obtain ⟨q, hq, hs⟩ := h.met
  rwa [eq_of_sameBelow hs]

/-- After round `ld` the 0-branch is taken at every discrepancy: of the addresses that go the same way up to there, the
first in the order is met. -/
theorem Traced.first_after (h : Traced M ld p c 64) (hq : q ∈ M) (hs : SameBelow ld c.a q) (hne : q ≠ c.a) :
    lineBefore c.a q := by
  obtain ⟨k, hk, hlow, hdiff⟩ := exists_first_difference (Ne.symm hne)
  have hge : ld ≤ k := by
    by_contra hlt
    exact hdiff (hs k (by omega))
  have h0 : c.a.getLsbD k = false := by
    rw [h.steered k hk ⟨q, hq, hlow, hdiff.symm⟩, discrepancyDir, if_neg (by omega)]
    exact beq_eq_false_iff_ne.2 (by omega)
  exact ⟨k, hk, hlow, h0, by simpa [h0] using hdiff⟩

section
variable (h : Traced M ld p c 64) (hp : p ∈ M) (hld : LastZeroOf M p ld 64) (hpos : 0 < ld)
include h hp hld hpos

/-- Before round `ld` a pass goes the way of the previous address. -/
theorem Traced.same_as_previous : SameBelow (ld - 1) c.a p := by
  intro j hj
  have hle := hld.le
  induction j using Nat.strong_induction_on with
  | _ j ih =>
    by_contra hne
    refine hne ?_
    rw [h.steered j (by omega) ⟨p, hp, fun i hi => ih i hi (by omega), Ne.symm hne⟩, discrepancyDir,
      if_pos (by omega), Nat.add_sub_cancel]

/-- In round `ld` it takes the 1-branch that the previous pass left. -/
theorem Traced.takes_one : c.a.getLsbD (ld - 1) = true := by
  obtain ⟨h0, q, hq, hlow, hne⟩ := hld.zero hpos
  by_contra hc
  have hle := hld.le
  refine hc ?_
  rw [h.steered (ld - 1) (by omega) ⟨q, hq, fun j hj => (h.same_as_previous hp hld hpos j hj).trans (hlow j hj), ?_⟩,
    discrepancyDir, if_neg (by omega)]
  · exact beq_iff_eq.2 (by omega)
  · rw [Bool.not_eq_true] at hc
    rwa [hc, ← h0]

/-- So the address met comes after the previous one. -/
theorem Traced.previous_before : lineBefore p c.a :=
  ⟨ld - 1, by have := hld.le; omega, fun j hj => (h.same_as_previous hp hld hpos j hj).symm, (hld.zero hpos).1,
    h.takes_one hp hld hpos⟩

/-- And before every other address that does. -/
theorem Traced.next_after_previous (hq : q ∈ M) (hpq : lineBefore p q) (hne : q ≠ c.a) : lineBefore c.a q := by
  obtain ⟨j, hj, hz, hlow, h1⟩ := zeroBranch_of_before hq hpq
  have hsame := h.same_as_previous hp hld hpos
  have hjld : j < ld := by
    by_contra hge
    exact hld.none_after j hj (by omega) hz
  by_cases hlast : j = ld - 1
  · refine h.first_after hq (fun i hi => ?_) hne
    by_cases hi' : i = ld - 1
    · rw [hi', h.takes_one hp hld hpos, ← hlast, h1]
    · exact (hsame i (by omega)).trans (hlow i (by omega))
  · exact ⟨j, hj, fun i hi => (hsame i (by omega)).trans (hlow i hi), (hsame j (by omega)).trans hz.1, h1⟩

end

end

/-! ## One round (R163 to R166) -/

theorem sameBelow_setBit {a q : Address} {k j : Nat} (hj : j ≤ k) (d : Bool) :
    SameBelow j (setBit a k d) q ↔ SameBelow j a q :=
  forall₂_congr fun i hi => by rw [getLsbD_setBit_of_ne _ _ _ _ (by omega)]

/-- Bits from `k` on do not matter to the branches before. -/
theorem otherBranch_setBit {M : List Address} {a : Address} {k j : Nat} (hj : j < k) (d : Bool) :
    OtherBranch M (setBit a k d) j ↔ OtherBranch M a j := by
  unfold OtherBranch
  rw [getLsbD_setBit_of_ne _ _ _ _ (by omega)]
  simp only [sameBelow_setBit hj.le]

theorem zeroBranch_setBit {M : List Address} {a : Address} {k j : Nat} (hj : j < k) (d : Bool) :
    ZeroBranch M (setBit a k d) j ↔ ZeroBranch M a j := by
  unfold ZeroBranch
  rw [otherBranch_setBit hj, getLsbD_setBit_of_ne _ _ _ _ (by omega)]

/-- Round `k+1` is given the sampled bits `i` and `x` of the addresses still participating, those that agree with the
candidate below bit `k`: their AND and the AND of their complements (R163, G5). -/
structure Sampled (M : List Address) (a : Address) (k : Nat) (i x : Bool) : Prop where
  id_iff : i = true ↔ ∀ q ∈ M, SameBelow k a q → q.getLsbD k = true
  cmp_iff : x = true ↔ ∀ q ∈ M, SameBelow k a q → q.getLsbD k = false

section
variable {M : List Address} {ld k : Nat} {prev : Address} {c : Candidate} {i x : Bool}

theorem Traced.not_both (h : Traced M ld prev c k) (hs : Sampled M c.a k i x) : (i && x) = false := by
  obtain ⟨q, hq, hqs⟩ := h.met
  by_contra hb
  rw [Bool.not_eq_false, Bool.and_eq_true] at hb
  have h1 := hs.id_iff.1 hb.1 q hq hqs
  rw [hs.cmp_iff.1 hb.2 q hq hqs] at h1
  cases h1

/-- Some participating address goes the way the round takes, and one goes the other way exactly at a discrepancy. -/
theorem Traced.round_branches (h : Traced M ld prev c k) (hs : Sampled M c.a k i x) :
    (∃ q ∈ M, SameBelow k c.a q ∧ q.getLsbD k = roundDir ld prev (k + 1) i x) ∧
    ((∃ q ∈ M, SameBelow k c.a q ∧ q.getLsbD k ≠ roundDir ld prev (k + 1) i x) ↔ i = false ∧ x = false) := by
  obtain ⟨q, hq, hqs⟩ := h.met
  have hid := hs.id_iff
  have hcmp := hs.cmp_iff
  have hnb := h.not_both hs
  cases i <;> cases x
  · have h1 : ∃ q ∈ M, SameBelow k c.a q ∧ q.getLsbD k = false := by simpa using hid
    have h0 : ∃ q ∈ M, SameBelow k c.a q ∧ q.getLsbD k = true := by simpa using hcmp
    cases roundDir ld prev (k + 1) false false <;> simp only [ne_eq, Bool.not_eq_false, Bool.not_eq_true]
    · exact ⟨h1, iff_of_true h0 ⟨trivial, trivial⟩⟩
    · exact ⟨h0, iff_of_true h1 ⟨trivial, trivial⟩⟩
  · have hall := hcmp.1 rfl
    refine ⟨⟨q, hq, hqs, hall q hq hqs⟩, iff_of_false ?_ (by simp)⟩
    rintro ⟨r, hr, hrs, hne⟩
    exact hne (hall r hr hrs)
  · have hall := hid.1 rfl
    refine ⟨⟨q, hq, hqs, hall q hq hqs⟩, iff_of_false ?_ (by simp)⟩
    rintro ⟨r, hr, hrs, hne⟩
    exact hne (hall r hr hrs)
  · cases hnb

/-- The candidate after round `k+1`. -/
def Candidate.next (c : Candidate) (k : Nat) (i x dir : Bool) : Candidate :=
  { a := setBit c.a k dir, lastZero := roundLastZero c.lastZero (k + 1) i x dir }

/-- A round leads from a traced candidate to a traced candidate. -/
theorem Traced.round (h : Traced M ld prev c k) (hk : k < 64) (hs : Sampled M c.a k i x) :
    Traced M ld prev (c.next k i x (roundDir ld prev (k + 1) i x)) (k + 1) := by
  obtain ⟨⟨q, hq, hqs, hqk⟩, hother⟩ := h.round_branches hs
  have hbit : (setBit c.a k (roundDir ld prev (k + 1) i x)).getLsbD k = roundDir ld prev (k + 1) i x :=
    getLsbD_setBit_self _ _ _ hk
  have hbranch : OtherBranch M (setBit c.a k (roundDir ld prev (k + 1) i x)) k ↔ i = false ∧ x = false := by
    unfold OtherBranch
    rw [hbit, ← hother]
    simp only [sameBelow_setBit (Nat.le_refl k)]
  obtain ⟨hle, hz, hn⟩ := h.lastZero
  refine ⟨⟨q, hq, sameBelow_succ.2 ⟨(sameBelow_setBit (Nat.le_refl k) _).2 hqs, hbit.trans hqk.symm⟩⟩, fun j hj hb => ?_,
    ?_⟩
  · rcases Nat.lt_succ_iff_lt_or_eq.1 hj with hj | rfl
    · exact (getLsbD_setBit_of_ne _ _ _ _ (by omega)).trans (h.steered j hj ((otherBranch_setBit hj _).1 hb))
    · obtain ⟨rfl, rfl⟩ := hbranch.1 hb
      exact hbit
  · show LastZeroOf M (setBit c.a k _) (roundLastZero c.lastZero (k + 1) i x _) (k + 1)
    rw [roundLastZero]
    split
    · rename_i hd
      simp only [Bool.and_eq_true, Bool.not_eq_true'] at hd
      exact ⟨Nat.le_refl _, fun _ => ⟨hbit.trans hd.2, hbranch.2 hd.1⟩, fun j hj hj' => by omega⟩
    · rename_i hd
      refine ⟨by omega, fun hpos => (zeroBranch_setBit (by omega) _).2 (hz hpos), fun j hj hle' hb => ?_⟩
      rcases Nat.lt_succ_iff_lt_or_eq.1 hj with hj | rfl
      · exact hn j hj hle' ((zeroBranch_setBit hj _).1 hb)
      · obtain ⟨h0, ho⟩ := hb
        obtain ⟨rfl, rfl⟩ := hbranch.1 ho
        rw [hbit] at h0
        exact hd (by rw [h0]; rfl)

end

/-! ## A pass on the simulated line (G5, log 17) -/

/-- The devices that answer a search: all, or the alarmed ones (R145, R146). -/
def answering (alarm : Bool) (population : List Device) : List Device :=
  if alarm then population.filter Device.alarmed else population

/-- The addresses a search can meet. -/
abbrev answeringAddrs (alarm : Bool) (population : List Device) : List Address :=
  (answering alarm population).map Device.addr

/-- The line and the candidate after `k` rounds: the devices that agree with the candidate so far participate. -/
structure AfterRounds (population devices : List Device) (ld : Nat) (prev : Address) (k : Nat) (c : Candidate)
    (l : SimLine) : Prop where
  population_eq : l.population = population
  pending : l.pending = .none
  active : l.active = devices.filter fun d => SameBelow k c.a d.addr
  phase : k < 64 → l.phase = .searchId (k + 1)
  traced : Traced (devices.map Device.addr) ld prev c k

section
variable {population devices : List Device} {ld k : Nat} {prev : Address} {c : Candidate} {l : SimLine}

/-- What the participating devices answer together in a read slot. -/
theorem AfterRounds.wiredAnd_iff (h : AfterRounds population devices ld prev k c l) (f : Device → Bool) :
    l.wiredAnd f = true ↔ ∀ d ∈ devices, SameBelow k c.a d.addr → f d = true := by
  rw [SimLine.wiredAnd, h.active, List.all_eq_true]
  simp only [List.mem_filter, decide_eq_true_eq, and_imp]

theorem AfterRounds.sampled (h : AfterRounds population devices ld prev k c l) :
    Sampled (devices.map Device.addr) c.a k (l.wiredAnd fun d => d.addr.getLsbD k)
      (l.wiredAnd fun d => !d.addr.getLsbD k) where
  id_iff := by simp only [h.wiredAnd_iff, List.forall_mem_map]
  cmp_iff := by simp only [h.wiredAnd_iff, List.forall_mem_map, Bool.not_eq_true']

/-- The first slot of a round: the participating devices answer their bit. -/
theorem onLine_readId (h : l.phase = .searchId (k + 1)) :
    OnLine l readBit fun i m => i = l.wiredAnd (fun d => d.addr.getLsbD k) ∧
      m = { l with pending := .none, phase := .searchCmp (k + 1) } := by
  refine onLine_readBit fun level m hm => ?_
  simp only [SimLine.answerBit, h] at hm
  split at hm
  · rename_i hl
    exact ⟨hl, (Option.some.inj hm).symm⟩
  · cases hm

/-- The second slot: they answer its complement. -/
theorem onLine_readCmp (h : l.phase = .searchCmp (k + 1)) :
    OnLine l readBit fun x m => x = l.wiredAnd (fun d => !d.addr.getLsbD k) ∧
      m = { l with pending := .none, phase := .searchDir (k + 1) } := by
  refine onLine_readBit fun level m hm => ?_
  simp only [SimLine.answerBit, h] at hm
  split at hm
  · rename_i hl
    exact ⟨hl, (Option.some.inj hm).symm⟩
  · cases hm

/-- The third: those whose bit is the direction written stay. -/
theorem SimLine.receive_direction (h : l.phase = .searchDir (k + 1)) (d : Bool) :
    l.receiveBit d = { l.keepBit k d with phase := if k + 1 < 64 then .searchId (k + 2) else .traffic } := by
  simp only [receiveBit, h, Nat.add_sub_cancel]

theorem AfterRounds.next (h : AfterRounds population devices ld prev k c l) (hk : k < 64) (i x dir : Bool)
    (ht : Traced (devices.map Device.addr) ld prev (c.next k i x dir) (k + 1)) (pending : PendingSample)
    (hp : pending = .none) (phase : LinePhase) (hph : k + 1 < 64 → phase = .searchId (k + 2)) :
    AfterRounds population devices ld prev (k + 1) (c.next k i x dir)
      { l.keepBit k dir with phase := phase, pending := pending } where
  population_eq := h.population_eq
  pending := hp
  phase := hph
  traced := ht
  active := by
    show (l.keepBit k dir).active = _
    rw [SimLine.keepBit, h.active, List.filter_filter]
    refine List.filter_congr fun d _ => ?_
    rw [Bool.eq_iff_iff, Bool.and_eq_true, beq_iff_eq, decide_eq_true_eq, decide_eq_true_eq, sameBelow_succ,
      Candidate.next, sameBelow_setBit (Nat.le_refl k), getLsbD_setBit_self _ _ _ hk, and_comm, eq_comm (a := dir)]

/-- A round on the simulated line: the devices sample what `AfterRounds.sampled` says, and those of the direction written
stay. -/
theorem onLine_searchRound (h : AfterRounds population devices ld prev k c l) (hk : k < 64) :
    OnLine l (searchRound ld prev c (k + 1)) (AfterRounds population devices ld prev (k + 1)) := by
  rw [searchRound_eq]
  refine .slots .readBit (fun i => .andThen .readBit fun x => slotProc_roundChoice _ _ _ _ i x)
    ((onLine_readId (h.phase hk)).mono ?_)
  rintro i m ⟨hi, rfl⟩
  refine .slots .readBit (fun x => slotProc_roundChoice _ _ _ _ i x) ((onLine_readCmp rfl).mono ?_)
  rintro x m ⟨hx, rfl⟩
  have hs := h.sampled
  rw [← hi, show l.wiredAnd (fun d => !d.addr.getLsbD k) = x from hx.symm] at hs
  rw [roundChoice, if_neg (by rw [h.traced.not_both hs]; decide)]
  refine .slots (.writeBit _) (fun _ => .pure _) (onLine_writeBit (.pure ?_))
  rw [SimLine.receive_direction rfl]
  exact h.next hk i x _ (h.traced.round hk hs) _ rfl _ fun h63 => if_pos h63

theorem onLine_searchRounds (h : AfterRounds population devices ld prev 0 { a := 0, lastZero := 0 } l) :
    OnLine l (searchRounds ld prev) (AfterRounds population devices ld prev 64) :=
  .fold_range' (slotProc_searchRound ld prev)
    (fun k hk c m hm => by rw [Nat.add_comm]; exact onLine_searchRound hm hk) h

end

theorem SimLine.runCommand_search (l : SimLine) (alarm : Bool) (h : l.active = l.population) :
    l.runCommand (byteBits (if alarm then Config.romCodes.alarmSearch else Config.romCodes.searchRom)) =
      { l with phase := .searchId 1, active := answering alarm l.population } := by
  cases alarm
  · rw [if_neg (by decide), runCommand, if_pos rfl, answering, if_neg (by decide), ← h]
  · rw [if_pos rfl, runCommand, if_neg (by decide), if_pos rfl, answering, if_pos rfl, h]

theorem traced_zero {M : List Address} (h : M ≠ []) (ld : Nat) (prev : Address) :
    Traced M ld prev { a := 0, lastZero := 0 } 0 where
  met := (List.exists_mem_of_ne_nil M h).imp fun _ hq => ⟨hq, fun j hj => absurd hj (Nat.not_lt_zero j)⟩
  steered := fun j hj => absurd hj (Nat.not_lt_zero j)
  lastZero := ⟨Nat.le_refl 0, fun h => absurd h (Nat.lt_irrefl 0), fun j hj => absurd hj (Nat.not_lt_zero j)⟩

/-- A pass on the simulated line of a population of which some device answers, all addresses being valid, ends with a
candidate traced among the addresses of those that answer, and leaves the line idle. -/
theorem onLine_searchPass {l : SimLine} {alarm : Bool} (hl : l.pending = .none)
    (hne : answeringAddrs alarm l.population ≠ [])
    (hvalid : ∀ a ∈ answeringAddrs alarm l.population, addressValid a = true) (ld : Nat) (prev : Address) :
    OnLine l (searchPass ld prev alarm) fun c m =>
      Traced (answeringAddrs alarm l.population) ld prev c 64 ∧ m.population = l.population ∧ m.pending = .none := by
  have hp : l.population ≠ [] := by
    rintro hp
    rw [hp] at hne
    cases alarm <;> exact hne rfl
  refine .slots (slotProc_romStart _) (fun _ => .andThen (slotProc_searchRounds ld prev) fun c =>
    .andThen (slotProc_checkAddress c.a) fun _ => .pure c) ((onLine_romStart hl hp _).mono ?_)
  rintro - m rfl
  rw [SimLine.runCommand_search _ _ rfl]
  have hstart : AfterRounds l.population (answering alarm l.population) ld prev 0 { a := 0, lastZero := 0 }
      { l.afterReset with phase := .searchId 1, active := answering alarm l.afterReset.population } :=
    ⟨rfl, rfl, (List.filter_eq_self.2 fun d _ => decide_eq_true fun j hj => absurd hj (Nat.not_lt_zero j)).symm,
      fun _ => rfl, traced_zero hne ld prev⟩
  refine .slots (slotProc_searchRounds ld prev) (fun c => .andThen (slotProc_checkAddress c.a) fun _ => .pure c)
    ((onLine_searchRounds hstart).mono fun c m hm => ?_)
  rw [checkAddress, if_pos (hvalid _ hm.traced.mem)]
  exact .slots (.pure ()) (fun _ => .pure c) (.pure (.pure ⟨hm.traced, hm.population_eq, hm.pending⟩))

/-! ## An enumeration on the simulated line (R172 to R177) -/

theorem exec_nextSearch (s : State) : exec .searchNext s = .next s.nextSearch := by
  rw [State.nextSearch, exec_eq .searchNext s rfl]

/-- A `SEARCH_NEXT` that did not find anything yields nothing. -/
theorem yielded_of_not_found {t : State} (h : statusFound t.status = false) : t.yielded = none := by
  rw [State.yielded, if_neg fun hc => by rw [h] at hc; exact absurd hc.2 (by decide)]

theorem nextSearch_ended {s : State} (h : (s.sHalt || s.searchComplete) = true) : s.nextSearch.yielded = none := by
  refine yielded_of_not_found ?_
  rw [← Host.Outcome.next.inj ((exec_searchNext_ended h).symm.trans (exec_nextSearch s))]
  simp

/-- A `SEARCH_NEXT` of a search that has not ended, on the simulated line: its pass is committed and its address
yielded. -/
theorem nextSearch_onLine {s : State} {l m : SimLine} (hs : (s.sHalt || s.searchComplete) = false)
    (hl : l.pending = .none) (hne : answeringAddrs s.sAlarm l.population ≠ [])
    (hvalid : ∀ a ∈ answeringAddrs s.sAlarm l.population, addressValid a = true)
    (hrun : l.run (s.newEvents s.nextSearch) = some m) :
    ∃ c : Candidate, Traced (answeringAddrs s.sAlarm l.population) s.steerPosition s.sAddr c 64 ∧
      m.population = l.population ∧ m.pending = .none ∧ s.nextSearch.yielded = some c.a ∧
      s.nextSearch.sAddr = c.a ∧ s.nextSearch.sLd.toNat = c.lastZero ∧ s.nextSearch.sFirst = false ∧
      s.nextSearch.sAlarm = s.sAlarm ∧ s.nextSearch.sHalt = false := by
  have hpass := onLine_searchPass hl hne hvalid s.steerPosition s.sAddr (s.setFound false) m
  rcases exec_searchNext_cases (exec_nextSearch s) with ⟨he, -⟩ | ⟨c, u, -, hp, hu, ht⟩ | ⟨e, u, -, hp, hu, ht⟩
  · rw [hs] at he
    cases he
  · rw [hp] at hpass
    rw [ht] at hrun ⊢
    obtain ⟨c', u', hd, htr, hpop, hpend⟩ := hpass hrun
    cases hd
    have hf := hu.registerFrame
    refine ⟨c, htr, hpop, hpend, ?_, rfl, (searchPass_lastZero hp).toNat, rfl, hf.sAlarm, ?_⟩
    · refine if_pos ⟨endOperation_code _, ?_⟩
      exact (endOperation_registerFrame _).found.trans (statusFound_withFound _ _)
    · exact hf.sHalt.trans (Bool.or_eq_false_iff.1 hs).1
  · rw [hp] at hpass
    rw [ht, State.newEvents, endOperation_trace] at hrun
    obtain ⟨c', u', hd, -⟩ := hpass hrun
    cases hd

/-- An enumeration of the addresses `M` is in progress and the addresses `rest` are still to come: all of `M` before the
first, then those after the last one found. -/
structure Searching (M : List Address) (alarm : Bool) (s : State) (rest : List Address) : Prop where
  not_halted : s.sHalt = false
  alarm_eq : s.sAlarm = alarm
  nodup : rest.Nodup
  mem_rest : ∀ x, x ∈ rest ↔ x ∈ M ∧ (s.sFirst = false → lineBefore s.sAddr x)
  last_found : s.sFirst = false → s.sAddr ∈ M ∧ LastZeroOf M s.sAddr s.sLd.toNat 64

section
variable {M : List Address} {alarm : Bool} {s : State} {rest : List Address}

theorem searchComplete_iff (s : State) : s.searchComplete = true ↔ s.sFirst = false ∧ s.sLd.toNat = 0 := by
  rw [State.searchComplete, Bool.and_eq_true, Bool.not_eq_true', beq_iff_eq]
  exact and_congr_right fun _ => BitVec.toNat_inj.symm

/-- A search with addresses to come has not ended. -/
theorem Searching.not_ended (h : Searching M alarm s rest) (hr : rest ≠ []) : (s.sHalt || s.searchComplete) = false := by
  rw [h.not_halted, Bool.false_or]
  by_contra hc
  rw [Bool.not_eq_false, searchComplete_iff] at hc
  obtain ⟨hf, h0⟩ := hc
  obtain ⟨x, hx⟩ := List.exists_mem_of_ne_nil rest hr
  obtain ⟨hxM, hb⟩ := (h.mem_rest x).1 hx
  have hld := (h.last_found hf).2
  rw [h0] at hld
  exact hld.not_before hxM (hb hf)

/-- One with none to come is complete. -/
theorem Searching.complete (h : Searching M alarm s []) (hM : M ≠ []) : s.searchComplete = true := by
  obtain ⟨x, hx⟩ := List.exists_mem_of_ne_nil M hM
  have hf : s.sFirst = false := by
    by_contra hf
    exact List.not_mem_nil ((h.mem_rest x).2 ⟨hx, fun h' => absurd h' hf⟩)
  refine (searchComplete_iff s).2 ⟨hf, ?_⟩
  by_contra hpos
  obtain ⟨q, hq, hb⟩ := (h.last_found hf).2.exists_after (Nat.pos_of_ne_zero hpos)
  exact List.not_mem_nil ((h.mem_rest q).2 ⟨hq, fun _ => hb⟩)

/-- A pass meets the first of the addresses to come. -/
theorem Searching.meets_first (h : Searching M alarm s rest) (hr : rest ≠ []) {c : Candidate}
    (ht : Traced M s.steerPosition s.sAddr c 64) : c.a ∈ rest ∧ ∀ x ∈ rest, x ≠ c.a → lineBefore c.a x := by
  cases hf : s.sFirst with
  | true =>
    rw [State.steerPosition, hf, if_pos rfl] at ht
    refine ⟨(h.mem_rest _).2 ⟨ht.mem, fun h' => by rw [hf] at h'; cases h'⟩, fun x hx hne => ?_⟩
    exact ht.first_after ((h.mem_rest x).1 hx).1 (fun j hj => absurd hj (Nat.not_lt_zero j)) hne
  | false =>
    rw [State.steerPosition, hf, if_neg (by decide)] at ht
    obtain ⟨hp, hld⟩ := h.last_found hf
    have hpos : 0 < s.sLd.toNat := by
      have hend := h.not_ended hr
      rw [h.not_halted, Bool.false_or] at hend
      by_contra h0
      rw [(searchComplete_iff s).2 ⟨hf, by omega⟩] at hend
      cases hend
    refine ⟨(h.mem_rest _).2 ⟨ht.mem, fun _ => ht.previous_before hp hld hpos⟩, fun x hx hne => ?_⟩
    obtain ⟨hxM, hb⟩ := (h.mem_rest x).1 hx
    exact ht.next_after_previous hp hld hpos hxM (hb hf) hne

/-- With the address met first struck off, the rest is still to come. -/
theorem Searching.next (h : Searching M alarm s rest) (hr : rest ≠ []) {c : Candidate} {t : State}
    (ht : Traced M s.steerPosition s.sAddr c 64) (ha : t.sAddr = c.a) (hld : t.sLd.toNat = c.lastZero)
    (hf : t.sFirst = false) (hal : t.sAlarm = s.sAlarm) (hh : t.sHalt = false) : Searching M alarm t (rest.erase c.a) := by
  obtain ⟨hmem, hfirst⟩ := h.meets_first hr ht
  refine ⟨hh, hal.trans h.alarm_eq, h.nodup.erase _, fun x => ?_, fun _ => ?_⟩
  · rw [h.nodup.mem_erase_iff, ha]
    constructor
    · rintro ⟨hne, hx⟩
      exact ⟨((h.mem_rest x).1 hx).1, fun _ => hfirst x hx hne⟩
    · rintro ⟨hxM, hb⟩
      refine ⟨fun he => lineBefore_irrefl c.a (he ▸ hb hf), (h.mem_rest x).2 ⟨hxM, fun hs => ?_⟩⟩
      exact lineBefore_trans (((h.mem_rest c.a).1 hmem).2 hs) (hb hf)
  · rw [ha, hld]
    exact ⟨ht.mem, ht.lastZero⟩

end

theorem afterEnumeration_traceGrows (n : Nat) (s : State) : TraceGrows s (afterEnumeration n s) := by
  induction n generalizing s with
  | zero => exact .refl s
  | succ n ih => exact .trans _ _ _ (exec_traceGrows (exec_nextSearch s)) (ih s.nextSearch)

/-- A search that runs on the simulated line yields the addresses to come, each once, in the order of the line, and none
is to come afterwards. -/
theorem Searching.enumeration_spec {population : List Device} {alarm : Bool}
    (hvalid : ∀ a ∈ answeringAddrs alarm population, addressValid a = true) (n : Nat) {s : State} {l : SimLine}
    {rest : List Address} (h : Searching (answeringAddrs alarm population) alarm s rest) (hn : rest.length = n)
    (hpop : l.population = population) (hl : l.pending = .none)
    (hrun : (l.run (s.newEvents (afterEnumeration n s))).isSome = true) :
    (enumeration n s).Perm rest ∧ (enumeration n s).Pairwise lineBefore ∧
      Searching (answeringAddrs alarm population) alarm (afterEnumeration n s) [] := by
  induction n generalizing s l rest with
  | zero =>
    obtain rfl := List.length_eq_zero_iff.1 hn
    exact ⟨.refl _, .nil, h⟩
  | succ n ih =>
    have hr : rest ≠ [] := by
      rintro rfl
      cases hn
    obtain ⟨k, hk⟩ := Option.isSome_iff_exists.1 hrun
    rw [afterEnumeration, State.newEvents_append (exec_traceGrows (exec_nextSearch s))
      (afterEnumeration_traceGrows n s.nextSearch)] at hk
    obtain ⟨m, hm, hk⟩ := SimLine.run_append hk
    have hne : answeringAddrs alarm population ≠ [] := fun h0 => by
      obtain ⟨x, hx⟩ := List.exists_mem_of_ne_nil rest hr
      have := ((h.mem_rest x).1 hx).1
      rw [h0] at this
      cases this
    subst hpop
    obtain rfl := h.alarm_eq
    obtain ⟨c, ht, hmp, hmn, hy, ha, hld, hf, hal, hh⟩ := nextSearch_onLine (h.not_ended hr) hl hne hvalid hm
    obtain ⟨hmem, hfirst⟩ := h.meets_first hr ht
    obtain ⟨hperm, hsorted, hend⟩ := ih (h.next hr ht ha hld hf hal hh)
      (by rw [List.length_erase_of_mem hmem, hn]; rfl) hmp hmn (by rw [hk]; rfl)
    rw [enumeration, hy]
    refine ⟨(hperm.cons c.a).trans (List.perm_cons_erase hmem).symm, List.pairwise_cons.2 ⟨fun x hx => ?_, hsorted⟩, hend⟩
    obtain ⟨hne, hx⟩ := h.nodup.mem_erase_iff.1 (hperm.subset hx)
    exact hfirst x hx hne

/-- One call more yields what the call from the end yields. -/
theorem enumeration_succ (n : Nat) (s : State) :
    enumeration (n + 1) s = enumeration n s ++ (afterEnumeration n s).nextSearch.yielded.toList := by
  induction n generalizing s with
  | zero => simp [enumeration, afterEnumeration]
  | succ n ih => rw [enumeration, ih, enumeration, afterEnumeration, List.append_assoc]

/-- A full enumeration on the simulated line, of all devices or of the alarmed ones. -/
theorem enumeration_yields_answering {population : List Device} {alarm : Bool} {s0 s : State}
    (hne : answering alarm population ≠ []) (hnodup : (population.map Device.addr).Nodup)
    (hvalid : ∀ d ∈ population, addressValid d.addr = true) (h : exec (.searchInit alarm) s0 = .next s)
    (hrun : AgreesWith population s (afterEnumeration (answering alarm population).length s)) :
    (enumeration (answering alarm population).length s).Perm (answeringAddrs alarm population) ∧
    (enumeration (answering alarm population).length s).Pairwise lineBefore ∧
    (afterEnumeration (answering alarm population).length s).searchComplete = true ∧
    (afterEnumeration (answering alarm population).length s).sHalt = false ∧
    enumeration ((answering alarm population).length + 1) s = enumeration (answering alarm population).length s := by
  obtain ⟨-, rfl⟩ := exec_next h
  have hsub : (answering alarm population).Sublist population := by
    cases alarm
    · exact .refl _
    · exact List.filter_sublist
  have hstart : Searching (answeringAddrs alarm population) alarm (endOperation (bodyOf (.searchInit alarm) s0))
      (answeringAddrs alarm population) :=
    ⟨rfl, rfl, (hsub.map Device.addr).nodup hnodup, fun x => ⟨fun hx => ⟨hx, nofun⟩, fun hx => hx.1⟩, nofun⟩
  have hv : ∀ a ∈ answeringAddrs alarm population, addressValid a = true :=
    List.forall_mem_map.2 fun d hd => hvalid d (hsub.subset hd)
  obtain ⟨hperm, hsorted, hend⟩ := hstart.enumeration_spec hv _ (List.length_map _) (l := SimLine.start population) rfl rfl hrun
  have hcomplete := hend.complete fun h0 => hne (List.map_eq_nil_iff.1 h0)
  refine ⟨hperm, hsorted, hcomplete, hend.not_halted, ?_⟩
  rw [enumeration_succ, nextSearch_ended (by rw [hcomplete, Bool.or_true]), Option.toList_none, List.append_nil]

/-- Settles O37: the enumeration of the devices that answer an Alarm Search. -/
theorem alarmEnumerationYieldsAlarmedDevices : Obligations.AlarmEnumerationYieldsAlarmedDevices :=
  fun _ _ _ hne hnodup hvalid h hrun => enumeration_yields_answering (alarm := true) hne hnodup hvalid h hrun

end Sys2Proof.Machine
end

section
/-! PROOFS of the statements of spec/30_encoding.md about the decoder and the operations without line action (O1 to O4,
O40, O41). -/

namespace Sys2Proof.Machine

/-! ## Encoding and decoding (R70 to R74, R77) -/

/-- Settles O1: the round trip of each row of the opcode table. -/
theorem decodeAfterEncode : Obligations.DecodeAfterEncode := by
  intro i
  cases i with
  | reset => exact Laws.RoundTrip.reset
  | writeBit b => exact Laws.RoundTrip.writeBit b
  | readBit => exact Laws.RoundTrip.readBit
  | writeByte v => exact Laws.RoundTrip.writeByte v
  | readByte => exact Laws.RoundTrip.readByte
  | writeBytes n => exact Laws.RoundTrip.writeBytes n
  | readBytes n => exact Laws.RoundTrip.readBytes n
  | select => exact Laws.RoundTrip.select
  | skipSelect => exact Laws.RoundTrip.skipSelect
  | readRom => exact Laws.RoundTrip.readRom
  | searchInit alarm => exact Laws.RoundTrip.searchInit alarm
  | searchNext => exact Laws.RoundTrip.searchNext
  | crc8 n => exact Laws.RoundTrip.crc8 n
  | reserved0 => exact Laws.RoundTrip.reserved0
  | reservedE => exact Laws.RoundTrip.reservedE
  | reservedF => exact Laws.RoundTrip.reservedF
  | romRead => exact Laws.RoundTrip.romRead
  | romMatch => exact Laws.RoundTrip.romMatch
  | romSkip => exact Laws.RoundTrip.romSkip
  | romSearch => exact Laws.RoundTrip.romSearch
  | romAlarmSearch => exact Laws.RoundTrip.romAlarmSearch

/-- A mask of a command word acts on its two fields. -/
theorem commandOf_and (op m : BitVec 4) (arg n : Byte) :
    commandOf op arg &&& commandOf m n = commandOf (op &&& m) (arg &&& n) := BitVec.and_append

/-- Under the match mask only the operation code is left. -/
theorem commandOf_and_code (op : BitVec 4) (arg : Byte) : commandOf op arg &&& 0xF00#12 = commandOf op 0 := by
  rw [show 0xF00#12 = commandOf (BitVec.allOnes 4) 0 from rfl, commandOf_and, BitVec.and_allOnes]
  exact congrArg _ BitVec.and_zero

/-- An operand of one bit is `ARG` under its mask (R72). -/
theorem bitArg_getElem_zero (arg : Byte) : bitArg arg[0] = arg &&& 1 := by
  apply BitVec.eq_of_getLsbD_eq
  intro i hi
  rw [BitVec.getLsbD_and]
  cases i with
  | zero => cases h : arg[0] <;> simp [bitArg, h]
  | succ i => cases h : arg[0] <;> simp [bitArg]

theorem commandOf_and_bit (op : BitVec 4) (arg : Byte) :
    commandOf op arg &&& 0xF01#12 = commandOf op (bitArg arg[0]) := by
  rw [show 0xF01#12 = commandOf (BitVec.allOnes 4) 1 from rfl, commandOf_and, BitVec.and_allOnes, bitArg_getElem_zero]

theorem commandOf_and_all (op : BitVec 4) (arg : Byte) : commandOf op arg &&& 0xFFF#12 = commandOf op arg :=
  BitVec.and_allOnes

theorem decodeOp_wellFormed (op : BitVec 4) (arg : Byte) : (decodeOp op arg).WellFormed = true := by
  have harg : arg.toNat ≤ 255 := Nat.le_of_lt_succ arg.isLt
  unfold decodeOp
  split <;> simp [Instr.WellFormed, harg]

/-- The word of the operation a word names is that word with its ignored bits cleared (R72): on each of the 16 codes one
of the three masks applies. -/
theorem encode_decodeOp (op : BitVec 4) (arg : Byte) :
    encode (decodeOp op arg) = .host (commandOf op arg &&& usedBits (commandOf op arg)) := by
  obtain ⟨⟨n, hn⟩⟩ := op
  interval_cases n <;>
    simp +decide [encode, decodeOp, usedBits, commandOf_and_code, commandOf_and_bit, commandOf_and_all]

theorem encode_decodeHost (w : BitVec 12) : encode (decodeHost w) = .host (w &&& usedBits w) := by
  rw [decodeHost, encode_decodeOp, commandOf_fields]

/-- Settles O3: what a word names and the used bits of the word determine each other, by `encode_decodeHost` and the round
trip. -/
theorem wordsDifferOnlyInIgnoredBits : Obligations.WordsDifferOnlyInIgnoredBits := by
  intro w w'
  have back (v : BitVec 12) : decode (.host (v &&& usedBits v)) = decode (.host v) := by
    rw [← encode_decodeHost]
    exact decodeAfterEncode _ (decodeOp_wellFormed _ _)
  constructor
  · intro h
    have hop : decodeHost w = decodeHost w' := Except.ok.inj h
    exact CommandWord.host.inj (by rw [← encode_decodeHost, hop, encode_decodeHost])
  · intro h
    rw [← back w, h, back w']

/-- A word whose bits under the match mask are a row's names the operation of that row (R71). -/
theorem decode_of_row {w : BitVec 12} (op : BitVec 4) (h : w &&& 0xF00 = commandOf op 0) :
    decode (.host w) = .ok (decodeOp op (argField w)) := by
  have hop : opField w = op := by
    have hcode : commandOf (opField w) (argField w) &&& 0xF00 = commandOf (opField w) 0 := commandOf_and_code ..
    rw [commandOf_fields, h] at hcode
    simpa using congrArg opField hcode.symm
  rw [decode, decodeHost, hop]

theorem argField_bit (w : BitVec 12) : (argField w).getLsbD 0 = w.getLsbD 0 := getLsbD_argField w 0

theorem truncate_eq_argField (w : BitVec 12) : w.truncate 8 = argField w :=
  BitVec.setWidth_eq_extractLsb' (by decide)

theorem argField_toNat (w : BitVec 12) : (argField w).toNat = w.toNat % 256 := BitVec.extractLsb'_toNat 0 8 w

/-- Settles O2: `decode_of_row` at each row, with the operand read from `ARG`. -/
theorem hostWordsDecodeByTableRow : Obligations.HostWordsDecodeByTableRow := by
  intro w
  rw [← argField_bit, ← argField_toNat, truncate_eq_argField]
  exact ⟨decode_of_row 0x0, decode_of_row 0x1, decode_of_row 0x2, decode_of_row 0x3, decode_of_row 0x4,
    decode_of_row 0x5, decode_of_row 0x6, decode_of_row 0x7, decode_of_row 0x8, decode_of_row 0x9, decode_of_row 0xA,
    decode_of_row 0xB, decode_of_row 0xC, decode_of_row 0xD, decode_of_row 0xE, decode_of_row 0xF⟩

/-- A byte that is none of the five codes is rejected by name (R81). -/
theorem decode_rom_unknown {c : Byte} (h : c ∉ [0x33, 0x55, 0xCC, 0xF0, 0xEC]) :
    decode (.rom c) = .error (.notARomCommand c) := by
  simp only [List.mem_cons, List.not_mem_nil, or_false, not_or] at h
  obtain ⟨hread, hmatch, hskip, hsearch, halarm⟩ := h
  exact (if_neg hread).trans ((if_neg hmatch).trans ((if_neg hskip).trans ((if_neg hsearch).trans (if_neg halarm))))

/-- Settles O4: the words are closed terms; the other bytes by `decode_rom_unknown`. -/
theorem specWordsDecode : Obligations.SpecWordsDecode :=
  ⟨rfl, rfl, rfl, rfl, rfl, rfl, rfl, rfl, rfl, rfl, rfl, fun _ => decode_rom_unknown⟩

/-! ## Operations without line action that end at once (R72, R73, R204) -/

/-- Settles O40: the body of each reserved operation raises `ILLEGAL_OP`, which writes `STATUS.CODE` alone. -/
theorem reservedCodesAreIllegal : Obligations.ReservedCodesAreIllegal := by
  intro s i hi
  have hbody : i.WellFormed = true ∧ bodyOf i = Proc.raise .illegalOp := by
    simp only [List.mem_cons, List.not_mem_nil, or_false] at hi
    rcases hi with rfl | rfl | rfl <;> exact ⟨rfl, rfl⟩
  obtain ⟨hwf, hraise⟩ := hbody
  rw [exec_eq i s hwf, hraise]
  rfl

/-- Settles O41: all three are counted operations, which stop at a count above 255. -/
theorem unencodableCountStops : Obligations.UnencodableCountStops := by
  intro s n hn i hi
  simp only [List.mem_cons, List.not_mem_nil, or_false] at hi
  rcases hi with rfl | rfl | rfl
  · exact runCounted_fault (Nat.not_le.2 hn) (writeBlock n) s
  · exact runCounted_fault (Nat.not_le.2 hn) (readBlock n) s
  · exact runCounted_fault (Nat.not_le.2 hn) (crc8Body n) s

end Sys2Proof.Machine
end

section
/-! PROOFS of the statements of spec/30_encoding.md about a search pass: committed (O30), dropped for its checksum (O31),
ended by a round in which no device answers (O32). -/

namespace Sys2Proof.Machine
open Proc

/-! ## The transient variables in the words of the statements (R165, R166) -/

theorem zeroBranchAt_iff (s : State) (j n : Nat) :
    s.zeroBranchAt j n ↔ s.passLevels j (8 * (n - 1) + 2) = false ∧ s.passLevels j (8 * (n - 1) + 5) = false ∧
      passDir s.steerPosition s.sAddr (s.passLevels j) n = false := by
  rw [passDir_eq_branch]
  rfl

/-- `last_zero` after round 64 is the last round in which a discrepancy was resolved to 0, and 0 if there was none. -/
theorem passCandidate_lastZero_eq {s : State} {j lz : Nat} (hle : lz ≤ 64) (hat : 0 < lz → s.zeroBranchAt j lz)
    (hafter : ∀ n, lz < n → n ≤ 64 → ¬s.zeroBranchAt j n) :
    (passCandidate s.steerPosition s.sAddr (s.passLevels j) 64).lastZero = lz := by
  obtain ⟨hle', -, hafter'⟩ := passCandidate_lastZero s.steerPosition s.sAddr (s.passLevels j) 64
  have hat' := passCandidate_lastZero_at s.steerPosition s.sAddr (s.passLevels j) 64
  simp only [← zeroBranchAt_iff] at hat' hafter'
  rcases Nat.lt_trichotomy (passCandidate s.steerPosition s.sAddr (s.passLevels j) 64).lastZero lz with h | h | h
  · exact absurd (hat (Nat.zero_lt_of_lt h)) (hafter' lz h hle)
  · exact h
  · exact absurd (hat' (Nat.zero_lt_of_lt h)) (hafter _ h hle')

/-- So the candidate after round 64 is the address of the branches with that round. -/
theorem passCandidate_eq {s : State} {j lz : Nat} {a : Address}
    (ha : ∀ n, 1 ≤ n → n ≤ 64 → a.getLsbD (n - 1) = s.branch j n) (hle : lz ≤ 64)
    (hat : 0 < lz → s.zeroBranchAt j lz) (hafter : ∀ n, lz < n → n ≤ 64 → ¬s.zeroBranchAt j n) :
    passCandidate s.steerPosition s.sAddr (s.passLevels j) 64 = ⟨a, lz⟩ := by
  rw [← passCandidate_a s j a ha, ← passCandidate_lastZero_eq hle hat hafter]

/-- Rounds counted from 1, as in the statements, and from 0, as the answers are. -/
theorem noAbsence_levels {s : State} {j k : Nat}
    (h : ∀ n, 1 ≤ n → n < k + 1 → (s.idBit j n && s.cmpBit j n) = false) (i : Nat) (hi : i < k) :
    (s.passLevels j (8 * i + 2) && s.passLevels j (8 * i + 5)) = false := h (i + 1) (by omega) (by omega)

/-! ## The pass in the words of the statements (R163 to R169) -/

section
variable {s : State} {j : Nat} {a : Address}

/-- A pass in which presence was sampled and no round read (1,1): after round 64 the checksum test of the address of the
branches decides. -/
theorem searchPass_ends (h : s.RomReady j 512)
    (hp : ∀ n, 1 ≤ n → n ≤ 64 → (s.idBit j n && s.cmpBit j n) = false)
    (ha : ∀ n, 1 ≤ n → n ≤ 64 → a.getLsbD (n - 1) = s.branch j n) (alarm : Bool) :
    searchPass s.steerPosition s.sAddr alarm s =
      (let t := (s.after (j + 532) (romStartEvents j (searchCode alarm) ++ s.roundsEvents j 64)).sawPresence false
       if addressValid a then .done (passCandidate s.steerPosition s.sAddr (s.passLevels j) 64) t
       else .raised .crcMismatch t) := by
  have hpass := searchPass_works h s.steerPosition s.sAddr alarm
    (noAbsence_levels fun n h1 h2 => hp n h1 (Nat.le_of_lt_succ h2))
  rw [passEvents_eq_roundsEvents] at hpass
  rw [hpass, ← passCandidate_a s j a ha]

/-- A pass whose first round that read (1,1) is `r` ends after the two read slots of that round. -/
theorem searchPass_absence {r : Nat} (h1 : 1 ≤ r) (h64 : r ≤ 64) (h : s.RomReady j (8 * (r - 1) + 6))
    (hp : ∀ n, 1 ≤ n → n < r → (s.idBit j n && s.cmpBit j n) = false) (habs : (s.idBit j r && s.cmpBit j r) = true)
    (alarm : Bool) :
    searchPass s.steerPosition s.sAddr alarm s =
      .raised .unexpectedAbsence ((s.after (j + 20 + (8 * (r - 1) + 6))
        (romStartEvents j (searchCode alarm) ++ s.roundsEvents j (r - 1) ++ readSlot true ++ readSlot true)).sawPresence
          false) := by
  obtain ⟨r, rfl⟩ := Nat.exists_eq_add_of_le' h1
  have hpass := searchPass_absent r (by omega) h s.steerPosition s.sAddr alarm (noAbsence_levels hp) habs
  rwa [passEvents_eq_roundsEvents, ← List.append_assoc] at hpass

end

/-! ## How `SEARCH_NEXT` and the frame at the sequencer's own port end (R170 to R172, R227) -/

theorem withPresence_withFound (st : Byte) (p f : Bool) :
    withPresence (withFound st f) p = withFound (withPresence st p) f :=
  status_ext _ _ (by simp) (by simp) (by simp) (by simp)

theorem withFound_withFound (st : Byte) (f g : Bool) : withFound (withFound st f) g = withFound st g :=
  status_ext _ _ (by simp) (by simp) (by simp) (by simp)

/-- From `OE = 0` an error writes `STATUS.CODE` alone, whatever its kind (R227). -/
theorem endOperation_raised_of_oe {s : State} (h : s.oe = false) (e : ErrorKind) :
    endOperation (.raised e s) = s.setCode e.code := by
  have hs : s.setOe false = s := by rw [← h, State.setOe_oe_self]
  rw [endOperation_raised, hs, ite_self]

section
variable {s : State} {n : Nat} {es : List LineEvent} {alarm : Bool}

/-- A `SEARCH_NEXT` whose pass raises after presence: the Search State is as it was, the iterator halted (R172, R175). -/
theorem RunsPass.exec_raised {e : ErrorKind} (h : RunsPass s alarm)
    (hpass : searchPass s.steerPosition s.sAddr alarm (s.setFound false) =
      .raised e (((s.setFound false).after n es).sawPresence false)) :
    exec .searchNext s = .next { s.after n es with
      sHalt := true
      status := withCode (withFound (withPresence s.status true) false) e.code } := by
  rw [h.exec_eq, nextPassBody_raised hpass, endOperation_raised_of_oe rfl, ← withPresence_withFound]
  rfl

/-- The same pass at the sequencer's own port halts nothing (R227). -/
theorem searchFrame_exec_raised {e : ErrorKind}
    (hpass : searchPass s.steerPosition s.sAddr alarm s = .raised e ((s.after n es).sawPresence false)) :
    exec (searchFrame alarm) s = .next { s.after n es with
      status := withCode (withPresence s.status true) e.code } := by
  rw [searchFrame_exec_eq, searchFrameBody_raised hpass, endOperation_raised_of_oe rfl]
  rfl

/-- A `SEARCH_NEXT` whose pass ends with a candidate: it is committed and yielded (R170, R202). -/
theorem RunsPass.exec_done {c : Candidate} (h : RunsPass s alarm)
    (hpass : searchPass s.steerPosition s.sAddr alarm (s.setFound false) =
      .done c (((s.setFound false).after n es).sawPresence false)) :
    exec .searchNext s = .next { s.after n es with
      addr := c.a, sAddr := c.a, sLd := BitVec.ofNat 7 c.lastZero, sFirst := false
      status := withCode (withFound (withPresence s.status true) true) okCode } := by
  rw [h.exec_eq, nextPassBody_done hpass, endOperation_done, ← withFound_withFound (withPresence s.status true) false true,
    ← withPresence_withFound]
  rfl

/-- The same pass at the sequencer's own port stores nothing (R171). -/
theorem searchFrame_exec_done {c : Candidate}
    (hpass : searchPass s.steerPosition s.sAddr alarm s = .done c ((s.after n es).sawPresence false)) :
    exec (searchFrame alarm) s = .next { s.after n es with
      status := withCode (withPresence s.status true) okCode } := by
  rw [searchFrame_exec_eq, searchFrameBody_done hpass]
  rfl

end

/-! ## The statements -/

/-- Settles O30: the pass ends with the candidate, which is the address of the branches and the round `lz`. -/
theorem searchPassDiscovers : Obligations.SearchPassDiscovers := by
  intro s j alarm a lz h hp ha hv hle hat hafter
  have hpass := searchPass_ends h hp ha alarm
  have hnext := searchPass_ends (s := s.setFound false) h hp ha alarm
  simp only [hv, if_true] at hpass hnext
  rw [passCandidate_eq (s := s.setFound false) ha hle hat hafter] at hnext
  exact ⟨fun hr => hr.exec_done hnext, searchFrame_exec_done hpass⟩

/-- Settles O31: after round 64 the checksum test raises. -/
theorem searchPassDropsInvalidAddress : Obligations.SearchPassDropsInvalidAddress := by
  intro s j alarm a h hp ha hv
  have hpass := searchPass_ends h hp ha alarm
  have hnext := searchPass_ends (s := s.setFound false) h hp ha alarm
  simp only [hv, Bool.false_eq_true, if_false] at hpass hnext
  exact ⟨fun hr => hr.exec_raised hnext, searchFrame_exec_raised hpass⟩

/-- Settles O32: round `r` raises after its two read slots. -/
theorem unexpectedAbsenceAbortsSearch : Obligations.UnexpectedAbsenceAbortsSearch := by
  intro s j r alarm h1 h64 h hp habs
  exact ⟨fun hr => hr.exec_raised (searchPass_absence (s := s.setFound false) h1 h64 h hp habs alarm),
    searchFrame_exec_raised (searchPass_absence h1 h64 h hp habs alarm)⟩

end Sys2Proof.Machine
end

section
/-! PROOFS of the statements of spec/30_encoding.md about the shapes the line carries (O52): whole shapes in a row, and
after `LINE_FAULT` a beginning of one more, whose next action failed. -/

namespace Sys2Proof.Machine
open Proc

/-! ## Records that are made of shapes (R75) -/

/-- `es` was recorded since the record was `pre`. -/
def Recorded (pre es : List LineEvent) (s : State) : Prop := s.trace = pre ++ es

/-- Since the record was `pre`, one whole shape was recorded. -/
def OneShape (pre : List LineEvent) (s : State) : Prop := ∃ sh : LineShape, sh.Legal ∧ Recorded pre sh.events s

/-- `es` is a beginning of a shape. -/
def BeginsShape (es : List LineEvent) : Prop := ∃ sh : LineShape, sh.Legal ∧ es <+: sh.events

/-- Since the record was `pre`, a beginning of a shape was recorded, and as failed the action with which it goes on. -/
def CutShape (pre : List LineEvent) (s : State) : Prop :=
  ∃ es a level, BeginsShape (es ++ [LineAction.worked level a]) ∧ Recorded pre (es ++ [.failed a]) s

/-- What an error leaves of the shape under way since the record was `pre`: cut short by a fault, whole otherwise. -/
def ErrorInShape (pre : List LineEvent) (e : ErrorKind) (s : State) : Prop :=
  (e = .lineFault ∧ CutShape pre s) ∨ (e ≠ .lineFault ∧ OneShape pre s)

/-! ## The actions of one shape (R11, R110) -/

section
variable {pre es : List LineEvent}

theorem Recorded.log {s : State} (h : Recorded pre es s) (e : LineEvent) : Recorded pre (es ++ [e]) (s.log e) :=
  (congrArg (· ++ [e]) h).trans (List.append_assoc ..)

theorem recorded_driveLow (h : BeginsShape (es ++ [.driveLow])) :
    Spec (Recorded pre es) driveLow (fun _ => Recorded pre (es ++ [.driveLow])) (ErrorInShape pre) := by
  intro s hs
  cases ha : s.answer 0 with
  | works l =>
    rw [driveLow_works ha]
    exact Recorded.log (s := (s.consume 1).setOutput true true) hs _
  | fails o =>
    rw [driveLow_fails ha]
    exact .inl ⟨rfl, es, .driveLow, true, h, Recorded.log (s := (s.consume 1).setOutput o.oe o.low) hs _⟩

theorem recorded_release (h : BeginsShape (es ++ [.release])) :
    Spec (Recorded pre es) release (fun _ => Recorded pre (es ++ [.release])) (ErrorInShape pre) := by
  intro s hs
  cases ha : s.answer 0 with
  | works l =>
    rw [release_works ha]
    exact Recorded.log (s := (s.consume 1).setOutput false false) hs _
  | fails o =>
    rw [release_fails ha]
    exact .inl ⟨rfl, es, .release, true, h, Recorded.log (s := (s.consume 1).setOutput o.oe o.low) hs _⟩

theorem recorded_sample {level : Bool} (h : BeginsShape (es ++ [.sample level])) :
    Spec (Recorded pre es) sample (fun l => Recorded pre (es ++ [.sample l])) (ErrorInShape pre) := by
  intro s hs
  cases ha : s.answer 0 with
  | works l =>
    rw [sample_works ha]
    exact Recorded.log (s := s.consume 1) hs _
  | fails o =>
    rw [sample_fails ha]
    exact .inl ⟨rfl, es, .sample, level, h, Recorded.log (s := s.consume 1) hs _⟩

theorem recorded_delay (d : Duration) {E : ErrorKind → State → Prop} :
    Spec (Recorded pre es) (delay d) (fun _ => Recorded pre (es ++ [.delay d])) E := fun _ hs => hs.log _

end

/-! ## Slots and Resets as shapes (R111 to R114) -/

section
variable (pre : List LineEvent)

theorem writeBit_oneShape (b : Bool) :
    Spec (Recorded pre []) (writeBit b) (fun _ => OneShape pre) (ErrorInShape pre) := by
  have slot (es : List LineEvent) (h : es <+: writeSlot b) : BeginsShape es := ⟨.writeSlot b, trivial, h⟩
  have hslot : writeSlot b =
      [.driveLow, .delay (if b then .w1l else .w0l), .release, .delay (if b then .w1r else .w0r)] := by cases b <;> rfl
  refine spec_andThen (recorded_driveLow (slot _ (by simp [hslot]))) fun _ => spec_andThen (recorded_delay _) fun _ =>
    spec_andThen (recorded_release (slot _ (by simp [hslot]))) fun _ => ?_
  refine spec_weaken (recorded_delay _) (fun _ hs => hs) (fun _ s hs => ⟨.writeSlot b, trivial, ?_⟩) fun _ _ he => he
  rwa [LineShape.events, hslot]

theorem readBit_oneShape : Spec (Recorded pre []) readBit (fun _ => OneShape pre) (ErrorInShape pre) := by
  have slot (es : List LineEvent) (h : es <+: readSlot true) : BeginsShape es := ⟨.readSlot true, trivial, h⟩
  exact spec_andThen (recorded_driveLow (slot _ (by simp [readSlot]))) fun _ => spec_andThen (recorded_delay _) fun _ =>
    spec_andThen (recorded_release (slot _ (by simp [readSlot]))) fun _ => spec_andThen (recorded_delay _) fun _ =>
    spec_andThen (recorded_sample (level := true) (slot _ (by simp [readSlot]))) fun level =>
    spec_andThen (recorded_delay _) fun _ _ hs => ⟨.readSlot level, trivial, hs⟩

theorem lowSamples_concat (k : Nat) : lowSamples (k + 1) = lowSamples k ++ [.sample false, .delay .whp] := by
  induction k with
  | zero => rfl
  | succ k ih => exact congrArg ([.sample false, .delay .whp] ++ ·) ih

/-- `WaitHigh` after `k` low samples of its `N_WH` (R111): the line is seen high in time, or the stuck-low check ends. -/
theorem waitHighUpTo_recorded (n k : Nat) (hk : k + n = Config.nWh) :
    Spec (Recorded pre (lowSamples k)) (waitHighUpTo n)
      (fun _ s => ∃ j < Config.nWh, Recorded pre (lowSamples j ++ [.sample true]) s) (ErrorInShape pre) := by
  induction n generalizing k with
  | zero =>
    obtain rfl : k = Config.nWh := hk
    exact fun s hs => .inr ⟨by decide, .stuckLow, trivial, hs⟩
  | succ n ih =>
    have hlt : k < Config.nWh := by omega
    have hsample : BeginsShape (lowSamples k ++ [.sample true]) :=
      ⟨.resetFrame k true, hlt, by simp [LineShape.events, resetFrame]⟩
    refine spec_andThen (recorded_sample hsample) fun level => ?_
    cases level with
    | true => exact fun s hs => ⟨k, hlt, hs⟩
    | false =>
      rw [if_neg Bool.false_ne_true]
      refine spec_andThen (recorded_delay _) fun _ => ?_
      rw [List.append_assoc, List.singleton_append, ← lowSamples_concat]
      exact ih (k + 1) (by omega)

/-- The drive and presence steps after `j` low samples (R112). -/
theorem resetPulse_oneShape {j : Nat} (hj : j < Config.nWh) :
    Spec (Recorded pre (lowSamples j ++ [.sample true])) resetPulse (fun _ => OneShape pre) (ErrorInShape pre) := by
  have frame (es : List LineEvent) (h : es <+: resetPulseEvents true) :
      BeginsShape (lowSamples j ++ [.sample true] ++ es) :=
    ⟨.resetFrame j true, hj, by simpa [LineShape.events, resetFrame] using h⟩
  simp only [resetPulseEvents] at frame
  refine spec_andThen (recorded_driveLow (frame _ (by simp))) fun _ => spec_andThen (recorded_delay _) fun _ =>
    spec_andThen (recorded_release (by simpa using frame [_, _, _] (by simp))) fun _ =>
    spec_andThen (recorded_delay _) fun _ =>
    spec_andThen (recorded_sample (level := true) (by simpa using frame [_, _, _, _, _] (by simp))) fun level =>
    spec_andThen (recorded_delay _) fun _ s hs => ⟨.resetFrame j level, hj, ?_⟩
  simpa [Recorded, LineShape.events, resetFrame, resetPulseEvents] using hs

theorem resetSequence_oneShape :
    Spec (Recorded pre []) resetSequence (fun _ => OneShape pre) (ErrorInShape pre) := by
  refine spec_andThen (waitHighUpTo_recorded pre Config.nWh 0 (Nat.zero_add _)) fun _ s hs => ?_
  obtain ⟨j, hj, hs⟩ := hs
  exact resetPulse_oneShape pre hj s hs

end

/-! ## Shapes in a row (R75, R76) -/

/-- Since the record was `pre`, whole shapes in a row were recorded. -/
def WholeShapes (pre : List LineEvent) (s : State) : Prop :=
  ∃ shapes : List LineShape, (∀ sh ∈ shapes, sh.Legal) ∧ Recorded pre (shapes.flatMap LineShape.events) s

/-- What an error leaves of an operation begun with the record `pre`: whole shapes, and after `LINE_FAULT` one more cut
short. -/
def ErrorAfterShapes (pre : List LineEvent) (e : ErrorKind) (s : State) : Prop :=
  (e = .lineFault ∧ ∃ shapes : List LineShape, (∀ sh ∈ shapes, sh.Legal) ∧
    CutShape (pre ++ shapes.flatMap LineShape.events) s) ∨
  (e ≠ .lineFault ∧ WholeShapes pre s)

theorem lineOnly_wholeShapes (pre : List LineEvent) : LineOnly (WholeShapes pre) := by
  intro s t _ _ ht h
  simpa only [WholeShapes, Recorded, ht] using h

theorem lineOnly_errorAfterShapes (pre : List LineEvent) (e : ErrorKind) : LineOnly (ErrorAfterShapes pre e) := by
  intro s t _ _ ht h
  simpa only [ErrorAfterShapes, WholeShapes, CutShape, Recorded, ht] using h

/-- One more shape after whole ones. -/
theorem WholeShapes.concat {pre : List LineEvent} {shapes : List LineShape} {s : State}
    (hl : ∀ sh ∈ shapes, sh.Legal) (h : OneShape (pre ++ shapes.flatMap LineShape.events) s) : WholeShapes pre s := by
  obtain ⟨sh, hsh, ht⟩ := h
  refine ⟨shapes ++ [sh], List.forall_mem_append.2 ⟨hl, List.forall_mem_singleton.2 hsh⟩, ?_⟩
  simpa [Recorded] using ht

/-- What performs one shape, whatever the record before it, keeps whole shapes in a row. -/
theorem wholeShapes_of_oneShape {α : Type} {p : Proc α}
    (h : ∀ pre, Spec (Recorded pre []) p (fun _ => OneShape pre) (ErrorInShape pre)) (pre : List LineEvent) :
    Spec (WholeShapes pre) p (fun _ => WholeShapes pre) (ErrorAfterShapes pre) := by
  rintro s ⟨shapes, hl, hs⟩
  have hp := h (pre ++ shapes.flatMap LineShape.events) s (by rwa [Recorded, List.append_nil])
  cases hr : p s with
  | done a t =>
    rw [hr] at hp
    exact .concat hl hp
  | raised e t =>
    rw [hr] at hp
    exact hp.imp (fun ⟨he, hcut⟩ => ⟨he, shapes, hl, hcut⟩) fun ⟨he, hone⟩ => ⟨he, .concat hl hone⟩

theorem SlotProc.wholeShapes (pre : List LineEvent) {α : Type} {p : Proc α} (hp : SlotProc p) :
    Spec (WholeShapes pre) p (fun _ => WholeShapes pre) (ErrorAfterShapes pre) :=
  hp.spec (fun b => wholeShapes_of_oneShape (writeBit_oneShape · b) pre) (wholeShapes_of_oneShape readBit_oneShape pre)
    (wholeShapes_of_oneShape resetSequence_oneShape pre) fun _ _ he hs => .inr ⟨he, hs⟩

theorem bodyOf_wholeShapes (i : Instr) (pre : List LineEvent) :
    Spec (WholeShapes pre) (bodyOf i) (fun _ => WholeShapes pre) (ErrorAfterShapes pre) :=
  spec_bodyOf (lineOnly_wholeShapes pre) (lineOnly_errorAfterShapes pre) (fun _ hp => hp.wholeShapes pre) i

/-- An operation that does not end in `LINE_FAULT` recorded whole shapes; one that does, whole shapes and one cut short. -/
theorem exec_shapes {i : Instr} {s t : State} (h : exec i s = .next t) :
    (statusCode t.status = 1 ∧ ∃ shapes : List LineShape, (∀ sh ∈ shapes, sh.Legal) ∧
      CutShape (s.trace ++ shapes.flatMap LineShape.events) t) ∨
    (statusCode t.status ≠ 1 ∧ WholeShapes s.trace t) := by
  obtain ⟨-, rfl⟩ := exec_next h
  have hb : WholeShapes s.trace s := ⟨[], nofun, (List.append_nil _).symm⟩
  simp only [endOperation_code, WholeShapes, CutShape, Recorded, endOperation_trace]
  cases hr : bodyOf i s with
  | done _ u => exact .inr ⟨(by decide : okCode ≠ 1), spec_done (bodyOf_wholeShapes i s.trace) hb hr⟩
  | raised e u =>
    rcases spec_raised (bodyOf_wholeShapes i s.trace) hb hr with ⟨rfl, hcut⟩ | ⟨he, hs⟩
    · exact .inl ⟨rfl, hcut⟩
    · exact .inr ⟨fun hc => he (ErrorKind.code_injective e .lineFault hc), hs⟩

/-- Settles O52: `exec_shapes`, the shape cut short written out. -/
theorem lineCarriesOnlyItsShapes : Obligations.LineCarriesOnlyItsShapes := by
  intro i s t h
  rcases exec_shapes h with ⟨hc, shapes, hl, es, a, level, ⟨cut, hcut, hp⟩, ht⟩ | ⟨hc, hs⟩
  · refine ⟨fun hn => absurd hc hn, fun _ => ⟨shapes, es, a, cut, level, hl, hcut, hp, ?_⟩⟩
    rw [List.append_assoc]
    exact ht
  · exact ⟨fun _ => hs, fun hn => absurd hn hc⟩

end Sys2Proof.Machine
end

section
/-! PROOFS of the statements of spec/40_checksum.md (O12, O14, O59). -/

namespace Sys2Proof.Machine

/-! ## The checksum of a sequence (R102, R104) -/

/-- Settles O12: a byte that equals the accumulator brings it to 0, and `addressValid` compares byte 7 with the checksum. -/
theorem checksumOfSelfCheckedSequenceIsZero : Obligations.ChecksumOfSelfCheckedSequenceIsZero := by
  refine ⟨fun s => ?_, fun a h => ?_⟩
  · rw [crc8_concat, crc8Byte_self]
  · exact ((addressValid_iff a).1 h).symm

/-- The update over a byte runs the one-bit update over the list of its bits (R102). -/
theorem crc8Byte_eq_foldl_bits (c v : Byte) : crc8Byte c v = ((List.range 8).map v.getLsbD).foldl crc8Bit c :=
  List.foldl_map.symm

theorem crc8_eq_foldl_bits (s : List Byte) :
    crc8 s = (s.flatMap fun v => (List.range 8).map v.getLsbD).foldl crc8Bit 0x00 := by
  rw [List.foldl_flatMap]
  simp only [← crc8Byte_eq_foldl_bits]
  rfl

/-- Settles O59: the fold over bytes is the fold over their bits; the worked example consists of closed terms. -/
theorem checksumTakesBitsInOrder : Obligations.ChecksumTakesBitsInOrder :=
  ⟨crc8_eq_foldl_bits, crc8_nil, by decide, by decide⟩

/-! ## The operation `CRC8` (R203) -/

theorem exec_crc8 (s : State) {n : Nat} (h : n ≤ 255) :
    exec (.crc8 n) s = .next (((s.setData (crc8 (s.bufBytes n))).setOe false).setCode okCode) :=
  exec_eq (.crc8 n) s (decide_eq_true h)

/-- Settles O14: `exec_crc8`, the registers written out; no byte of `BUF` is read when `n = 0`. -/
theorem checksumOperation : Obligations.ChecksumOperation :=
  ⟨fun s _ h => exec_crc8 s h, fun s => exec_crc8 s (Nat.zero_le 255)⟩

end Sys2Proof.Machine
end

section
/-! PROOFS of the statements of spec/41_line_primitives.md about `RESET` and the Resets of the other operations: the whole
frame (O15), the line stuck low (O16), and `PRESENCE` (O17). -/

namespace Sys2Proof.Machine
open Proc

/-! ## `RESET` (R112, R191) -/

/-- Settles O15: the frame of `resetSequence_works`, and the end of the operation. -/
theorem resetCompletes : Obligations.ResetCompletes := by
  intro s j hs hj hw hlow hhigh
  have hreset := resetSequence_works hs j hj hw hlow hhigh
  rw [exec_eq .reset s rfl, bodyOf, andThen_done hreset, pure_apply, endOperation_done]
  rfl

/-! ## Procedures that begin with a Reset (R111, R141) -/

/-- `PRESENCE` is as it was, and the record has only grown. -/
def PresenceKept (s t : State) : Prop := TraceGrows s t ∧ statusPresence t.status = statusPresence s.status

theorem PresenceKept.refl (s : State) : PresenceKept s s := ⟨.refl s, rfl⟩

theorem PresenceKept.trans (s t u : State) (h1 : PresenceKept s t) (h2 : PresenceKept t u) : PresenceKept s u :=
  ⟨TraceGrows.trans s t u h1.1 h2.1, h2.2.trans h1.2⟩

theorem keeps_presenceKept_of_lineRun {α : Type} {p : Proc α} (h : Keeps LineRun p) : Keeps PresenceKept p := fun s =>
  ⟨(h s).traceGrows, (h s).presence_eq⟩

/-- `p` is a Reset, and then something that leaves `PRESENCE` alone. -/
def BeginsWithReset {α : Type} (p : Proc α) : Prop :=
  ∃ f : Bool → Proc α, (∀ b, Keeps PresenceKept (f b)) ∧ p = resetSequence.andThen f

section
variable {α β : Type}

theorem BeginsWithReset.andThen {p : Proc α} (hp : BeginsWithReset p) {f : α → Proc β}
    (hf : ∀ a, Keeps PresenceKept (f a)) : BeginsWithReset (p.andThen f) := by
  obtain ⟨g, hg, rfl⟩ := hp
  exact ⟨fun b => (g b).andThen f, fun b => keeps_andThen PresenceKept.trans (hg b) hf, andThen_assoc _ _ _⟩

theorem BeginsWithReset.andThen_line {p : Proc α} (hp : BeginsWithReset p) {f : α → Proc β}
    (hf : ∀ a, Keeps LineRun (f a)) : BeginsWithReset (p.andThen f) :=
  hp.andThen fun a => keeps_presenceKept_of_lineRun (hf a)

/-- An error of the Reset ends what begins with it (R110). -/
theorem BeginsWithReset.raised {p : Proc α} (hp : BeginsWithReset p) {s u : State} {e : ErrorKind}
    (h : resetSequence s = .raised e u) : p s = .raised e u := by
  obtain ⟨f, -, rfl⟩ := hp
  exact andThen_raised h

end

theorem romStart_beginsWithReset (code : Byte) : BeginsWithReset (romStart code) := by
  refine ⟨_, fun p => keeps_presenceKept_of_lineRun ?_, rfl⟩
  cases p
  · exact LineRun.raise _
  · exact keeps_writeByte code

theorem matchRomFrame_beginsWithReset (a : Address) : BeginsWithReset (matchRomFrame a) :=
  (romStart_beginsWithReset _).andThen_line fun _ => keeps_writeAddress a

theorem readRomFrame_beginsWithReset : BeginsWithReset readRomFrame :=
  (romStart_beginsWithReset _).andThen_line fun _ => LineRun.andThen keeps_readAddress fun a =>
    LineRun.andThen (keeps_checkAddress a) fun _ => LineRun.pure a

theorem searchPass_beginsWithReset (ld : Nat) (prev : Address) (alarm : Bool) :
    BeginsWithReset (searchPass ld prev alarm) :=
  (romStart_beginsWithReset _).andThen_line fun _ => LineRun.andThen (keeps_searchRounds ld prev) fun c =>
    LineRun.andThen (keeps_checkAddress c.a) fun _ => LineRun.pure c

/-- The operations with a Reset, `SEARCH_NEXT` apart: what each runs from `s` begins with the Reset. -/
theorem bodyOf_beginsWithReset {i : Instr} (hi : i ∈ [Instr.reset, .select, .skipSelect, .readRom, .romRead, .romMatch,
    .romSkip, .romSearch, .romAlarmSearch]) (s : State) : ∃ p, BeginsWithReset p ∧ bodyOf i s = p s := by
  cases i with
  | reset => exact ⟨_, ⟨_, fun _ => keeps_pure PresenceKept.refl (), rfl⟩, rfl⟩
  | select | romMatch => exact ⟨_, matchRomFrame_beginsWithReset s.addr, rfl⟩
  | skipSelect | romSkip => exact ⟨_, romStart_beginsWithReset _, rfl⟩
  | readRom | romRead => exact ⟨_, readRomFrame_beginsWithReset.andThen fun a u => ⟨.of_eq rfl, rfl⟩, rfl⟩
  | romSearch | romAlarmSearch =>
    exact ⟨_, (searchPass_beginsWithReset s.steerPosition s.sAddr _).andThen_line fun _ => LineRun.pure (), rfl⟩
  | _ => simp at hi

/-! ## A line that stays low (R111, R222) -/

/-- The Reset samples `N_WH` times, then raises `BUS_NOT_HIGH`, having driven nothing. -/
theorem resetSequence_stuckLow {s : State} (hw : s.Works Config.nWh)
    (hlow : ∀ k < Config.nWh, s.lineLevel (s.level k) = false) :
    resetSequence s =
      .raised .busNotHigh { s.consume Config.nWh with trace := s.trace ++ lowSamples Config.nWh } :=
  andThen_raised (waitHighUpTo_low Config.nWh hw hlow)

/-- Settles O16: every operation with a Reset ends with the error its Reset raises; `SEARCH_NEXT` halts too. -/
theorem stuckLowLineEndsInBusNotHigh : Obligations.StuckLowLineEndsInBusNotHigh := by
  refine fun s hw hlow => ⟨fun i hi => ?_, fun alarm hrun => ?_⟩
  · have hwf : i.WellFormed = true := by
      revert i
      decide
    obtain ⟨p, hp, hb⟩ := bodyOf_beginsWithReset hi s
    rw [exec_eq i s hwf, hb, hp.raised (resetSequence_stuckLow hw hlow)]
    rfl
  · have hreset := resetSequence_stuckLow (s := s.setFound false) hw hlow
    rw [hrun.exec_eq, nextPassBody_raised ((searchPass_beginsWithReset s.steerPosition s.sAddr alarm).raised hreset)]
    rfl

/-! ## `PRESENCE` and the frame that sampled it (R112, R205) -/

/-- The record of `t` goes on from that of `s` with a whole reset frame, and `PRESENCE` is what its sample says. -/
def SampledPresence (s t : State) : Prop :=
  ∃ lows level, lows < Config.nWh ∧ s.trace ++ resetFrame lows level <+: t.trace ∧ statusPresence t.status = !level

/-- It does not go on with a whole reset frame, and `PRESENCE` is as it was. -/
def UnsampledPresence (s t : State) : Prop :=
  ∃ es, t.trace = s.trace ++ es ∧ (∀ lows level, ¬resetFrame lows level <+: es) ∧
    statusPresence t.status = statusPresence s.status

/-- What every operation does with `PRESENCE`. -/
def PresenceFollowsFrame (s t : State) : Prop := SampledPresence s t ∨ UnsampledPresence s t

/-- Only the record and `PRESENCE` matter. -/
theorem PresenceFollowsFrame.congr {s t s' t' : State} (h : PresenceFollowsFrame s t) (hs : s'.trace = s.trace)
    (hsp : statusPresence s'.status = statusPresence s.status) (ht : t'.trace = t.trace)
    (htp : statusPresence t'.status = statusPresence t.status) : PresenceFollowsFrame s' t' := by
  simpa only [PresenceFollowsFrame, SampledPresence, UnsampledPresence, hs, hsp, ht, htp] using h

/-- What comes after the frame does not write `PRESENCE`. -/
theorem SampledPresence.kept {s t u : State} (h : SampledPresence s t) (hk : PresenceKept t u) : SampledPresence s u := by
  obtain ⟨lows, level, hl, ht, hp⟩ := h
  exact ⟨lows, level, hl, ht.trans hk.1, hk.2.trans hp⟩

theorem BeginsWithReset.presenceFollowsFrame {α : Type} {p : Proc α} (hp : BeginsWithReset p) (s : State) :
    PresenceFollowsFrame s (p s).state := by
  rcases resetSequence_cases s with ⟨lows, level, u, hl, -, hr, -, hs, ht⟩ | ⟨e, es, u, -, hr, hs, ht, hn, -⟩
  · obtain ⟨f, hf, rfl⟩ := hp
    rw [andThen_done hr]
    have hu : SampledPresence s u := ⟨lows, level, hl, ht ▸ List.prefix_rfl, by rw [hs, statusPresence_withPresence]⟩
    exact .inl (hu.kept (hf _ u))
  · rw [hp.raised hr]
    exact .inr ⟨es, ht, hn, by rw [Res.state_raised, hs]⟩

/-! ## Operations without a Reset -/

/-- Nothing recorded from `s` to `t` ends a reset frame, and `PRESENCE` is as it was. -/
def ResetFree (s t : State) : Prop :=
  ∃ es, t.trace = s.trace ++ es ∧ .delay .rstr ∉ es ∧ statusPresence t.status = statusPresence s.status

theorem ResetFree.of_eq {s t : State} (ht : t.trace = s.trace)
    (hp : statusPresence t.status = statusPresence s.status) : ResetFree s t :=
  ⟨[], by rw [ht, List.append_nil], List.not_mem_nil, hp⟩

theorem ResetFree.refl (s : State) : ResetFree s s := .of_eq rfl rfl

theorem ResetFree.trans (s t u : State) (h1 : ResetFree s t) (h2 : ResetFree t u) : ResetFree s u := by
  obtain ⟨es, hes, hne, hp⟩ := h1
  obtain ⟨fs, hfs, hnf, hq⟩ := h2
  exact ⟨es ++ fs, by rw [hfs, hes, List.append_assoc], by simp [hne, hnf], hq.trans hp⟩

theorem ResetFree.presenceFollowsFrame {s t : State} (h : ResetFree s t) : PresenceFollowsFrame s t := by
  obtain ⟨es, ht, hn, hp⟩ := h
  exact .inr ⟨es, ht, not_resetFrame_prefix hn, hp⟩

/-- One action recorded. -/
theorem ResetFree.of_log {s t : State} {e : LineEvent} (he : e ≠ .delay .rstr) (ht : t.trace = s.trace ++ [e])
    (hs : t.status = s.status) : ResetFree s t :=
  ⟨[e], ht, fun hm => he (List.mem_singleton.1 hm).symm, by rw [hs]⟩

theorem resetFree_driveLow : Keeps ResetFree driveLow := fun s => by
  cases h : s.answer 0 with
  | works l => rw [driveLow_works h]; exact .of_log (e := .driveLow) (by decide) rfl rfl
  | fails o => rw [driveLow_fails h]; exact .of_log (e := .failed .driveLow) (by decide) rfl rfl

theorem resetFree_release : Keeps ResetFree release := fun s => by
  cases h : s.answer 0 with
  | works l => rw [release_works h]; exact .of_log (e := .release) (by decide) rfl rfl
  | fails o => rw [release_fails h]; exact .of_log (e := .failed .release) (by decide) rfl rfl

theorem resetFree_sample : Keeps ResetFree sample := fun s => by
  cases h : s.answer 0 with
  | works l => rw [sample_works h]; exact .of_log (e := .sample (s.lineLevel l)) (by simp) rfl rfl
  | fails o => rw [sample_fails h]; exact .of_log (e := .failed .sample) (by decide) rfl rfl

theorem resetFree_delay {d : Duration} (h : d ≠ .rstr) : Keeps ResetFree (delay d) := fun _ =>
  .of_log (e := .delay d) (by simpa using h) rfl rfl

section
variable {α β : Type}

theorem ResetFree.andThen {p : Proc α} {f : α → Proc β} (hp : Keeps ResetFree p) (hf : ∀ a, Keeps ResetFree (f a)) :
    Keeps ResetFree (p.andThen f) := keeps_andThen ResetFree.trans hp hf

theorem ResetFree.pure (a : α) : Keeps ResetFree (Proc.pure a) := keeps_pure ResetFree.refl a

theorem ResetFree.update {g : State → State}
    (hg : ∀ s, (g s).trace = s.trace ∧ statusPresence (g s).status = statusPresence s.status) :
    Keeps ResetFree (Proc.update g) := fun s => .of_eq (hg s).1 (hg s).2

end

theorem resetFree_writeBit (b : Bool) : Keeps ResetFree (writeBit b) :=
  ResetFree.andThen resetFree_driveLow fun _ => ResetFree.andThen (resetFree_delay (by cases b <;> decide)) fun _ =>
    ResetFree.andThen resetFree_release fun _ => resetFree_delay (by cases b <;> decide)

theorem resetFree_readBit : Keeps ResetFree readBit :=
  ResetFree.andThen resetFree_driveLow fun _ => ResetFree.andThen (resetFree_delay (by decide)) fun _ =>
    ResetFree.andThen resetFree_release fun _ => ResetFree.andThen (resetFree_delay (by decide)) fun _ =>
      ResetFree.andThen resetFree_sample fun l => ResetFree.andThen (resetFree_delay (by decide)) fun _ =>
        ResetFree.pure l

theorem resetFree_writeByte (v : Byte) : Keeps ResetFree (writeByte v) :=
  keeps_forEach ResetFree.refl ResetFree.trans fun i _ => resetFree_writeBit (v.getLsbD i)

theorem resetFree_readByte : Keeps ResetFree readByte :=
  keeps_fold ResetFree.refl ResetFree.trans
    (fun v i _ => ResetFree.andThen resetFree_readBit fun b => ResetFree.pure (setBit v i b)) _

/-! ## The statement -/

theorem searchNextBody_presenceFollowsFrame (s : State) : PresenceFollowsFrame s (searchNextBody s).state := by
  cases h : s.sHalt || s.searchComplete with
  | true =>
    rw [searchNextBody_ended h]
    exact ResetFree.presenceFollowsFrame (t := s.setFound false) (.of_eq rfl (by simp))
  | false =>
    rw [searchNextBody_runs h]
    have hpass := (searchPass_beginsWithReset s.steerPosition s.sAddr s.sAlarm).presenceFollowsFrame (s.setFound false)
    rcases nextPassBody_cases s.sAlarm s with ⟨c, t, hr, -, -, he⟩ | ⟨e, t, hr, -, he⟩ <;> rw [hr] at hpass <;> rw [he]
    · exact hpass.congr rfl (by simp) rfl (by simp [State.commitPass])
    · exact hpass.congr rfl (by simp) rfl (by simp)

theorem bodyOf_presenceFollowsFrame (i : Instr) (s : State) : PresenceFollowsFrame s (bodyOf i s).state := by
  have free (hb : Keeps ResetFree (bodyOf i)) : PresenceFollowsFrame s (bodyOf i s).state :=
    (hb s).presenceFollowsFrame
  have resets (hi : i ∈ [Instr.reset, .select, .skipSelect, .readRom, .romRead, .romMatch, .romSkip, .romSearch,
      .romAlarmSearch]) : PresenceFollowsFrame s (bodyOf i s).state := by
    obtain ⟨p, hp, hb⟩ := bodyOf_beginsWithReset hi s
    rw [hb]
    exact hp.presenceFollowsFrame s
  cases i with
  | reset | select | skipSelect | readRom | romRead | romMatch | romSkip | romSearch | romAlarmSearch =>
    exact resets (by decide)
  | searchNext => exact searchNextBody_presenceFollowsFrame s
  | writeBit b => exact free (resetFree_writeBit b)
  | readBit => exact free (ResetFree.andThen resetFree_readBit fun _ => ResetFree.update fun _ => ⟨rfl, rfl⟩)
  | writeByte v => exact free (resetFree_writeByte v)
  | readByte => exact free (ResetFree.andThen resetFree_readByte fun _ => ResetFree.update fun _ => ⟨rfl, rfl⟩)
  | writeBytes n =>
    exact free (keeps_forEach ResetFree.refl ResetFree.trans fun k _ u => resetFree_writeByte (u.bufByte k) u)
  | readBytes n =>
    exact free (keeps_forEach ResetFree.refl ResetFree.trans fun k _ =>
      ResetFree.andThen resetFree_readByte fun _ => ResetFree.update fun _ => ⟨rfl, rfl⟩)
  | searchInit alarm => exact free (ResetFree.update fun u => ⟨rfl, statusPresence_withFound u.status false⟩)
  | crc8 n => exact free (ResetFree.update fun _ => ⟨rfl, rfl⟩)
  | reserved0 | reservedE | reservedF => exact free (keeps_raise ResetFree.refl _)

theorem exec_presenceFollowsFrame {i : Instr} {s t : State} (h : exec i s = .next t) : PresenceFollowsFrame s t := by
  obtain ⟨-, rfl⟩ := exec_next h
  exact (bodyOf_presenceFollowsFrame i s).congr rfl rfl (endOperation_trace _) (endOperation_presence _)

/-- A record begins with one reset frame at most: its low samples and its presence sample can be read off. -/
theorem resetFrame_append_inj {lows lows' : Nat} {level level' : Bool} {es fs : List LineEvent}
    (h : resetFrame lows level ++ es = resetFrame lows' level' ++ fs) : lows = lows' ∧ level = level' := by
  induction lows generalizing lows' with
  | zero =>
    cases lows' with
    | zero =>
      simp only [resetFrame, lowSamples, resetPulseEvents, List.nil_append, List.cons_append, List.cons.injEq,
        LineEvent.sample.injEq, true_and] at h
      exact ⟨rfl, h.1⟩
    | succ n => simp [resetFrame, lowSamples] at h
  | succ m ih =>
    cases lows' with
    | zero => simp [resetFrame, lowSamples] at h
    | succ n =>
      obtain ⟨hm, hl⟩ := ih (lows' := n) (by simpa [resetFrame, lowSamples] using h)
      exact ⟨congrArg (· + 1) hm, hl⟩

/-- The code after `RESET`, and what an error of it leaves of `PRESENCE` (R112, R191). -/
theorem exec_reset_cases {s t : State} (h : exec .reset s = .next t) :
    statusCode t.status = 0 ∨
    ((statusCode t.status = 1 ∨ statusCode t.status = 2) ∧ statusPresence t.status = statusPresence s.status) := by
  obtain ⟨-, rfl⟩ := exec_next h
  rw [endOperation_code, endOperation_presence, bodyOf]
  rcases resetSequence_cases s with ⟨lows, level, u, -, -, hr, -⟩ | ⟨e, es, u, he, hr, hs, -⟩
  · rw [andThen_done hr]
    exact .inl rfl
  · rw [andThen_raised hr]
    refine .inr ⟨?_, by rw [Res.state_raised, hs]⟩
    rcases he with rfl | rfl
    · exact .inl rfl
    · exact .inr rfl

/-- Settles O17: the code from `exec_reset_cases`, `PRESENCE` from `exec_presenceFollowsFrame`. -/
theorem resetNeverReportsNoPresence : Obligations.ResetNeverReportsNoPresence := by
  refine ⟨fun s t h => ?_, fun i s t h => ?_⟩
  · rcases exec_reset_cases h with hc | ⟨hc, hp⟩
    · exact ⟨.inl hc, fun hn => absurd hc hn⟩
    · exact ⟨.inr hc, fun _ => hp⟩
  · rcases exec_presenceFollowsFrame h with ⟨lows, level, hl, ⟨fs, ht⟩, hp⟩ | ⟨es, ht, hn, hp⟩
    · rw [State.newEvents_of_added (by rw [← ht, List.append_assoc])]
      refine ⟨fun lows' level' ⟨gs, hg⟩ => ?_, fun hn => absurd (List.prefix_append _ _) (hn lows level hl)⟩
      rw [hp, (resetFrame_append_inj hg).2]
    · rw [State.newEvents_of_added ht]
      exact ⟨fun lows level hf => absurd hf (hn lows level), fun _ => hp⟩

end Sys2Proof.Machine
end

section
/-! PROOFS of the statements of spec/41_line_primitives.md about the slots, as sequencers (O57, O58) and as operations (O18,
O19), and about failed actions (O42). -/

namespace Sys2Proof.Machine
open Proc

/-! ## The write slot (R113) -/

theorem writeSlot_eq (b : Bool) :
    writeSlot b = [.driveLow, .delay (if b then .w1l else .w0l), .release, .delay (if b then .w1r else .w0r)] := by
  cases b <;> rfl

/-- Where a failing `DriveLow` ends the slot. -/
theorem writeBit_faulted_drive {s : State} {o : FaultedOutput} (h : s.answer 0 = .fails o) (b : Bool) :
    writeBit b s = .raised .lineFault (s.faulted 0 o [.failed .driveLow]) := writeBit_fails_drive h b

/-- Where a failing `Release` ends it. -/
theorem writeBit_faulted_release {s : State} {o : FaultedOutput} (hw : s.Works 1) (h : s.answer 1 = .fails o) (b : Bool) :
    writeBit b s = .raised .lineFault
      (s.faulted 1 o [.driveLow, .delay (if b then .w1l else .w0l), .failed .release]) := by
  rw [writeBit_fails_release hw h b, List.append_assoc, writeSlot_eq]
  rfl

/-- `OE <- 1` (R21). -/
theorem driveLow_done_oe {s u : State} (h : driveLow s = .done () u) : u.oe = true := by
  cases ha : s.answer 0 with
  | works l =>
    rw [driveLow_works ha] at h
    cases h
    rfl
  | fails o =>
    rw [driveLow_fails ha] at h
    cases h

theorem LineAnswer.fails_of_not_ok {a : LineAnswer} (h : a.ok = false) : ∃ o, a = .fails o := by
  cases a with
  | works l => cases h
  | fails o => exact ⟨o, rfl⟩

/-- Settles O57: the slot when both actions work, and where each failing action ends it. -/
theorem bitWriteSequencerFollowsItsRule : Obligations.BitWriteSequencerFollowsItsRule := by
  refine fun s b => ⟨fun hw => ?_, fun _ => driveLow_done_oe, fun h => ?_, fun hw h => ?_⟩
  · rw [writeBit_works hw, writeSlot_eq]
  · obtain ⟨o, ho⟩ := LineAnswer.fails_of_not_ok h
    exact ⟨o, writeBit_faulted_drive ho b⟩
  · obtain ⟨o, ho⟩ := LineAnswer.fails_of_not_ok h
    exact ⟨o, writeBit_faulted_release hw ho b⟩

/-! ## The read slot (R114) -/

theorem readBit_faulted_drive {s : State} {o : FaultedOutput} (h : s.answer 0 = .fails o) :
    readBit s = .raised .lineFault (s.faulted 0 o [.failed .driveLow]) := readBit_fails_drive h

theorem readBit_faulted_release {s : State} {o : FaultedOutput} (hw : s.Works 1) (h : s.answer 1 = .fails o) :
    readBit s = .raised .lineFault (s.faulted 1 o [.driveLow, .delay .rdl, .failed .release]) :=
  readBit_fails_release hw h

/-- A failing `Sample` leaves the line as the `Release` before it did (R221). -/
theorem readBit_faulted_sample {s : State} {o : FaultedOutput} (hw : s.Works 2) (h : s.answer 2 = .fails o) :
    readBit s = .raised .lineFault
      (s.faulted 2 .released [.driveLow, .delay .rdl, .release, .delay .rds, .failed .sample]) :=
  readBit_fails_sample hw h

/-- Settles O58: the slot when all three actions work, and where each failing action ends it. -/
theorem bitReadSequencerFollowsItsRule : Obligations.BitReadSequencerFollowsItsRule := by
  refine fun s => ⟨readBit_works, fun _ => driveLow_done_oe, fun h => ?_, fun hw h => ?_, fun hw h => ?_⟩ <;>
    obtain ⟨o, ho⟩ := LineAnswer.fails_of_not_ok h
  · exact ⟨o, readBit_faulted_drive ho⟩
  · exact ⟨o, readBit_faulted_release hw ho⟩
  · exact ⟨.released, readBit_faulted_sample hw ho⟩

/-! ## `WRITE_BIT` and `READ_BIT` (R192, R193) -/

theorem exec_writeBit (b : Bool) (s : State) : exec (.writeBit b) s = .next (endOperation (writeBit b s)) :=
  exec_eq (.writeBit b) s rfl

/-- Settles O18: the write slot, and the end of the operation. -/
theorem writeBitSendsOneSlot : Obligations.WriteBitSendsOneSlot := by
  refine fun s b => ⟨fun hw => ?_, fun o h => ?_, fun o hw h => ?_⟩ <;> rw [exec_writeBit]
  · rw [writeBit_works hw]
    rfl
  · rw [writeBit_faulted_drive h]
    rfl
  · rw [writeBit_faulted_release hw h]
    rfl

theorem exec_readBit_done {s t : State} {b : Bool} (h : readBit s = .done b t) :
    exec .readBit s = .next (((t.setData (zextBit b)).setOe false).setCode okCode) := by
  rw [exec_eq .readBit s rfl, bodyOf, andThen_done h]
  rfl

/-- A failed action of the slot ends the operation, `DATA` not written (R23, R193). -/
theorem exec_readBit_lineFault {s t : State} (h : readBit s = .raised .lineFault t) :
    exec .readBit s = .next (t.setCode 1) := by
  rw [exec_eq .readBit s rfl, bodyOf, andThen_raised h]
  rfl

/-- Settles O19: the read slot, and the end of the operation. -/
theorem readBitSamplesOneSlot : Obligations.ReadBitSamplesOneSlot := fun _ =>
  ⟨fun hw => exec_readBit_done (readBit_works hw), fun _ h => exec_readBit_lineFault (readBit_faulted_drive h),
    fun _ hw h => exec_readBit_lineFault (readBit_faulted_release hw h),
    fun _ hw h => exec_readBit_lineFault (readBit_faulted_sample hw h)⟩

/-! ## Failed actions in the record (R110, R227) -/

theorem not_isFailed_lowSamples (k : Nat) : ∀ e ∈ lowSamples k, e.isFailed = false := by
  induction k with
  | zero => exact fun e he => absurd he List.not_mem_nil
  | succ k ih => simpa [lowSamples, LineEvent.isFailed] using ih

/-- No action of a whole shape has failed. -/
theorem not_isFailed_of_shape (sh : LineShape) : ∀ e ∈ sh.events, e.isFailed = false := by
  cases sh with
  | stuckLow => exact not_isFailed_lowSamples Config.nWh
  | writeSlot b => simp [LineShape.events, writeSlot_eq, LineEvent.isFailed]
  | readSlot level => simp [LineShape.events, readSlot, LineEvent.isFailed]
  | resetFrame lows level =>
    exact List.forall_mem_append.2
      ⟨not_isFailed_lowSamples lows, by simp [resetPulseEvents, LineEvent.isFailed]⟩

theorem not_isFailed_of_shapes {shapes : List LineShape} {e : LineEvent} (he : e ∈ shapes.flatMap LineShape.events) :
    e.isFailed = false := by
  obtain ⟨sh, -, he⟩ := List.mem_flatMap.1 he
  exact not_isFailed_of_shape sh e he

theorem BeginsShape.not_isFailed {es : List LineEvent} (h : BeginsShape es) {e : LineEvent} (he : e ∈ es) :
    e.isFailed = false := by
  obtain ⟨sh, -, hp⟩ := h
  exact not_isFailed_of_shape sh e (hp.subset he)

/-- Settles O42: whole shapes hold no failed action, and the shape that `LINE_FAULT` cuts short ends with one. -/
theorem lineFaultEndsOperationAtOnce : Obligations.LineFaultEndsOperationAtOnce := by
  intro i s t h
  rcases exec_shapes h with ⟨hc, shapes, -, es, a, level, hcut, ht⟩ | ⟨hc, shapes, -, ht⟩
  · refine ⟨shapes.flatMap LineShape.events ++ es ++ [.failed a], ?_, fun e he => ?_, fun _ => ?_, fun _ => hc⟩
    · rw [ht, List.append_assoc, List.append_assoc]
    · rw [List.dropLast_concat] at he
      rcases List.mem_append.1 he with he | he
      · exact not_isFailed_of_shapes he
      · exact hcut.not_isFailed (List.mem_append_left _ he)
    · exact ⟨.failed a, List.getLast?_concat, rfl⟩
  · refine ⟨shapes.flatMap LineShape.events, ht, fun e he => not_isFailed_of_shapes (List.mem_of_mem_dropLast he),
      fun h1 => absurd h1 hc, fun ⟨e, hlast, hf⟩ => ?_⟩
    rw [not_isFailed_of_shapes (List.mem_of_getLast? hlast)] at hf
    cases hf

end Sys2Proof.Machine
end

section
/-! PROOFS of the statements of spec/42_byte_transfer.md: one byte sent or received (O20, O21), a block sent (O22), a block
received, whole or up to a failing action (O23, O24), and what a block read leaves as it was (O49). -/

namespace Sys2Proof.Machine
open Proc

/-! ## How an operation ends with `OK` or with `LINE_FAULT` (R190, R221, R227) -/

section
variable {i : Instr} {s t : State}

/-- After a body that ended with `OE` at 0 the operation writes `STATUS.CODE` alone (R38, R205). -/
theorem exec_of_done (hi : i.WellFormed = true) (hoe : t.oe = false) (h : bodyOf i s = .done () t) :
    exec i s = .next (t.setCode okCode) := by
  have ht : t.setOe false = t := by rw [← hoe, State.setOe_oe_self]
  rw [exec_eq i s hi, h, endOperation_done, ht]

/-- After a failed action too: `OE` stays as that action left it (R221). -/
theorem exec_of_lineFault (hi : i.WellFormed = true) (h : bodyOf i s = .raised .lineFault t) :
    exec i s = .next (t.setCode ErrorKind.lineFault.code) := by
  rw [exec_eq i s hi, h]
  rfl

end

/-! ## One byte (R131, R132, R194, R195) -/

/-- Settles O20: the byte as eight write slots (`writeByte_works`), or cut at the failing action (`writeByte_fails`). -/
theorem writeByteSendsBitsInOrder : Obligations.WriteByteSendsBitsInOrder := fun _ v =>
  ⟨fun hw => exec_of_done rfl rfl (writeByte_works hw v),
    fun _ _ hk hw hf => exec_of_lineFault rfl (writeByte_fails hk hw hf v)⟩

/-- A byte is the byte of its bits. -/
theorem byteOfBits_eq {bit : Nat → Bool} {v : Byte} (h : ∀ i < 8, v.getLsbD i = bit i) : byteOfBits bit = v :=
  BitVec.eq_of_getLsbD_eq fun i hi => by rw [getLsbD_byteOfBits bit i hi, h i hi]

/-- Settles O21: `DATA` is the byte of the sampled bits (`readByte_works`); a failing action ends the operation before
`DATA` is written (`readByte_fails`). -/
theorem readByteAssemblesBitsInOrder : Obligations.ReadByteAssemblesBitsInOrder := by
  refine fun s => ⟨fun v hw hv => ?_, fun k o hk hw hf => ?_⟩
  · have hread := readByte_works hw
    rw [byteOfBits_eq (bit := s.readBitAt) hv] at hread
    exact exec_of_done rfl rfl (andThen_done hread)
  · exact exec_of_lineFault rfl (andThen_raised (readByte_fails hk hw hf))

/-! ## A block sent (R133, R196) -/

/-- Settles O22: the block as byte frames (`writeBlock_works`), nothing for `n = 0`, or cut at the failing action
(`writeBlock_fails`). -/
theorem writeBytesSendsBlock : Obligations.WriteBytesSendsBlock := by
  refine fun s n hn => ⟨fun hpos hw => ?_, fun h0 => ?_, fun k o hk hw hf => ?_⟩
  · have hsent := writeBlock_works n hw
    rw [if_neg (Nat.ne_of_gt hpos)] at hsent
    exact exec_of_done (decide_eq_true hn) rfl hsent
  · subst h0
    exact exec_eq (.writeBytes 0) s rfl
  · exact exec_of_lineFault (decide_eq_true hn) (writeBlock_fails hk hw hf)

/-! ## A block received (R134, R197, R207) -/

section
variable (s : State) (vs : Nat → Byte) (n : Nat)

/-- Storing a block changes `BUF` alone. -/
theorem State.fillBuf_eq : s.fillBuf vs n = { s with buf := (s.fillBuf vs n).buf } := by
  induction n with
  | zero => rfl
  | succ n ih =>
    rw [State.fillBuf, ih]
    rfl

@[simp] theorem State.fillBuf_oe : (s.fillBuf vs n).oe = s.oe := by rw [State.fillBuf_eq]

theorem State.fillBuf_setCode (c : BitVec 3) : (s.fillBuf vs n).setCode c = (s.setCode c).fillBuf vs n := by
  induction n with
  | zero => rfl
  | succ n ih =>
    rw [State.fillBuf, State.fillBuf, ← ih]
    rfl

end

/-- A block read that ends with the first `m` bytes received stored: those hold the bits as they were sampled, the others
what they held, and nothing else differs from the state `u` the line activity and the end of the operation lead to. -/
theorem exec_fillBuf_blockByte {i : Instr} {s u : State} {m : Nat} (hexec : exec i s = .next (u.fillBuf s.blockByte m))
    (hu : ∀ k, u.bufByte k = s.bufByte k) :
    ∃ t, exec i s = .next t ∧
      (∀ k < m, ∀ i < 8, (t.bufByte k).getLsbD i = s.level (3 * (8 * k + i) + 2)) ∧
      (∀ k, m ≤ k → t.bufByte k = s.bufByte k) ∧ t = { u with buf := t.buf } := by
  refine ⟨_, hexec, fun k hk i hi => ?_, fun k hk => ?_, State.fillBuf_eq u _ m⟩
  · rw [State.bufByte_fillBuf, if_pos hk, State.blockByte, getLsbD_byteOfBits _ i hi, State.readBitAt]
  · rw [State.bufByte_fillBuf, if_neg (Nat.not_lt.2 hk), hu k]

/-- Settles O23: the whole block is read (`readBlock_works`) and stored (`exec_fillBuf_blockByte`); nothing for `n = 0`. -/
theorem readBytesFillsBlock : Obligations.ReadBytesFillsBlock := by
  refine fun s n hn => ⟨fun hpos hw => ?_, fun h0 => ?_⟩
  · have hread := readBlock_works n hw
    rw [if_neg (Nat.ne_of_gt hpos), readByteEvents_block s.readBitAt] at hread
    have hexec := exec_of_done (i := .readBytes n) (decide_eq_true hn) (State.fillBuf_oe _ _ n) hread
    rw [State.fillBuf_setCode] at hexec
    exact exec_fillBuf_blockByte hexec fun _ => rfl
  · subst h0
    exact exec_eq (.readBytes 0) s rfl

/-- Settles O24: the bytes complete before the failing action are stored (`readBlock_fails`, `exec_fillBuf_blockByte`). -/
theorem failedBlockReadKeepsCompletedBytes : Obligations.FailedBlockReadKeepsCompletedBytes := by
  intro s n k o hn hk hw hf
  have hexec := exec_of_lineFault (i := .readBytes n) (decide_eq_true hn) (readBlock_fails hk hw hf)
  rw [State.fillBuf_setCode] at hexec
  exact exec_fillBuf_blockByte hexec fun _ => rfl

/-! ## What a block read leaves as it was, whatever the line answers (R29, R134) -/

/-- What `READ_BYTES n` does not change, the `SearchFrame` apart. -/
structure BlockReadFrame (n : Nat) (s t : State) : Prop where
  bufByte : ∀ k, n ≤ k → t.bufByte k = s.bufByte k
  addr : t.addr = s.addr
  data : t.data = s.data
  presence : statusPresence t.status = statusPresence s.status

section
variable {n : Nat}

theorem BlockReadFrame.refl (s : State) : BlockReadFrame n s s := ⟨fun _ _ => rfl, rfl, rfl, rfl⟩

theorem BlockReadFrame.trans (s t u : State) (h1 : BlockReadFrame n s t) (h2 : BlockReadFrame n t u) :
    BlockReadFrame n s u :=
  ⟨fun k hk => (h2.bufByte k hk).trans (h1.bufByte k hk), h2.addr.trans h1.addr, h2.data.trans h1.data,
    h2.presence.trans h1.presence⟩

theorem RegisterFrame.blockReadFrame {s t : State} (h : RegisterFrame s t)
    (hp : statusPresence t.status = statusPresence s.status) : BlockReadFrame n s t :=
  ⟨fun k _ => h.bufByte k, h.addr, h.data, hp⟩

theorem LineRun.blockReadFrame {s t : State} (h : LineRun s t) : BlockReadFrame n s t :=
  h.toReset.registerFrame.blockReadFrame h.presence_eq

theorem blockReadFrame_bufWrite {k : Nat} (hk : k < n) (s : State) (v : Byte) : BlockReadFrame n s (s.bufWrite k v) :=
  ⟨fun i hi => State.bufByte_bufWrite_other s k i v (Nat.ne_of_gt (Nat.lt_of_lt_of_le hk hi)), rfl, rfl, rfl⟩

/-- Each byte of the block is line activity, then at most a write of `BUF` below `n`. -/
theorem keeps_blockReadFrame_readBlock (n : Nat) : Keeps (BlockReadFrame n) (readBlock n) := by
  refine keeps_forEach .refl .trans fun k hk s => ?_
  rcases readBufByte_cases k s with ⟨v, u, hu, hr⟩ | ⟨e, u, hu, hr⟩ <;> rw [hr]
  · exact hu.blockReadFrame.trans _ _ _ (blockReadFrame_bufWrite (List.mem_range.1 hk) u v)
  · exact hu.blockReadFrame

end

/-- Settles O49: the frame of the block read with the end of the operation, and that of every operation outside the
search. -/
theorem readBytesFrame : Obligations.ReadBytesFrame := by
  intro s t n h
  obtain ⟨hs, -⟩ := exec_outside_search (fun _ hi => by cases hi) (fun hi => by cases hi) h
  have hb : BlockReadFrame n s t := by
    obtain ⟨-, rfl⟩ := exec_next h
    exact (keeps_blockReadFrame_readBlock n s).trans _ _ _
      ((endOperation_registerFrame _).blockReadFrame (endOperation_presence _))
  exact ⟨hb.bufByte, hb.addr, hb.data, hs.sAddr, hs.sLd, hs.sFirst, hs.sAlarm, hs.sHalt, hs.inputs, hs.resets,
    hb.presence, hs.found, hs.reserved⟩

end Sys2Proof.Machine
end

section
/-! PROOFS of the statements of spec/43_rom_commands.md: Skip ROM, Match ROM and Read ROM complete (O25, O26, O27),
every ROM command ended by no presence (O28), and Read ROM on the simulated line (O38). -/

namespace Sys2Proof.Machine
open Proc

/-! ## Frames whose presence was sampled (R141 to R144, R198 to R200) -/

/-- A frame that ends after presence was sampled leaves nothing changed but `STATUS` and the line (R112, R205). -/
theorem exec_of_frame_done {i : Instr} {s : State} {n : Nat} {es : List LineEvent} (hi : i.WellFormed = true)
    (h : bodyOf i s = .done () ((s.after n es).sawPresence false)) :
    exec i s = .next { s.after n es with status := withCode (withPresence s.status true) okCode } :=
  exec_of_done hi rfl h

/-- Settles O25: `romStart_works` is the whole frame. -/
theorem skipSelectCompletes : Obligations.SkipSelectCompletes := by
  intro s j h i hi
  rcases List.mem_pair.1 hi with rfl | rfl
  · exact exec_of_frame_done rfl (romStart_works h _)
  · exact exec_of_frame_done rfl (romStart_works h _)

/-- Settles O26: `matchRomFrame_works` with the address in `ADDR`. -/
theorem selectSendsAddress : Obligations.SelectSendsAddress := by
  intro s j h i hi
  rcases List.mem_pair.1 hi with rfl | rfl
  · exact exec_of_frame_done rfl (matchRomFrame_works h s.addr)
  · exact exec_of_frame_done rfl (matchRomFrame_works h s.addr)

/-- After an error that left `OE` at 0 the operation writes `STATUS.CODE` alone (R205, R227). -/
theorem exec_of_raised {i : Instr} {s t : State} {e : ErrorKind} (hi : i.WellFormed = true) (hoe : t.oe = false)
    (h : bodyOf i s = .raised e t) : exec i s = .next (t.setCode e.code) := by
  rw [exec_eq i s hi, h, endOperation_raised_of_oe hoe]

theorem wellFormed_readRom {i : Instr} (hi : i ∈ [Instr.readRom, .romRead]) : i.WellFormed = true := by
  rcases List.mem_pair.1 hi with rfl | rfl <;> rfl

/-- Settles O27: after the 64 read slots (`readRomFrame_works`) the checksum test decides whether `ADDR` is written. -/
theorem readRomStoresValidAddress : Obligations.ReadRomStoresValidAddress := by
  intro s j a h ha i hi
  have hframe := readRomFrame_works h a ha
  have hbody : bodyOf i s = readRomBody s := by rw [bodyOf_readRom hi]
  cases hv : addressValid a <;> simp only [hv, Bool.false_eq_true, if_false, if_true] at hframe ⊢
  · exact exec_of_raised (wellFormed_readRom hi) rfl (hbody.trans (andThen_raised hframe))
  · exact exec_of_done (wellFormed_readRom hi) rfl (hbody.trans (andThen_done hframe))

/-! ## No presence (R141, R175, R223) -/

/-- An error of `RomStart`, whatever the command, ends a search pass (R171). -/
theorem searchPass_of_romStart_raised {s u : State} {e : ErrorKind} (h : ∀ code, romStart code s = .raised e u)
    (ld : Nat) (prev : Address) (alarm : Bool) : searchPass ld prev alarm s = .raised e u := andThen_raised (h _)

/-- And every other operation with a ROM command (R142 to R146, R198 to R200). -/
theorem exec_of_romStart_raised {i : Instr}
    (hi : i ∈ [Instr.select, .skipSelect, .readRom, .romRead, .romMatch, .romSkip, .romSearch, .romAlarmSearch])
    {s u : State} {e : ErrorKind} (hoe : u.oe = false) (h : ∀ code, romStart code s = .raised e u) :
    exec i s = .next (u.setCode e.code) := by
  cases i with
  | skipSelect | romSkip => exact exec_of_raised rfl hoe (h _)
  | select | romMatch => exact exec_of_raised rfl hoe (andThen_raised (h _))
  | readRom | romRead => exact exec_of_raised rfl hoe (andThen_raised (andThen_raised (h _)))
  | romSearch | romAlarmSearch =>
    exact exec_of_raised rfl hoe (searchFrameBody_raised (searchPass_of_romStart_raised h _ _ _))
  | _ => simp at hi

/-- Settles O28: `RomStart` raises after its reset frame (`romStart_noPresence`), which ends the operation; a
`SEARCH_NEXT` has cleared `FOUND` before, and halts. -/
theorem noPresenceEndsRomCommands : Obligations.NoPresenceEndsRomCommands := by
  intro s j hs hj hw hlow hhigh hp
  refine ⟨fun i hi => exec_of_romStart_raised hi rfl (romStart_noPresence hs j hj hw hlow hhigh hp),
    fun alarm hrun => ?_⟩
  have hstart := romStart_noPresence (s := s.setFound false) hs j hj hw hlow hhigh hp
  rw [hrun.exec_eq, nextPassBody_raised (searchPass_of_romStart_raised hstart _ _ _), endOperation_raised_of_oe rfl]
  rfl

/-! ## Read ROM on the simulated line (R142, R259, U3, log 17) -/

/-- What the devices answer together when each answers bit `b` of its address. -/
def wiredBit (devices : List Device) (b : Nat) : Bool := devices.all fun d => d.addr.getLsbD b

/-- On the line the devices participate and answer bit `n` of their addresses next. -/
structure Sending (devices : List Device) (n : Nat) (l : SimLine) : Prop where
  active : l.active = devices
  phase : n < 64 → l.phase = .sendAddress n

/-- The first `n` bits of `v` are what the devices answered together from bit `start` of their addresses on. -/
structure Received (devices : List Device) (start n : Nat) {w : Nat} (v : BitVec w) (l : SimLine) : Prop where
  bits : ∀ i < n, v.getLsbD i = wiredBit devices (start + i)
  sending : Sending devices (start + n) l

section
variable {devices : List Device} {l : SimLine}

theorem Sending.received_zero {start w : Nat} (h : Sending devices start l) (v : BitVec w) :
    Received devices start 0 v l := ⟨fun i hi => absurd hi (Nat.not_lt_zero i), h⟩

theorem Sending.readBit {n : Nat} (h : Sending devices n l) (hn : n < 64) :
    OnLine l readBit fun b m => b = wiredBit devices n ∧ Sending devices (n + 1) m := by
  refine onLine_readBit fun level m hm => ?_
  simp only [SimLine.answerBit, h.phase hn] at hm
  split at hm
  · rename_i hl
    obtain rfl := Option.some.inj hm
    exact ⟨by rw [hl, SimLine.wiredAnd, h.active, wiredBit], h.active, fun h63 => if_pos (by omega)⟩
  · cases hm

/-- One more bit of a byte (R132). -/
theorem Received.setBit {start n : Nat} {v : Byte} (hn : n < 8) (h : Received devices start n v l) {m : SimLine}
    (hm : Sending devices (start + n + 1) m) :
    Received devices start (n + 1) (setBit v n (wiredBit devices (start + n))) m := by
  refine ⟨fun i hi => ?_, hm⟩
  rcases Nat.lt_succ_iff_lt_or_eq.1 hi with hi | rfl
  · rw [getLsbD_setBit_of_ne _ _ _ _ (Nat.ne_of_lt hi), h.bits i hi]
  · exact getLsbD_setBit_self _ _ _ hn

theorem Sending.readByte {start : Nat} (h : Sending devices start l) (hs : start + 8 ≤ 64) :
    OnLine l readByte (Received devices start 8) := by
  rw [Machine.readByte, List.range_eq_range']
  refine .fold_range' (I := fun n => Received devices start n) (fun v i => .andThen .readBit fun b => .pure _)
    (fun n hn v m hm => ?_) (h.received_zero 0)
  refine .slots .readBit (fun b => .pure _) ((hm.sending.readBit (by omega)).mono ?_)
  rintro b m' ⟨rfl, hm'⟩
  rw [Nat.zero_add]
  exact .pure (hm.setBit hn hm')

/-- One more byte of an address (R80). -/
theorem Received.setAddrByte {k : Nat} {a : Address} (hk : k < 8) (h : Received devices 0 (8 * k) a l) {v : Byte}
    {m : SimLine} (hv : Received devices (8 * k) 8 v m) : Received devices 0 (8 * (k + 1)) (setAddrByte a k v) m := by
  refine ⟨fun b hb => ?_, by rw [Nat.zero_add]; exact hv.sending⟩
  rw [getLsbD_setAddrByte a k v hk]
  by_cases hbyte : 8 * k ≤ b ∧ b < 8 * k + 8
  · rw [if_pos hbyte, hv.bits _ (by omega), Nat.add_sub_cancel' hbyte.1, Nat.zero_add]
  · rw [if_neg hbyte, h.bits b (by omega)]

theorem Sending.readAddress (h : Sending devices 0 l) : OnLine l readAddress (Received devices 0 64) := by
  rw [Machine.readAddress, List.range_eq_range']
  refine .fold_range' (I := fun k => Received devices 0 (8 * k))
    (fun a k => .andThen slotProc_readByte fun v => .pure _) (fun k hk a m hm => ?_) (h.received_zero 0)
  have hnext := hm.sending
  rw [Nat.zero_add] at hnext
  refine .slots slotProc_readByte (fun v => .pure _) ((hnext.readByte (by omega)).mono fun v m' hv => ?_)
  rw [Nat.zero_add]
  exact .pure (hm.setAddrByte hk hv)

end

theorem SimLine.runCommand_readRom (l : SimLine) :
    l.runCommand (byteBits Config.romCodes.readRom) = { l with phase := .sendAddress 0 } := by
  rw [runCommand, if_neg (by decide), if_neg (by decide), if_pos rfl]

/-- Read ROM up to its checksum test (R142). -/
def receiveAddress : Proc Address := (romStart Config.romCodes.readRom).andThen fun _ => readAddress

theorem onLine_receiveAddress {l : SimLine} (hl : l.pending = .none) (hp : l.population ≠ []) :
    OnLine l receiveAddress fun a _ => ∀ b < 64, a.getLsbD b = wiredBit l.population b := by
  refine .slots (slotProc_romStart _) (fun _ => slotProc_readAddress) ((onLine_romStart hl hp _).mono ?_)
  rintro - m rfl
  rw [SimLine.runCommand_readRom]
  refine (Sending.readAddress ⟨rfl, fun _ => rfl⟩).mono fun a m h b hb => ?_
  rw [h.bits b hb, Nat.zero_add]
  rfl

/-- The checksum test and the write of `ADDR` (R103, R142, R200). -/
def storeAddress (a : Address) : Proc Unit :=
  (checkAddress a).andThen fun _ => Proc.update fun t => t.setAddr a

theorem storeAddress_apply (a : Address) (s : State) :
    storeAddress a s = if addressValid a then .done () (s.setAddr a) else .raised .crcMismatch s := by
  cases hv : addressValid a <;> simp [storeAddress, checkAddress, hv, andThen]

theorem storeAddress_trace (a : Address) (s : State) : (storeAddress a s).state.trace = s.trace := by
  rw [storeAddress_apply]
  split <;> rfl

theorem readRomBody_eq : readRomBody = receiveAddress.andThen storeAddress := by
  simp only [readRomBody, readRomFrame, receiveAddress, andThen_assoc]
  rfl

/-- The line sees Read ROM as far as its checksum test. -/
theorem readRomBody_trace (s : State) : (readRomBody s).state.trace = (receiveAddress s).state.trace := by
  rw [readRomBody_eq]
  cases h : receiveAddress s with
  | done a u => rw [andThen_done h, storeAddress_trace, Res.state_done]
  | raised e u => rw [andThen_raised h, Res.state_raised, Res.state_raised]

/-- On the simulated line of a population `READ_ROM` reads the AND of the addresses, then tests and stores it. -/
theorem readRomBody_onLine {population : List Device} {s t : State} {a : Address} (hp : population ≠ [])
    (h : exec .readRom s = .next t) (hline : AgreesWith population s t)
    (ha : ∀ b < 64, a.getLsbD b = wiredBit population b) :
    ∃ u, t = endOperation (storeAddress a u) := by
  obtain ⟨-, rfl⟩ := exec_next h
  obtain ⟨l, hrun⟩ := Option.isSome_iff_exists.1 hline
  rw [State.newEvents, endOperation_trace, bodyOf, readRomBody_trace] at hrun
  obtain ⟨a', u, hdone, ha'⟩ := onLine_receiveAddress (l := SimLine.start population) rfl hp s l hrun
  obtain rfl : a' = a := BitVec.eq_of_getLsbD_eq fun b hb => (ha' b hb).trans (ha b hb).symm
  exact ⟨u, by rw [bodyOf, readRomBody_eq, andThen_done hdone]⟩

/-- Settles O38: the checksum test of the AND decides (`readRomBody_onLine`); the AND of one address is that address. -/
theorem readRomReadsWiredAnd : Obligations.ReadRomReadsWiredAnd := by
  intro population s t a hp h hline ha
  obtain ⟨u, ht⟩ := readRomBody_onLine hp h hline ha
  rw [storeAddress_apply] at ht
  have hvalid : addressValid a = true → statusCode t.status = 0 ∧ t.addr = a := fun hv => by
    rw [ht, if_pos hv]
    exact ⟨endOperation_code _, rfl⟩
  refine ⟨hvalid, fun hv => ?_, ?_⟩
  · have hcode : statusCode t.status = 5 := by
      rw [ht, if_neg (by rw [hv]; decide)]
      exact endOperation_code _
    obtain ⟨-, -, -, haddr⟩ := readRom_frame (i := .readRom) (by decide) h
    exact ⟨hcode, haddr (by rw [hcode]; decide)⟩
  · rintro d rfl hd
    obtain rfl : a = d.addr := BitVec.eq_of_getLsbD_eq fun b hb => by
      rw [ha b hb, List.all_cons, List.all_nil, Bool.and_true]
    exact (hvalid hd).2

end Sys2Proof.Machine
end

section
/-! PROOFS of the statements of spec/44_device_search.md: a fresh Search State (O29), a search that has ended (O33), what an
error leaves (O34), the frames of the two search operations (O50), and the enumeration of a population (O36). -/

namespace Sys2Proof.Machine
open Proc

/-! ## `SEARCH_INIT` (R173, R201) -/

theorem exec_searchInit (alarm : Bool) (s : State) :
    exec (.searchInit alarm) s = .next ((((s.searchInit alarm).setFound false).setOe false).setCode okCode) :=
  exec_eq (.searchInit alarm) s rfl

/-- Settles O29: `exec_searchInit`, the registers written out; the two words are closed terms. -/
theorem searchInitCreatesFreshState : Obligations.SearchInitCreatesFreshState :=
  ⟨fun s alarm => exec_searchInit alarm s, rfl, rfl⟩

/-! ## `SEARCH_NEXT` of a search that has ended (R172, R174, R175) -/

theorem searchEnded_iff (s : State) :
    (s.sHalt || s.searchComplete) = true ↔ s.sHalt = true ∨ (s.sFirst = false ∧ s.sLd = 0) := by
  rw [Bool.or_eq_true, State.searchComplete, Bool.and_eq_true, Bool.not_eq_true', beq_iff_eq]

/-- Settles O33: the condition is the test of `searchNext`, and `exec_searchNext_ended` is what follows. -/
theorem endedSearchYieldsNothing : Obligations.EndedSearchYieldsNothing := fun s h =>
  exec_searchNext_ended ((searchEnded_iff s).2 h)

/-! ## `SEARCH_NEXT` that ends in an error (R170, R175, R227) -/

theorem RegisterFrame.setHalt {s t : State} (h : RegisterFrame s t) (b : Bool) :
    RegisterFrame (s.setHalt b) (t.setHalt b) :=
  ⟨⟨h.sAddr, h.sLd, h.sFirst, h.sAlarm, rfl, h.inputs, h.resets, h.found, h.reserved⟩, h.addr, h.data, h.buf⟩

/-- An error leaves the registers as they were, but for `FOUND` cleared and the iterator halted. -/
theorem exec_searchNext_error {s t : State} (h : exec .searchNext s = .next t) (hc : statusCode t.status ≠ 0) :
    RegisterFrame ((s.setFound false).setHalt true) t := by
  rcases exec_searchNext_cases h with ⟨-, rfl⟩ | ⟨c, u, -, -, -, rfl⟩ | ⟨e, u, -, -, hu, rfl⟩
  · exact absurd (statusCode_withCode _ _) hc
  · exact absurd (endOperation_code _) hc
  · exact (hu.registerFrame.setHalt true).trans (endOperation_registerFrame (.raised e _))

/-- A write of the value that `FOUND` holds changes nothing. -/
theorem withFound_eq_self {st : Byte} {b : Bool} (h : statusFound st = b) : withFound st b = st :=
  status_ext _ _ (statusCode_withFound _ _) (statusPresence_withFound _ _) ((statusFound_withFound _ _).trans h.symm)
    (statusReserved_withFound _ _)

/-- Settles O34: the frame of an error, and `SEARCH_NEXT` of the halted search it leaves. -/
theorem searchErrorHaltsIterator : Obligations.SearchErrorHaltsIterator := by
  intro s t h hc
  have hf := exec_searchNext_error h hc
  have hfound : statusFound t.status = false := hf.found.trans (statusFound_withFound _ _)
  refine ⟨hf.addr, hf.sAddr, hf.sLd, hf.sFirst, hfound, hf.sHalt, ?_⟩
  have hnext := endedSearchYieldsNothing t (.inl hf.sHalt)
  rwa [withFound_eq_self hfound] at hnext

/-! ## Frames of the search operations (R170, R173, R201, R202) -/

/-- What `SEARCH_NEXT` leaves as it was however it ends: it may set `S_HALT`, never clear it. -/
structure IteratorFrame (s t : State) : Prop where
  data : t.data = s.data
  buf : t.buf = s.buf
  sAlarm : t.sAlarm = s.sAlarm
  stays_halted : s.sHalt = true → t.sHalt = true
  inputs : t.inputs = s.inputs
  resets : t.resets = s.resets
  reserved : statusReserved t.status = statusReserved s.status

theorem IteratorFrame.trans {s t u : State} (h1 : IteratorFrame s t) (h2 : IteratorFrame t u) : IteratorFrame s u :=
  ⟨h2.data.trans h1.data, h2.buf.trans h1.buf, h2.sAlarm.trans h1.sAlarm, h2.stays_halted ∘ h1.stays_halted,
    h2.inputs.trans h1.inputs, h2.resets.trans h1.resets, h2.reserved.trans h1.reserved⟩

theorem RegisterFrame.iteratorFrame {s t : State} (h : RegisterFrame s t) : IteratorFrame s t :=
  ⟨h.data, h.buf, h.sAlarm, h.sHalt.trans, h.inputs, h.resets, h.reserved⟩

theorem iteratorFrame_setFound (s : State) (b : Bool) : IteratorFrame s (s.setFound b) :=
  ⟨rfl, rfl, rfl, id, rfl, rfl, statusReserved_withFound _ _⟩

theorem iteratorFrame_commit (s : State) (c : Candidate) : IteratorFrame s ((s.commitPass c).setAddr c.a) :=
  ⟨rfl, rfl, rfl, id, rfl, rfl, rfl⟩

theorem iteratorFrame_halt (s : State) : IteratorFrame s (s.setHalt true) :=
  ⟨rfl, rfl, rfl, fun _ => rfl, rfl, rfl, rfl⟩

theorem keeps_iteratorFrame_searchNextBody : Keeps IteratorFrame searchNextBody := by
  intro s
  cases hs : s.sHalt || s.searchComplete with
  | true =>
    rw [searchNextBody_ended hs]
    exact iteratorFrame_setFound s false
  | false =>
    rw [searchNextBody_runs hs]
    rcases nextPassBody_cases s.sAlarm s with ⟨c, u, -, hu, -, he⟩ | ⟨e, u, -, hu, he⟩ <;> rw [he] <;>
      have hpass := (iteratorFrame_setFound s false).trans hu.registerFrame.iteratorFrame
    · exact hpass.trans ((iteratorFrame_commit u c).trans (iteratorFrame_setFound _ true))
    · exact hpass.trans (iteratorFrame_halt u)

theorem exec_searchNext_iteratorFrame {s t : State} (h : exec .searchNext s = .next t) : IteratorFrame s t := by
  obtain ⟨-, rfl⟩ := exec_next h
  exact (keeps_iteratorFrame_searchNextBody s).trans (endOperation_registerFrame _).iteratorFrame

/-- Settles O50: `exec_searchInit`, the frame of `SEARCH_NEXT`, and that of its errors. -/
theorem searchOperationsFrame : Obligations.SearchOperationsFrame := by
  refine fun s t => ⟨fun alarm h => ?_, fun h => ?_⟩
  · obtain rfl := Host.Outcome.next.inj ((exec_searchInit alarm s).symm.trans h)
    refine ⟨rfl, rfl, rfl, rfl, fun _ => rfl, rfl, rfl, rfl, ?_, ?_⟩
    · exact (statusPresence_withCode _ _).trans (statusPresence_withFound _ _)
    · exact (statusReserved_withCode _ _).trans (statusReserved_withFound _ _)
  · have hf := exec_searchNext_iteratorFrame h
    refine ⟨hf.data, State.bufByte_congr s t hf.buf hf.resets, hf.sAlarm, hf.stays_halted, hf.inputs, hf.resets,
      hf.reserved, fun hc => ?_⟩
    have he := exec_searchNext_error h hc
    exact ⟨he.addr, he.sAddr, he.sLd, he.sFirst⟩

/-! ## The enumeration of a population (R174, R176, R177) -/

/-- Settles O36: the enumeration of the devices that answer a Search ROM, which are all of the population. -/
theorem enumerationYieldsPopulation : Obligations.EnumerationYieldsPopulation :=
  fun _ _ _ hne hnodup hvalid h hrun => enumeration_yields_answering (alarm := false) hne hnodup hvalid h hrun

end Sys2Proof.Machine
end

section
/-! PROOFS of the statement of spec/45_bus_controller.md about `STATUS.CODE`: what an operation does does not depend on
the code the previous one left (O45). -/

namespace Sys2Proof.Machine
open Proc

/-! ## `STATUS.CODE` is not read (R29, R205) -/

section
variable (s : State) (c : BitVec 3) (b : Bool)

theorem State.setCode_setPresence : (s.setCode c).setPresence b = (s.setPresence b).setCode c :=
  congrArg s.setStatus (withPresence_withCode s.status c b)

theorem State.setCode_setFound : (s.setCode c).setFound b = (s.setFound b).setCode c :=
  congrArg s.setStatus (withFound_withCode s.status c b)

theorem State.setCode_setCode (d : BitVec 3) : (s.setCode c).setCode d = s.setCode d :=
  congrArg s.setStatus (withCode_withCode s.status c d)

end

/-- Outside the search nothing reads `STATUS.CODE`, and of `STATUS` only `PRESENCE` is written. -/
theorem inert_setCode (c : BitVec 3) : Inert fun s => s.setCode c where
  answer _ _ := rfl
  lineLevel _ _ := rfl
  addr _ := rfl
  bufByte _ _ := rfl
  consume _ _ := rfl
  setOutput _ _ _ := rfl
  log _ _ := rfl
  setPresence s b := s.setCode_setPresence c b
  setData _ _ := rfl
  setAddr _ _ := rfl
  bufWrite _ _ _ := rfl

/-! ## The search does not read it either (R171 to R173, R201, R202) -/

theorem CommutesWith.onRaise {g f : State → State} {α : Type} {p : Proc α} (hp : CommutesWith g p)
    (hf : ∀ s, f (g s) = g (f s)) : CommutesWith g (p.onRaise f) := by
  intro s
  have h := hp s
  cases hr : p s with
  | done a t =>
    rw [hr] at h
    rw [onRaise_done h, onRaise_done hr]
    rfl
  | raised e t =>
    rw [hr] at h
    rw [onRaise_raised h, onRaise_raised hr]
    exact congrArg (Res.raised e) (hf t)

theorem searchPass_ignoresCode (c : BitVec 3) (ld : Nat) (prev : Address) (alarm : Bool) :
    CommutesWith (fun s => s.setCode c) (searchPass ld prev alarm) :=
  (inert_setCode c).slotProc (slotProc_searchPass ld prev alarm)

/-- A pass is steered by the Search State, which writing the code leaves as it was. -/
theorem runPass_ignoresCode (c : BitVec 3) (alarm : Bool) : CommutesWith (fun s => s.setCode c) (runPass alarm) := by
  intro s
  have hpass : CommutesWith (fun s => s.setCode c) (haltOnRaise (searchPass s.steerPosition s.sAddr alarm)) :=
    (searchPass_ignoresCode c s.steerPosition s.sAddr alarm).onRaise fun _ => rfl
  have hcommit (a : Candidate) : CommutesWith (fun s => s.setCode c) (update fun t => t.commitPass a) :=
    .update fun _ => rfl
  exact (hpass.andThen fun a => (hcommit a).andThen fun _ => .pure a.a) s

theorem nextPassBody_ignoresCode (c : BitVec 3) (alarm : Bool) :
    CommutesWith (fun s => s.setCode c) (nextPassBody alarm) :=
  (CommutesWith.update fun s => s.setCode_setFound c false).andThen fun _ =>
    (runPass_ignoresCode c alarm).andThen fun a => .update fun s => (s.setAddr a).setCode_setFound c true

theorem searchNextBody_ignoresCode (c : BitVec 3) : CommutesWith (fun s => s.setCode c) searchNextBody := by
  intro s
  cases hs : s.sHalt || s.searchComplete with
  | true =>
    rw [searchNextBody_ended hs, searchNextBody_ended (s := s.setCode c) hs, s.setCode_setFound]
    rfl
  | false =>
    rw [searchNextBody_runs hs, searchNextBody_runs (s := s.setCode c) hs]
    exact nextPassBody_ignoresCode c s.sAlarm s

theorem searchFrameBody_ignoresCode (c : BitVec 3) (alarm : Bool) :
    CommutesWith (fun s => s.setCode c) (searchFrameBody alarm) :=
  fun s => ((searchPass_ignoresCode c s.steerPosition s.sAddr alarm).andThen fun _ => .pure ()) s

/-! ## Operations as a whole (R190, R205, R230) -/

theorem bodyOf_ignoresCode (c : BitVec 3) (i : Instr) : CommutesWith (fun s => s.setCode c) (bodyOf i) := by
  cases i with
  | searchInit alarm => exact .update fun s => (s.searchInit alarm).setCode_setFound c false
  | searchNext => exact searchNextBody_ignoresCode c
  | romSearch => exact searchFrameBody_ignoresCode c false
  | romAlarmSearch => exact searchFrameBody_ignoresCode c true
  | _ => exact (inert_setCode c).bodyOf nofun nofun nofun nofun

/-- The end of an operation writes the code anew, whatever it was (R205, R227). -/
theorem endOperation_map_setCode (c : BitVec 3) (r : Res Unit) :
    endOperation (r.map fun s => s.setCode c) = endOperation r := by
  cases r with
  | done _ s => exact (s.setOe false).setCode_setCode c okCode
  | raised e s =>
    show endOperation (.raised e (s.setCode c)) = endOperation (.raised e s)
    rw [endOperation_raised, endOperation_raised]
    split
    · exact s.setCode_setCode c e.code
    · exact (s.setOe false).setCode_setCode c e.code

/-- An instruction that is not well-formed stops the same way in every state (R72). -/
theorem exec_congr_of_not_wellFormed {i : Instr} (h : i.WellFormed ≠ true) (s t : State) : exec i s = exec i t := by
  have counted {n : Nat} (hn : decide (n ≤ 255) ≠ true) (body : Proc Unit) :
      runCounted n body s = runCounted n body t :=
    have hn : ¬n ≤ 255 := fun hle => hn (decide_eq_true hle)
    (runCounted_fault hn body s).trans (runCounted_fault hn body t).symm
  cases i with
  | writeBytes n => exact counted h (writeBlock n)
  | readBytes n => exact counted h (readBlock n)
  | crc8 n => exact counted h (crc8Body n)
  | _ => exact absurd rfl h

/-- Settles O45: the body carries the old code through unread, and the end of the operation overwrites it. -/
theorem codeIsNotSticky : Obligations.CodeIsNotSticky := by
  intro i s c
  by_cases hwf : i.WellFormed = true
  · rw [exec_eq i _ hwf, exec_eq i _ hwf, bodyOf_ignoresCode c i s, endOperation_map_setCode]
  · exact exec_congr_of_not_wellFormed hwf _ _

end Sys2Proof.Machine
end

section
/-! PROOF of the statement of spec/60_exceptions.md about a recovery of the platform (O56). -/

namespace Sys2Proof.Machine

/-! ## The platform recovers (R21, R221) -/

/-- Settles O56: a recovery starts no operation, so the step takes it at once whatever `OE` is, and what it does is one
write of the line output. -/
theorem platformRecoveryReleasesLine : Obligations.PlatformRecoveryReleasesLine := by
  intro s rest h
  calc step s
      _ = acceptInput .platformRecovers (s.setInputs rest) := step_accepts h rfl
      _ = .next ((s.setInputs rest).setOutput false false) := congrArg Host.Outcome.next (State.platformRecovers_eq _)
      _ = .next { s with inputs := rest, oe := false, outputLow := false } := rfl

end Sys2Proof.Machine
end

section
/-! PROOF of the statement of spec/70_reset_and_hazards.md about how long an operation can take (O54): the most line
actions of each procedure, added up along its text. -/

namespace Sys2Proof.Machine
open Proc

/-- `p` adds at most `n` line actions to the record, however it ends. -/
def ActsAtMost {α : Type} (n : Nat) (p : Proc α) : Prop :=
  Keeps (fun s t => t.trace.length ≤ s.trace.length + n) p

section
variable {α β ι : Type} {m n : Nat}

theorem ActsAtMost.mono {p : Proc α} (h : ActsAtMost m p) (hn : m ≤ n) : ActsAtMost n p := fun s =>
  (h s).trans (Nat.add_le_add_left hn _)

theorem ActsAtMost.pure (a : α) : ActsAtMost 0 (Proc.pure a) := fun _ => le_rfl

theorem ActsAtMost.raise (e : ErrorKind) : ActsAtMost 0 (Proc.raise (α := α) e) := fun _ => le_rfl

theorem ActsAtMost.andThen {p : Proc α} {f : α → Proc β} (hp : ActsAtMost m p) (hf : ∀ a, ActsAtMost n (f a)) :
    ActsAtMost (m + n) (p.andThen f) := by
  intro s
  have h1 := hp s
  cases h : p s with
  | done a t =>
    rw [h, Res.state_done] at h1
    rw [andThen_done h]
    have h2 := hf a t
    omega
  | raised e t =>
    rw [h, Res.state_raised] at h1
    rw [andThen_raised h, Res.state_raised]
    omega

/-- Registers written from the result of a procedure are no line actions. -/
theorem ActsAtMost.store {p : Proc α} (hp : ActsAtMost n p) {g : α → State → State}
    (hg : ∀ a s, (g a s).trace = s.trace) : ActsAtMost n (p.andThen fun a => Proc.update (g a)) :=
  hp.andThen (n := 0) fun a s => (congrArg List.length (hg a s)).le

theorem ActsAtMost.fold {f : β → ι → Proc β} (hf : ∀ b x, ActsAtMost m (f b x)) {xs : List ι}
    (hn : m * xs.length ≤ n) (b : β) : ActsAtMost n (Proc.fold f b xs) := by
  refine .mono ?_ hn
  induction xs generalizing b n with
  | nil => exact .pure b
  | cons x xs ih =>
    rw [List.length_cons, Nat.mul_succ, Nat.add_comm]
    exact (hf b x).andThen (ih le_rfl)

theorem ActsAtMost.forEach {f : ι → Proc Unit} (hf : ∀ x, ActsAtMost m (f x)) {xs : List ι}
    (hn : m * xs.length ≤ n) : ActsAtMost n (Proc.forEach f xs) := by
  rw [forEach_eq_fold]
  exact .fold (fun _ x => hf x) hn ()

end

/-! ## Line actions and slots (R11, R113, R114) -/

theorem actsAtMost_driveLow : ActsAtMost 1 driveLow := by
  intro s
  cases h : s.answer 0 with
  | works l => simp [driveLow_works h]
  | fails o => simp [driveLow_fails h]

theorem actsAtMost_release : ActsAtMost 1 release := by
  intro s
  cases h : s.answer 0 with
  | works l => simp [release_works h]
  | fails o => simp [release_fails h]

theorem actsAtMost_sample : ActsAtMost 1 sample := by
  intro s
  cases h : s.answer 0 with
  | works l => simp [sample_works h]
  | fails o => simp [sample_fails h]

theorem actsAtMost_delay (d : Duration) : ActsAtMost 1 (delay d) := fun s => by simp

theorem actsAtMost_writeBit (b : Bool) : ActsAtMost 4 (writeBit b) :=
  actsAtMost_driveLow.andThen fun _ => (actsAtMost_delay _).andThen fun _ =>
    actsAtMost_release.andThen fun _ => actsAtMost_delay _

theorem actsAtMost_readBit : ActsAtMost 6 readBit :=
  actsAtMost_driveLow.andThen fun _ => (actsAtMost_delay _).andThen fun _ =>
    actsAtMost_release.andThen fun _ => (actsAtMost_delay _).andThen fun _ =>
      actsAtMost_sample.andThen fun level => (actsAtMost_delay _).andThen fun _ => .pure level

/-! ## A Reset is one shape, or a beginning of one (R75, R111, R112) -/

theorem length_lowSamples (k : Nat) : (lowSamples k).length = 2 * k := by
  induction k with
  | zero => rfl
  | succ k ih => rw [lowSamples, List.length_cons, List.length_cons, ih, Nat.mul_succ]

/-- No shape is longer than the reset frame that sees the line high at the last of its `N_WH` samples. -/
theorem length_events_le {sh : LineShape} (h : sh.Legal) : sh.events.length ≤ 2 * Config.nWh + 5 := by
  have hpos := Config.nWh_pos
  cases sh with
  | resetFrame lows level =>
    have hlt : lows < Config.nWh := h
    have hframe : (resetFrame lows level).length = 2 * lows + 7 := by
      simp [resetFrame, resetPulseEvents, length_lowSamples]
    rw [LineShape.events, hframe]
    omega
  | stuckLow =>
    rw [LineShape.events, length_lowSamples]
    omega
  | writeSlot b =>
    have hslot : (writeSlot b).length = 4 := by cases b <;> rfl
    rw [LineShape.events, hslot]
    omega
  | readSlot level =>
    have hslot : (readSlot level).length = 6 := rfl
    rw [LineShape.events, hslot]
    omega

theorem OneShape.length_le {pre : List LineEvent} {s : State} (h : OneShape pre s) :
    s.trace.length ≤ pre.length + (2 * Config.nWh + 5) := by
  obtain ⟨sh, hl, ht⟩ := h
  rw [ht, List.length_append]
  exact Nat.add_le_add_left (length_events_le hl) _

/-- The failed action stands where the shape has one more. -/
theorem CutShape.length_le {pre : List LineEvent} {s : State} (h : CutShape pre s) :
    s.trace.length ≤ pre.length + (2 * Config.nWh + 5) := by
  obtain ⟨es, a, level, ⟨sh, hl, hp⟩, ht⟩ := h
  rw [ht, List.length_append]
  refine Nat.add_le_add_left ?_ _
  calc (es ++ [LineEvent.failed a]).length
      _ = (es ++ [a.worked level]).length := by rw [List.length_append, List.length_append]; rfl
      _ ≤ sh.events.length := hp.length_le
      _ ≤ 2 * Config.nWh + 5 := length_events_le hl

theorem actsAtMost_resetSequence : ActsAtMost (2 * Config.nWh + 5) resetSequence := by
  intro s
  have h := resetSequence_oneShape s.trace s (List.append_nil _).symm
  cases hr : resetSequence s with
  | done b t =>
    rw [hr] at h
    exact h.length_le
  | raised e t =>
    rw [hr] at h
    rcases h with ⟨-, hcut⟩ | ⟨-, hone⟩
    · exact hcut.length_le
    · exact hone.length_le

/-! ## Bytes, blocks, frames and search passes (R131 to R134, R141 to R146, R163, R171) -/

theorem actsAtMost_writeByte (v : Byte) : ActsAtMost 32 (writeByte v) :=
  .forEach (fun i => actsAtMost_writeBit (v.getLsbD i)) (by decide)

theorem actsAtMost_readByte : ActsAtMost 48 readByte :=
  .fold (fun v i => actsAtMost_readBit.andThen fun b => .pure (setBit v i b)) (by decide) _

theorem actsAtMost_writeBlock (n : Nat) : ActsAtMost (32 * n) (writeBlock n) :=
  .forEach (fun k s => actsAtMost_writeByte (s.bufByte k) s) (by rw [List.length_range])

theorem actsAtMost_readBufByte (k : Nat) : ActsAtMost 48 (readBufByte k) := actsAtMost_readByte.store fun _ _ => rfl

theorem actsAtMost_readBlock (n : Nat) : ActsAtMost (48 * n) (readBlock n) :=
  .forEach actsAtMost_readBufByte (by rw [List.length_range])

theorem actsAtMost_romStart (code : Byte) : ActsAtMost (2 * Config.nWh + 5 + 32) (romStart code) := by
  refine actsAtMost_resetSequence.andThen fun p => ?_
  cases p with
  | false => exact ActsAtMost.mono (.raise _) (Nat.zero_le _)
  | true => exact actsAtMost_writeByte code

theorem actsAtMost_checkAddress (a : Address) : ActsAtMost 0 (checkAddress a) := by
  unfold checkAddress
  split
  · exact .pure ()
  · exact .raise _

theorem actsAtMost_matchRomFrame (a : Address) : ActsAtMost (2 * Config.nWh + 5 + 32 + 256) (matchRomFrame a) :=
  (actsAtMost_romStart _).andThen fun _ => .forEach (fun k => actsAtMost_writeByte (addrByte a k)) (by decide)

theorem actsAtMost_readAddress : ActsAtMost 384 readAddress :=
  .fold (fun a k => actsAtMost_readByte.andThen fun v => .pure (setAddrByte a k v)) (by decide) _

theorem actsAtMost_readRomFrame : ActsAtMost (2 * Config.nWh + 5 + 32 + 384) readRomFrame :=
  (actsAtMost_romStart _).andThen fun _ => actsAtMost_readAddress.andThen fun a =>
    (actsAtMost_checkAddress a).andThen fun _ => .pure a

theorem actsAtMost_roundChoice (ld : Nat) (prev : Address) (c : Candidate) (n : Nat) (i k : Bool) :
    ActsAtMost 4 (roundChoice ld prev c n i k) := by
  unfold roundChoice
  split
  · exact ActsAtMost.mono (.raise _) (by decide)
  · exact (actsAtMost_writeBit _).andThen fun _ => .pure _

theorem actsAtMost_searchRound (ld : Nat) (prev : Address) (c : Candidate) (n : Nat) :
    ActsAtMost 16 (searchRound ld prev c n) :=
  actsAtMost_readBit.andThen fun i => actsAtMost_readBit.andThen fun k => actsAtMost_roundChoice ld prev c n i k

theorem actsAtMost_searchRounds (ld : Nat) (prev : Address) : ActsAtMost (64 * 16) (searchRounds ld prev) :=
  .fold (actsAtMost_searchRound ld prev) (by decide) _

theorem actsAtMost_searchPass (ld : Nat) (prev : Address) (alarm : Bool) :
    ActsAtMost (2 * Config.nWh + 5 + 32 + 64 * 16) (searchPass ld prev alarm) :=
  (actsAtMost_romStart _).andThen fun _ =>
    (actsAtMost_searchRounds ld prev).andThen fun c =>
      (actsAtMost_checkAddress c.a).andThen fun _ => .pure c

/-- `SEARCH_NEXT` acts on the line in its one pass only, if it runs one (R172, R202). -/
theorem actsAtMost_searchNextBody : ActsAtMost (2 * Config.nWh + 5 + 32 + 64 * 16) searchNextBody := by
  intro s
  cases h : s.sHalt || s.searchComplete with
  | true =>
    rw [searchNextBody_ended h]
    exact Nat.le_add_right _ _
  | false =>
    rw [searchNextBody_runs h]
    have hpass := actsAtMost_searchPass s.steerPosition s.sAddr s.sAlarm (s.setFound false)
    rcases nextPassBody_cases s.sAlarm s with ⟨c, t, hr, -, -, he⟩ | ⟨e, t, hr, -, he⟩ <;> rw [hr] at hpass <;> rw [he]
    · exact hpass
    · exact hpass

/-! ## Operations (R260) -/

theorem actsAtMost_bodyOf (i : Instr) : ActsAtMost (actionBound i) (bodyOf i) := by
  cases i with
  | reset => exact actsAtMost_resetSequence.andThen fun _ => .pure ()
  | writeBit b => exact actsAtMost_writeBit b
  | readBit => exact actsAtMost_readBit.store fun _ _ => rfl
  | writeByte v => exact actsAtMost_writeByte v
  | readByte => exact actsAtMost_readByte.store fun _ _ => rfl
  | writeBytes n => exact actsAtMost_writeBlock n
  | readBytes n => exact actsAtMost_readBlock n
  | select | romMatch => exact fun s => actsAtMost_matchRomFrame s.addr s
  | skipSelect | romSkip => exact actsAtMost_romStart _
  | readRom | romRead => exact actsAtMost_readRomFrame.store fun _ _ => rfl
  | searchInit alarm => exact fun _ => le_rfl
  | searchNext => exact actsAtMost_searchNextBody
  | crc8 n => exact fun _ => le_rfl
  | reserved0 | reservedE | reservedF => exact .raise _
  | romSearch | romAlarmSearch =>
    exact fun s => (actsAtMost_searchPass s.steerPosition s.sAddr _).andThen (fun _ => .pure ()) s

/-- Settles O54: the body of each operation keeps its bound, and ending the operation is no line action. -/
theorem operationsAreBounded : Obligations.OperationsAreBounded := by
  intro i s t h
  obtain ⟨-, rfl⟩ := exec_next h
  rw [endOperation_trace]
  exact actsAtMost_bodyOf i s

end Sys2Proof.Machine
end
